-- ==== Sys2Proof/Word.lean ====
section
/-! DEFINITION. The widths of the CORE (00_scope.md R7, R10; 30_encoding.md R70, R72) and the file of index lanes. -/

namespace Sys2Proof

/-- The 64-bit word of the hash, the indices and the long operand (R7 `W = 64`). -/
abbrev Word := BitVec 64

/-- A byte of the bit array, an opcode, an error code, a short operand (R7, R70). -/
abbrev Byte := BitVec 8

/-- A command word `cmd[79:0]` (R70). -/
abbrev Cmd := BitVec 80

/-- A response word `rsp[71:0]` (R72). -/
abbrev RspWord := BitVec 72

/-- A lane number, the operand `a[5:0]` of IDX_WR (R73). -/
abbrev Lane := BitVec 6

/-- All 64 lane numbers a lane operand can name, in rising order. -/
def allLanes : List Lane := (List.range 64).map (BitVec.ofNat 6)

/-- The file of index registers whose lane `j` holds `f j`. -/
def laneFile (f : Lane → Word) : Vector Word 64 := ⟨(allLanes.map f).toArray, by simp [allLanes]⟩

end Sys2Proof
end

