-- ==== Sys2Proof/Config.lean ====
section
/-! DEFINITION. The instance parameters the spec leaves open (00_scope.md R8, R9), the constants it fixes (R7), and
the free value a register without a value holds (10_state.md R47). -/

namespace Sys2Proof

/-- `C_ROUNDS`, the rounds per absorbed word: one of 2 or 4 (R8, R92, 90_conflicts.md C1). -/
inductive CRounds where
  | two
  | four
  deriving DecidableEq, Repr

/-- The parameters of one instance (R8). They are arguments of the model: State carries them, no step changes them
(70_reset_and_hazards.md R198), and statements hold for every value of them. -/
structure Params where
  /-- `EXP_MAX`, the largest `bitCountExponent`, 9 to 63 (R8, 92_eei_decisions.md D8). -/
  expMax : Nat
  /-- `K_MAX`, the number of lanes, 1 to 64 (R8, D9). -/
  kMax : Nat
  /-- `C_ROUNDS` (R8, D10). -/
  cRounds : CRounds
  /-- `IV0` (R8, D11). -/
  iv0 : Word
  /-- `IV1` (R8, D11). -/
  iv1 : Word
  /-- `IV2` (R8, D11). -/
  iv2 : Word
  /-- `IV3` (R8, D11). -/
  iv3 : Word
  /-- `FINAL_CONST` (R8, D11). -/
  finalConst : Word
  deriving DecidableEq, Repr

/-- The bounds R8 puts on the capacity parameters. -/
abbrev Params.Legal (p : Params) : Prop := 9 ≤ p.expMax ∧ p.expMax ≤ 63 ∧ 1 ≤ p.kMax ∧ p.kMax ≤ 64

/-- The suggested defaults: EXP_MAX 63 (D8), K_MAX 16 (D9), C_ROUNDS 2 (D10), the constants of R9.
DESIGN CHOICE, unsafe if a claim rests on one of these numbers (log entry 1). -/
def Params.standard : Params :=
  { expMax := 63, kMax := 16, cRounds := .two,
    iv0 := 0x736f6d65aededbda#64, iv1 := 0x646f7261948fb580#64,
    iv2 := 0x6c796765b0c8ccce#64, iv3 := 0x74656462839fbf9e#64, finalConst := 0xff#64 }

/-- `EXP_MIN`, the smallest legal `bitCountExponent` (R7). -/
def expMin : Nat := 9

/-- `D_ROUNDS`, the finalisation rounds (R7, R92). -/
def dRounds : Nat := 4

/-- What a register WITHOUT A VALUE holds (R47: "absent ... or arbitrary, never zero"): nothing is known of it.
The first argument counts the losses of a value so far, the second names the register. DESIGN CHOICE, safe (log entry 3). -/
opaque Config.noValue : Nat → Nat → Word

/-- The free value of `V[n]` is number `n` (0 to 3); these are the other registers' numbers. -/
def Config.slotLen : Nat := 4
/-- The number of `DIGEST` among the free values. -/
def Config.slotDigest : Nat := 5
/-- The number of `EXP` among the free values. -/
def Config.slotExp : Nat := 6
/-- The number of `K` among the free values. -/
def Config.slotK : Nat := 7
/-- The number of `IDX[j]` among the free values. -/
def Config.slotIdx (j : Lane) : Nat := 8 + j.toNat
/-- The number of byte `a` of MEM among the free values: its low eight bits are the byte. -/
def Config.slotMem (a : Nat) : Nat := 72 + a

end Sys2Proof
end

