-- ==== Sys2Proof/Syntax.lean ====
section
/-! DEFINITION. The commands and pseudo-commands of spec/opcode_table.json as data (30_encoding.md R73, R75, R80 to R85). -/

namespace Sys2Proof

/-- The CSRs of 10_state.md R32 to R43, by name. -/
inductive Csr where
  | status      -- 0x00, R32
  | exp         -- 0x01, R33
  | bitCount    -- 0x02, R34
  | shift       -- 0x03, R35
  | k           -- 0x04, R36
  | digest      -- 0x05, R37
  | low         -- 0x06, R38
  | high        -- 0x07, R38
  | laneMask    -- 0x08, R39
  | testVec     -- 0x09, R39
  | params      -- 0x0A, R40
  | len         -- 0x0B, R41
  | v0          -- 0x10, R42
  | v1          -- 0x11, R42
  | v2          -- 0x12, R42
  | v3          -- 0x13, R42
  | idx (j : Lane)  -- 0x40 + j, R43
  deriving DecidableEq, Repr

/-- One constructor per row of the opcode table: 18 commands, then the 5 pseudo-commands (log entry 9).
Operands stand in the order of R80. -/
inductive Instr where
  /-- NOP (44_system_ops.md R150). -/
  | nop
  /-- RESET (R151). -/
  | reset
  /-- CFG exp, k (R152). -/
  | cfg (exp : BitVec 6) (k : BitVec 7)
  /-- CSR_RD csr (R153). -/
  | csrRd (csr : Csr)
  /-- ERR_CLR (R154). -/
  | errClr
  /-- H_INIT (40_hash_mixer.md R95). -/
  | hInit
  /-- H_ABSORB m (R96). -/
  | hAbsorb (m : Word)
  /-- H_FINAL n, tail (R97). -/
  | hFinal (n : BitVec 3) (tail : Word)
  /-- P_GEN (42_probe_engine.md R129). -/
  | pGen
  /-- IDX_WR j, index (41_bitset_port.md R111). -/
  | idxWr (j : Lane) (index : Word)
  /-- IDX_CLR (R112). -/
  | idxClr
  /-- B_SET (R115). -/
  | bSet
  /-- B_TEST (R116). -/
  | bTest
  /-- B_CLEAR (R117). -/
  | bClear
  /-- M_RD addr (R121). -/
  | mRd (addr : Word)
  /-- M_WR addr, byte (R122). -/
  | mWr (addr : Word) (value : Byte)
  /-- F_ADD (43_filter_ops.md R136). -/
  | fAdd
  /-- F_HAS (R137). -/
  | fHas
  /-- Pseudo-command NEW exp, k (30_encoding.md R81). -/
  | new (exp : BitVec 6) (k : BitVec 7)
  /-- Pseudo-command HASH bytes (R82). -/
  | hash (bytes : List Byte)
  /-- Pseudo-command ADD bytes (R83). -/
  | add (bytes : List Byte)
  /-- Pseudo-command HAS bytes (R84). -/
  | has (bytes : List Byte)
  /-- Pseudo-command CLEAR (R85). -/
  | clear
  deriving DecidableEq, Repr

/-- The five rows of format "pseudo" (R89): they expand to commands and have no word of their own. -/
def Instr.isPseudo : Instr → Bool
  | .new _ _ | .hash _ | .add _ | .has _ | .clear => true
  | .nop | .reset | .cfg _ _ | .csrRd _ | .errClr | .hInit | .hAbsorb _ | .hFinal _ _ | .pGen | .idxWr _ _ | .idxClr
  | .bSet | .bTest | .bClear | .mRd _ | .mWr _ _ | .fAdd | .fHas => false

end Sys2Proof
end

