-- ==== Sys2Proof/WellFormed.lean ====
section
/-! DEFINITION. The operand constraints a decoder enforces beyond the fields' widths (30_encoding.md R77, R89):
they depend on a field's value or on `K_MAX`. A CFG's value ranges are no decode check (opcode table, CFG). -/

namespace Sys2Proof

/-- The instruction's operands are legal on an instance with parameters `p` (R77): a lane and a lane CSR exist
(10_state.md R43, 41_bitset_port.md R111), and H_FINAL's operand has nothing above its `n` trailing bytes (R74). -/
def Instr.wf (p : Params) : Instr → Bool
  | .csrRd (.idx j) => decide (j.toNat < p.kMax)
  | .hFinal n tail => decide (tail.toNat < 2 ^ (8 * n.toNat))
  | .idxWr j _ => decide (j.toNat < p.kMax)
  | .csrRd .status | .csrRd .exp | .csrRd .bitCount | .csrRd .shift | .csrRd .k | .csrRd .digest | .csrRd .low
  | .csrRd .high | .csrRd .laneMask | .csrRd .testVec | .csrRd .params | .csrRd .len
  | .csrRd .v0 | .csrRd .v1 | .csrRd .v2 | .csrRd .v3
  | .nop | .reset | .cfg _ _ | .errClr | .hInit | .hAbsorb _ | .pGen | .idxClr
  | .bSet | .bTest | .bClear | .mRd _ | .mWr _ _ | .fAdd | .fHas
  | .new _ _ | .hash _ | .add _ | .has _ | .clear => true

end Sys2Proof
end

