-- ==== Sys2Proof/Decode.lean ====
section
/-! DEFINITION. Command words: fields, opcodes, CSR numbers, the decoder (total, rejecting by name), the opcode table as
data, the cutting of a message into words, and the encoder (30_encoding.md, 20_memory.md R50, R51). -/

namespace Sys2Proof

/-! ### The command word (R70) and the opcodes (R75) -/

/-- `op = cmd[79:72]` (R70). -/
def cmdOp (w : Cmd) : Byte := w.extractLsb' 72 8
/-- `a = cmd[71:64]` (R70). -/
def cmdA (w : Cmd) : Byte := w.extractLsb' 64 8
/-- `d = cmd[63:0]` (R70). -/
def cmdD (w : Cmd) : Word := w.extractLsb' 0 64
/-- The command word of the three fields `op a d` (R70). -/
def cmdWord (op a : Byte) (d : Word) : Cmd := op ++ a ++ d

def opNop : Byte := 0x00#8
def opReset : Byte := 0x01#8
def opCfg : Byte := 0x02#8
def opCsrRd : Byte := 0x03#8
def opErrClr : Byte := 0x04#8
def opHInit : Byte := 0x10#8
def opHAbsorb : Byte := 0x11#8
def opHFinal : Byte := 0x12#8
def opPGen : Byte := 0x20#8
def opIdxWr : Byte := 0x21#8
def opIdxClr : Byte := 0x22#8
def opBSet : Byte := 0x30#8
def opBTest : Byte := 0x31#8
def opBClear : Byte := 0x32#8
def opMRd : Byte := 0x33#8
def opMWr : Byte := 0x34#8
def opFAdd : Byte := 0x40#8
def opFHas : Byte := 0x41#8

/-! ### CSR numbers (10_state.md R31 to R43) -/

/-- The number of a CSR. -/
def csrNumber : Csr → Byte
  | .status => 0x00#8
  | .exp => 0x01#8
  | .bitCount => 0x02#8
  | .shift => 0x03#8
  | .k => 0x04#8
  | .digest => 0x05#8
  | .low => 0x06#8
  | .high => 0x07#8
  | .laneMask => 0x08#8
  | .testVec => 0x09#8
  | .params => 0x0A#8
  | .len => 0x0B#8
  | .v0 => 0x10#8
  | .v1 => 0x11#8
  | .v2 => 0x12#8
  | .v3 => 0x13#8
  | .idx j => 0x40#8 ||| j.setWidth 8

/-- The CSRs with a number of their own; the lanes' numbers are 0x40 + j. -/
def fixedCsrs : List Csr :=
  [.status, .exp, .bitCount, .shift, .k, .digest, .low, .high, .laneMask, .testVec, .params, .len, .v0, .v1, .v2, .v3]

/-- The CSR a number names, if R32 to R43 list it for some instance; every other number is reserved (R31). -/
def csrOfNumber (n : Byte) : Option Csr :=
  if n.extractLsb' 6 2 = 1#2 then some (.idx (n.extractLsb' 0 6))
  else fixedCsrs.find? (fun c => csrNumber c == n)

/-! ### The decoder (R71, R73, R76, R77) -/

/-- Why a word is no command; each case raises `IllegalCommand` (R76, R77). -/
inductive DecodeError where
  /-- `op` is not in R75 (R76). -/
  | reservedOpcode
  /-- An operand bit that R73 says is zero is not (R77). -/
  | operandBits
  /-- H_FINAL with a non-zero bit in `d[63:8n]` (R77). -/
  | tailPadding
  /-- IDX_WR with `j >= K_MAX` (R77). -/
  | noSuchLane
  /-- CSR_RD of a number that is no CSR of this instance (R77). -/
  | noSuchCsr
  deriving DecidableEq, Repr

/-- A command with neither operand: `a` and `d` must be zero (R73, R77). -/
def decodePlain (a : Byte) (d : Word) (i : Instr) : Except DecodeError Instr :=
  if a = 0#8 ∧ d = 0#64 then .ok i else .error .operandBits

/-- CFG: `k = a[6:0]`, `exp = d[5:0]`, the rest zero (R73). -/
def decodeCfg (a : Byte) (d : Word) : Except DecodeError Instr :=
  if a.extractLsb' 7 1 = 0#1 ∧ d.extractLsb' 6 58 = 0#58 then .ok (.cfg (d.extractLsb' 0 6) (a.extractLsb' 0 7))
  else .error .operandBits

/-- A lane exists on this instance (R77, R111). -/
def laneExists (p : Params) (j : Lane) : Bool := decide (j.toNat < p.kMax)

/-- A CSR exists on this instance: a lane CSR 0x40 + j needs `j < K_MAX` (10_state.md R43, R77). -/
def csrExists (p : Params) : Csr → Bool
  | .idx j => laneExists p j
  | .status | .exp | .bitCount | .shift | .k | .digest | .low | .high | .laneMask | .testVec | .params | .len
  | .v0 | .v1 | .v2 | .v3 => true

/-- The bits of `d` above the `n` trailing bytes are zero: `d[63:8n] = 0` (R74, R97). -/
def tailFits (n : BitVec 3) (tail : Word) : Bool := tail >>> (8 * n.toNat) == 0#64

/-- CSR_RD: `csr = a`, `d` zero, the number listed (R73, R77). -/
def decodeCsrRd (p : Params) (a : Byte) (d : Word) : Except DecodeError Instr :=
  if d = 0#64 then
    match csrOfNumber a with
    | some c => if csrExists p c then .ok (.csrRd c) else .error .noSuchCsr
    | none => .error .noSuchCsr
  else .error .operandBits

/-- H_FINAL: `n = a[2:0]`, `a[7:3]` zero, `d[63:8n]` zero (R73, R77, R97). -/
def decodeHFinal (a : Byte) (d : Word) : Except DecodeError Instr :=
  if a.extractLsb' 3 5 = 0#5 then
    if tailFits (a.extractLsb' 0 3) d then .ok (.hFinal (a.extractLsb' 0 3) d) else .error .tailPadding
  else .error .operandBits

/-- IDX_WR: `j = a[5:0]`, `a[7:6]` zero, `j < K_MAX` (R73, R77, R111). -/
def decodeIdxWr (p : Params) (a : Byte) (d : Word) : Except DecodeError Instr :=
  if a.extractLsb' 6 2 = 0#2 then
    if laneExists p (a.extractLsb' 0 6) then .ok (.idxWr (a.extractLsb' 0 6) d) else .error .noSuchLane
  else .error .operandBits

/-- A command whose `a` must be zero and whose `d` is its operand (R73). -/
def decodeLong (a : Byte) (i : Instr) : Except DecodeError Instr :=
  if a = 0#8 then .ok i else .error .operandBits

/-- The command of the fields `op`, `a`, `d` (R73, R75, R76). -/
def decodeFields (p : Params) (op a : Byte) (d : Word) : Except DecodeError Instr :=
  if op = opNop then decodePlain a d .nop
  else if op = opReset then decodePlain a d .reset
  else if op = opCfg then decodeCfg a d
  else if op = opCsrRd then decodeCsrRd p a d
  else if op = opErrClr then decodePlain a d .errClr
  else if op = opHInit then decodePlain a d .hInit
  else if op = opHAbsorb then decodeLong a (.hAbsorb d)
  else if op = opHFinal then decodeHFinal a d
  else if op = opPGen then decodePlain a d .pGen
  else if op = opIdxWr then decodeIdxWr p a d
  else if op = opIdxClr then decodePlain a d .idxClr
  else if op = opBSet then decodePlain a d .bSet
  else if op = opBTest then decodePlain a d .bTest
  else if op = opBClear then decodePlain a d .bClear
  else if op = opMRd then decodeLong a (.mRd d)
  else if op = opMWr then .ok (.mWr d a)
  else if op = opFAdd then decodePlain a d .fAdd
  else if op = opFHas then decodePlain a d .fHas
  else .error .reservedOpcode

/-- Decoding: a pure function of the word and the instance parameters (R71). -/
def decode (p : Params) (w : Cmd) : Except DecodeError Instr := decodeFields p (cmdOp w) (cmdA w) (cmdD w)

/-! ### Cutting a message into words (20_memory.md R50, R51; 30_encoding.md R74) -/

/-- `LE64` of up to eight bytes: the first byte in bits 7:0 (00_scope.md R15, R50). -/
def le64 : List Byte → Word
  | [] => 0#64
  | b :: rest => b.setWidth 64 ||| (le64 rest <<< 8)

/-- The full blocks `m_0, m_1, ...` of a message (R51). -/
def messageBlocks : List Byte → List Word
  | b0 :: b1 :: b2 :: b3 :: b4 :: b5 :: b6 :: b7 :: rest => le64 [b0, b1, b2, b3, b4, b5, b6, b7] :: messageBlocks rest
  | _ => []

/-- The `L mod 8` trailing bytes of a message (R51). -/
def trailingBytes : List Byte → List Byte
  | _ :: _ :: _ :: _ :: _ :: _ :: _ :: _ :: rest => trailingBytes rest
  | short => short

/-- H_FINAL's count operand: `n = L mod 8` (R74). -/
def tailCount (bytes : List Byte) : BitVec 3 := BitVec.ofNat 3 (bytes.length % 8)

/-- H_FINAL's long operand: the trailing bytes, little-endian (R74). -/
def tailOperand (bytes : List Byte) : Word := le64 (trailingBytes bytes)

/-- The tail word `t`: the trailing bytes and `L mod 256` in the top byte (R51). -/
def tailWord (bytes : List Byte) : Word :=
  (BitVec.ofNat 64 (bytes.length % 256) <<< 56) ||| tailOperand bytes

/-! ### Expansion of pseudo-commands (R81 to R85) and the encoder -/

/-- The commands `HASH bytes` stands for (R82). -/
def hashCommands (bytes : List Byte) : List Instr :=
  .hInit :: (messageBlocks bytes).map .hAbsorb ++ [.hFinal (tailCount bytes) (tailOperand bytes)]

/-- The commands an instruction stands for: itself, or a pseudo-command's expansion (R81 to R85). -/
def expand : Instr → List Instr
  | .new exp k => [.cfg exp k]
  | .hash bytes => hashCommands bytes
  | .add bytes => hashCommands bytes ++ [.fAdd]
  | .has bytes => hashCommands bytes ++ [.fHas]
  | .clear => [.bClear]
  | .nop => [.nop]
  | .reset => [.reset]
  | .cfg exp k => [.cfg exp k]
  | .csrRd c => [.csrRd c]
  | .errClr => [.errClr]
  | .hInit => [.hInit]
  | .hAbsorb m => [.hAbsorb m]
  | .hFinal n tail => [.hFinal n tail]
  | .pGen => [.pGen]
  | .idxWr j index => [.idxWr j index]
  | .idxClr => [.idxClr]
  | .bSet => [.bSet]
  | .bTest => [.bTest]
  | .bClear => [.bClear]
  | .mRd addr => [.mRd addr]
  | .mWr addr value => [.mWr addr value]
  | .fAdd => [.fAdd]
  | .fHas => [.fHas]

/-- The word of a command, from R73 and R75. A pseudo-command has no word (R89): none. -/
def encodeCommand : Instr → Option Cmd
  | .nop => some (cmdWord opNop 0#8 0#64)
  | .reset => some (cmdWord opReset 0#8 0#64)
  | .cfg exp k => some (cmdWord opCfg (k.setWidth 8) (exp.setWidth 64))
  | .csrRd c => some (cmdWord opCsrRd (csrNumber c) 0#64)
  | .errClr => some (cmdWord opErrClr 0#8 0#64)
  | .hInit => some (cmdWord opHInit 0#8 0#64)
  | .hAbsorb m => some (cmdWord opHAbsorb 0#8 m)
  | .hFinal n tail => some (cmdWord opHFinal (n.setWidth 8) tail)
  | .pGen => some (cmdWord opPGen 0#8 0#64)
  | .idxWr j index => some (cmdWord opIdxWr (j.setWidth 8) index)
  | .idxClr => some (cmdWord opIdxClr 0#8 0#64)
  | .bSet => some (cmdWord opBSet 0#8 0#64)
  | .bTest => some (cmdWord opBTest 0#8 0#64)
  | .bClear => some (cmdWord opBClear 0#8 0#64)
  | .mRd addr => some (cmdWord opMRd 0#8 addr)
  | .mWr addr value => some (cmdWord opMWr value addr)
  | .fAdd => some (cmdWord opFAdd 0#8 0#64)
  | .fHas => some (cmdWord opFHas 0#8 0#64)
  | .new _ _ | .hash _ | .add _ | .has _ | .clear => none

/-- The words of an instruction: one for a command, its expansion's for a pseudo-command. -/
def encode (i : Instr) : List Cmd := (expand i).filterMap encodeCommand

/-- The opcode byte a command's word carries, `ERROP`'s value when it faults (60_exceptions.md R182). A pseudo-command
carries several; the last one, whose response answers it, stands here. -/
def Instr.opcode : Instr → Byte
  | .nop => opNop
  | .reset => opReset
  | .cfg _ _ | .new _ _ => opCfg
  | .csrRd _ => opCsrRd
  | .errClr => opErrClr
  | .hInit => opHInit
  | .hAbsorb _ => opHAbsorb
  | .hFinal _ _ | .hash _ => opHFinal
  | .pGen => opPGen
  | .idxWr _ _ => opIdxWr
  | .idxClr => opIdxClr
  | .bSet => opBSet
  | .bTest => opBTest
  | .bClear | .clear => opBClear
  | .mRd _ => opMRd
  | .mWr _ _ => opMWr
  | .fAdd | .add _ => opFAdd
  | .fHas | .has _ => opFHas

/-! ### The opcode table as data (R89) -/

/-- The `match` and `mask` columns of spec/opcode_table.json, one row per command in the table's order (R89). -/
def opcodeTable : List (Cmd × Cmd) :=
  [ (0x00000000000000000000#80, 0xffffffffffffffffffff#80), (0x01000000000000000000#80, 0xffffffffffffffffffff#80),
    (0x02000000000000000000#80, 0xff80ffffffffffffffc0#80), (0x03000000000000000000#80, 0xff00ffffffffffffffff#80),
    (0x04000000000000000000#80, 0xffffffffffffffffffff#80), (0x10000000000000000000#80, 0xffffffffffffffffffff#80),
    (0x11000000000000000000#80, 0xffff0000000000000000#80), (0x12000000000000000000#80, 0xfff8ff00000000000000#80),
    (0x20000000000000000000#80, 0xffffffffffffffffffff#80) ] ++
  [ (0x21000000000000000000#80, 0xffc00000000000000000#80), (0x22000000000000000000#80, 0xffffffffffffffffffff#80),
    (0x30000000000000000000#80, 0xffffffffffffffffffff#80), (0x31000000000000000000#80, 0xffffffffffffffffffff#80),
    (0x32000000000000000000#80, 0xffffffffffffffffffff#80), (0x33000000000000000000#80, 0xffff0000000000000000#80),
    (0x34000000000000000000#80, 0xff000000000000000000#80), (0x40000000000000000000#80, 0xffffffffffffffffffff#80),
    (0x41000000000000000000#80, 0xffffffffffffffffffff#80) ]

/-- A word selects a row (R89). -/
def selectsRow (w : Cmd) (row : Cmd × Cmd) : Bool := (w &&& row.2) == row.1

/-- The `constraints` column's decode checks, by opcode (R77, R89). -/
def meetsConstraints (p : Params) (w : Cmd) : Bool :=
  if cmdOp w = opCsrRd then
    decide (cmdA w ≤ 0x0B#8 ∨ (0x10#8 ≤ cmdA w ∧ cmdA w ≤ 0x13#8) ∨
      (0x40 ≤ (cmdA w).toNat ∧ (cmdA w).toNat < 0x40 + p.kMax ∧ (cmdA w).toNat ≤ 0x7F))
  else if cmdOp w = opHFinal then decide ((cmdD w).toNat < 2 ^ (8 * ((cmdA w).toNat % 8)))
  else if cmdOp w = opIdxWr then decide ((cmdA w).toNat % 64 < p.kMax)
  else true

/-! ### The opcode table's words as the host numbers them -/

/-- The command word of a table row's bits: bits at or above `nbits` are zero. The spec gives a command no serialisation
(20_memory.md R62), so the word is a value and bit 0 is `cmd[0]` (log entry 10). -/
def tableWord (nbits w : Nat) : Cmd := BitVec.ofNat 80 (w % 2 ^ nbits)

/-- What the decoder reads from a table row's bits, on the standard instance. -/
def decodeTableWord (nbits w : Nat) : Option Instr :=
  match decode Params.standard (tableWord nbits w) with
  | .ok i => some i
  | .error _ => none

end Sys2Proof
end

