-- ==== Sys2Proof/Machine/State.lean ====
section
/-! DEFINITION. The state of the CORE (10_state.md R20), the host's interface to it, and the reset state (R48). -/

namespace Sys2Proof.Machine

/-- `HPHASE` (10_state.md R26): IDLE 0, ABSORB 1, DONE 2. The value 3 is never reached and has no constructor. -/
inductive HPhase where
  | idle
  | absorb
  | done
  deriving DecidableEq, Repr

/-- The four hash working words `V[0..3]` (R21). -/
structure HashWords where
  v0 : Word
  v1 : Word
  v2 : Word
  v3 : Word
  deriving DecidableEq, Repr

/-- The error codes with a name (60_exceptions.md R175). -/
inductive ErrCode where
  | invalidConfiguration
  | notConfigured
  | protocol
  | indexRange
  | illegalCommand
  | addrRange
  deriving DecidableEq, Repr

/-- A response (30_encoding.md R72): `err = rsp[71:64]`, `data = rsp[63:0]`. -/
structure Response where
  err : Byte
  data : Word
  deriving DecidableEq, Repr

/-- What the host, or what stands around the CORE, does next (00_scope.md R19, 70_reset_and_hazards.md R195 to R204). -/
inductive HostInput where
  /-- The host gives a command word, after it has taken the last response (R19). -/
  | command (w : Cmd)
  /-- Reset is applied between commands (R195). -/
  | reset
  /-- Reset arrives while the command `w` is executing (R197). -/
  | resetDuring (w : Cmd)
  /-- The host gives a command while another is outstanding, which it must not (R204). -/
  | secondCommand (w : Cmd)
  /-- Another agent writes a byte of MEM, which the spec puts outside itself (60_exceptions.md R190). -/
  | foreignWrite (addr : Nat) (value : Byte)
  deriving DecidableEq, Repr

/-- The bit array's bytes (R44) as (address, byte) pairs, addresses strictly rising, no byte listed that an unlisted
address reads as (`Memory.unlisted`). The two numbers are the model's own: they say what an unlisted byte holds (log
entry 4). -/
structure Memory where
  /-- The listed bytes. -/
  cells : List Host.Cell
  /-- Every byte below this address has been zeroed since MEM last lost its value (20_memory.md R58). -/
  zeroed : Nat
  /-- The number of that loss; it selects the free values of the bytes with no value (R47). -/
  loss : Nat
  deriving DecidableEq, Repr

/-- MEM with no value (R47, R48): nothing listed, nothing zeroed, after loss number `n`. -/
def Memory.lost (n : Nat) : Memory := { cells := [], zeroed := 0, loss := n }

/-- Why a step has no next state although the model covers the input. -/
inductive Fault where
  /-- A second command before the first's response: "the model has no move for it" (93_implementation_defined.md U14,
  70_reset_and_hazards.md R204). Raised by the step on `HostInput.secondCommand`. Safe: the model stops. -/
  | commandOverrun
  /-- B_SET, B_TEST, F_ADD or F_HAS met a valid lane whose index is not below BITCOUNT: the source's undefined behaviour,
  reached from no state that meets the invariant (20_memory.md R56, 93 U1). Safe: the model stops. -/
  | laneIndexOutOfRange
  deriving DecidableEq, Repr

/-- Why the model gives an input no meaning. -/
inductive Refusal where
  /-- An instruction without a meaning, by its mnemonic. Raised by no arm of `exec`. Safe. -/
  | notModelled (mnemonic : String)
  /-- An agent other than the CORE writes MEM: "a model must refuse such a configuration" (60_exceptions.md R190).
  Raised by the step on `HostInput.foreignWrite`. Safe. -/
  | foreignWriter
  deriving DecidableEq, Repr

/-- The state: the table of R20, the constant parameters (log entry 1), and the model's own `fresh` (log entry 3),
`host` and `rsps` (log entry 2); `mem` holds two numbers of the model's own (log entry 4). -/
structure State where
  /-- The parameters of this instance, constant (70_reset_and_hazards.md R198). -/
  params : Params
  /-- `V[0..3]` (R21). -/
  v : HashWords
  /-- `LEN` (R22). -/
  len : Byte
  /-- `HPHASE` (R26). -/
  hphase : HPhase
  /-- `DIGEST` (R23). -/
  digest : Word
  /-- `CFG_VALID` (R20). -/
  cfgValid : Bool
  /-- `EXP` (R33). -/
  exp : BitVec 6
  /-- `K` (R36). -/
  k : BitVec 7
  /-- `IDX[j]` (R43). Lanes at or above K_MAX do not exist; no command reaches their words (log entry 5). -/
  idx : Vector Word 64
  /-- `LANEMASK` (R39), K_MAX bits in the low end (log entry 5). -/
  laneMask : Word
  /-- `TESTVEC` (R29), K_MAX bits in the low end (log entry 5). -/
  testVec : Word
  /-- `RESULT` (R28). -/
  result : Bool
  /-- `MEM` (R44). -/
  mem : Memory
  /-- `ERR` (60_exceptions.md R182). -/
  err : Byte
  /-- `ERROP` (R182). -/
  errop : Byte
  /-- The model's own: how often a register has lost its value; it selects the next free value (log entry 3). -/
  fresh : Nat
  /-- The model's own: what the host does, oldest first (log entry 2). -/
  host : List HostInput
  /-- The model's own: the responses given, newest first (log entry 2). -/
  rsps : List Response
  deriving DecidableEq, Repr

/-- The state after reset of an instance with parameters `p` (R48): a register "with no value" holds the free value of
loss number `n`. -/
def State.resetOf (p : Params) (n : Nat) : State :=
  { params := p
    v := ⟨Config.noValue n 0, Config.noValue n 1, Config.noValue n 2, Config.noValue n 3⟩
    len := (Config.noValue n Config.slotLen).setWidth 8
    hphase := .idle
    digest := Config.noValue n Config.slotDigest
    cfgValid := false
    exp := (Config.noValue n Config.slotExp).setWidth 6
    k := (Config.noValue n Config.slotK).setWidth 7
    idx := laneFile (fun j => Config.noValue n (Config.slotIdx j))
    laneMask := 0#64
    testVec := 0#64
    result := false
    mem := Memory.lost n
    err := 0#8
    errop := 0#8
    fresh := n + 1
    host := []
    rsps := [] }

/-- The machine right after reset (R48), on the standard instance, with no command given yet. -/
def State.reset : State := State.resetOf Params.standard 0

end Sys2Proof.Machine
end

