-- ==== Sys2Proof/Machine/Ops.lean ====
section
/-! DEFINITION. The named operations over memory, lanes and the response and error registers, that every meaning uses. -/

namespace Sys2Proof.Machine

/-- What a meaning answers. -/
abbrev Outcome := Host.Outcome State Fault Refusal

/-- One transition after another; a stop ends the sequence. -/
def andThen (o : Outcome) (next : State → Outcome) : Outcome :=
  match o with
  | .next s => next s
  | .fault r => .fault r
  | .refused r => .refused r

/-! ### Memory (00_scope.md R13, 20_memory.md R52 to R54) -/

/-- What a byte that no cell lists reads: 0x00 where CFG or B_CLEAR has zeroed it (20_memory.md R58), else it has no value
and reads a free value (10_state.md R47, log entry 4). -/
def Memory.unlisted (m : Memory) (a : Nat) : Byte :=
  if a < m.zeroed then 0#8 else (Config.noValue m.loss (Config.slotMem a)).setWidth 8

/-- The canonical form of a memory: addresses strictly rising, no cell that says what an unlisted address reads. -/
abbrev Memory.wf (m : Memory) : Prop :=
  m.cells.Pairwise (fun c c' => c.1 < c'.1) ∧ ∀ c ∈ m.cells, c.2 ≠ m.unlisted c.1

/-- The byte listed at an address, if one is. -/
def listedByte : List Host.Cell → Nat → Option Byte
  | [], _ => none
  | c :: rest, a => if c.1 = a then some c.2 else listedByte rest a

/-- `MemRead(a, 1)`. -/
def Memory.read (m : Memory) (a : Nat) : Byte :=
  match listedByte m.cells a with
  | some v => v
  | none => m.unlisted a

/-- A cell put in its place by address. -/
def insertCell (c : Host.Cell) : List Host.Cell → List Host.Cell
  | [] => [c]
  | c' :: rest => if c.1 < c'.1 then c :: c' :: rest else c' :: insertCell c rest

/-- `MemWrite(a, 1, v)`: writing what an unlisted address reads removes the entry, so the form stays canonical. -/
def Memory.write (m : Memory) (a : Nat) (v : Byte) : Memory :=
  { m with cells :=
      if v = m.unlisted a then m.cells.filter (fun c => c.1 != a)
      else insertCell (a, v) (m.cells.filter (fun c => c.1 != a)) }

/-- A write of zero to every byte `0 .. n - 1` (20_memory.md R58, B_CLEAR and CFG). -/
def Memory.clearBelow (n : Nat) (m : Memory) : Memory :=
  { m with cells := m.cells.filter (fun c => decide (n ≤ c.1)), zeroed := max m.zeroed n }

/-- The 64-bit word view: word `w` is bytes `8w .. 8w + 7`, byte `8w` least significant (R53). No command uses it. -/
def Memory.word (m : Memory) (w : Nat) : Word :=
  le64 [m.read (8 * w), m.read (8 * w + 1), m.read (8 * w + 2), m.read (8 * w + 3),
    m.read (8 * w + 4), m.read (8 * w + 5), m.read (8 * w + 6), m.read (8 * w + 7)]

/-! ### Bit addressing (41_bitset_port.md R114) -/

/-- `BYTE(x) = x >> 3`. -/
def byteOf (x : Word) : Nat := (x >>> 3).toNat
/-- `BIT(x) = x & 7`. -/
def bitOf (x : Word) : Nat := (x &&& 7#64).toNat
/-- `MASK8[j] = 1 << j` (00_scope.md R13). -/
def mask8 (j : Nat) : Byte := 1#8 <<< j

/-- The bit at index `x`: `(MEM[BYTE(x)] >> BIT(x)) & 1` (R114). -/
def Memory.bit (m : Memory) (x : Word) : Bool := (m.read (byteOf x) >>> bitOf x) &&& 1#8 == 1#8

/-- `set(x)`: `MEM[BYTE(x)] | MASK8[BIT(x)]` (R115). -/
def Memory.setBit (m : Memory) (x : Word) : Memory := m.write (byteOf x) (m.read (byteOf x) ||| mask8 (bitOf x))

/-- `set` of each index of a list, one after another (R119). -/
def Memory.setBits (m : Memory) (xs : List Word) : Memory := xs.foldl Memory.setBit m

/-! ### Lanes (10_state.md R39, R43; 41_bitset_port.md R113) -/

/-- A 64-bit mask whose bit `j` is `f j`. -/
def laneBits (f : Lane → Bool) : Word :=
  allLanes.foldl (fun w j => w ||| (if f j then 1#64 <<< j.toNat else 0#64)) 0#64

/-- `IDX[j]`. -/
def State.idxAt (s : State) (j : Lane) : Word := s.idx[j.toNat]'(j.isLt)

/-- The lane takes part in a B_SET or B_TEST: it exists and `LANEMASK[j] = 1` (R113). -/
def State.laneValid (s : State) (j : Lane) : Bool := laneExists s.params j && s.laneMask.getLsbD j.toNat

/-- The valid lanes, from lane 0 upward; their order is not observable (20_memory.md R64). -/
def State.validLanes (s : State) : List Lane := allLanes.filter s.laneValid

/-- `IDX[j] <- x ; LANEMASK[j] <- 1` (R111). -/
def State.writeLane (s : State) (j : Lane) (x : Word) : State :=
  { s with idx := s.idx.set j.toNat x j.isLt, laneMask := s.laneMask ||| (1#64 <<< j.toNat) }

/-- All lanes invalid: `LANEMASK <- 0`, and no `IDX[j]` has a value any more (R112). -/
def State.dropLanes (s : State) : State :=
  { s with
    laneMask := 0#64
    idx := laneFile (fun j => Config.noValue s.fresh (Config.slotIdx j))
    fresh := s.fresh + 1 }

/-- Exactly the lanes below `count` that exist are valid, lane `j` with index `f j`; the others have no value (R129). -/
def State.loadLanes (s : State) (count : Nat) (f : Lane → Word) : State :=
  { s with
    laneMask := laneBits (fun j => laneExists s.params j && decide (j.toNat < count))
    idx := laneFile (fun j =>
      if laneExists s.params j && decide (j.toNat < count) then f j else Config.noValue s.fresh (Config.slotIdx j))
    fresh := s.fresh + 1 }

/-! ### Responses (30_encoding.md R72, R88) and taking an error (60_exceptions.md R182) -/

/-- The code of an error (R175). -/
def ErrCode.code : ErrCode → Byte
  | .invalidConfiguration => 1#8
  | .notConfigured => 2#8
  | .protocol => 3#8
  | .indexRange => 4#8
  | .illegalCommand => 5#8
  | .addrRange => 6#8

/-- The response as the 72-bit word `rsp[71:0]` (R72). -/
def Response.word (r : Response) : RspWord := r.err ++ r.data

/-- One response is given, after the command's effects (R72). -/
def State.respond (s : State) (r : Response) : State := { s with rsps := r :: s.rsps }

/-- TAKING AN ERROR: the response carries the code and data 0, the pair ERR, ERROP records the first error since the last
clear, and nothing else changes; the machine goes on (R182, R184). -/
def State.takeError (s : State) (op : Byte) (e : ErrCode) : State :=
  { s with
    err := if s.err = 0#8 then e.code else s.err
    errop := if s.err = 0#8 then op else s.errop
    rsps := ⟨e.code, 0#64⟩ :: s.rsps }

/-- Clearing the error registers, the "trap return" (R183). -/
def State.clearError (s : State) : State := { s with err := 0#8, errop := 0#8 }

/-- `raise E` (00_scope.md R14). -/
def raise (s : State) (op : Byte) (e : ErrCode) : Outcome := .next (s.takeError op e)

/-- The command completes without error and answers `data` (R72, R88). -/
def reply (s : State) (data : Word) : Outcome := .next (s.respond ⟨0#8, data⟩)

/-! ### Reset (70_reset_and_hazards.md R195, 44_system_ops.md R151) -/

/-- Every piece of state of R20 takes its reset value; the parameters stay (R198), and so do the model's own queues. -/
def State.toReset (s : State) : State :=
  { State.resetOf s.params s.fresh with host := s.host, rsps := s.rsps }

end Sys2Proof.Machine
end

