-- ==== Sys2Proof/Machine/Operands.lean ====
section
/-! DEFINITION. The computed operands: sizes, the split and the probes of BPE (42_probe_engine.md), and the CSR views
(10_state.md R31 to R43). -/

namespace Sys2Proof.Machine

/-! ### Configuration views (R34, R35) -/

/-- `BITCOUNT = 2^EXP` as a number (R34). -/
def State.bitCount (s : State) : Nat := 2 ^ s.exp.toNat
/-- `BITCOUNT/8`, the number of bytes of the array (20_memory.md R61). -/
def State.byteCount (s : State) : Nat := s.bitCount / 8
/-- `BITCOUNT` as a 64-bit word (R34). -/
def bitCountWord (exp : BitVec 6) : Word := 1#64 <<< exp.toNat
/-- `SHIFT = 64 - EXP` (R35). -/
def shiftOf (exp : BitVec 6) : Nat := 64 - exp.toNat

/-! ### BPE: SPLIT and PROBE (42_probe_engine.md R126, R128) -/

/-- `HIGH = digest >> SHIFT` (R126). -/
def splitHigh (digest : Word) (exp : BitVec 6) : Word := digest >>> shiftOf exp
/-- `LOW = (digest << SHIFT) >> SHIFT` (R126). -/
def splitLow (digest : Word) (exp : BitVec 6) : Word := (digest <<< shiftOf exp) >>> shiftOf exp
/-- `PROBE(i, LOW, HIGH, EXP) = (HIGH + i * LOW) & (2^EXP - 1)` (R128). -/
def probe (i : Nat) (low high : Word) (exp : BitVec 6) : Word :=
  (high + BitVec.ofNat 64 i * low) &&& (bitCountWord exp - 1#64)

/-- The probe of lane `j` under the state's digest and configuration (R129). -/
def State.probeAt (s : State) (j : Lane) : Word :=
  probe j.toNat (splitLow s.digest s.exp) (splitHigh s.digest s.exp) s.exp

/-! ### Lanes against the array (20_memory.md R56) -/

/-- Every valid lane holds an index below BITCOUNT, the source's condition for `set` and `isSet` to be defined (R56). -/
def State.lanesInRange (s : State) : Bool := s.validLanes.all (fun j => decide ((s.idxAt j).toNat < s.bitCount))

/-! ### CSR views (10_state.md R31 to R43) -/

/-- `HPHASE` as its two bits (R26). -/
def HPhase.code : HPhase → BitVec 2
  | .idle => 0#2
  | .absorb => 1#2
  | .done => 2#2

/-- CSR STATUS: bit 0 CFG_VALID, 2:1 HPHASE, 3 RESULT, 15:8 ERR, 23:16 ERROP, the rest zero (R32). -/
def State.statusWord (s : State) : Word :=
  0#40 ++ s.errop ++ s.err ++ 0#4 ++ BitVec.ofBool s.result ++ s.hphase.code ++ BitVec.ofBool s.cfgValid

/-- `C_ROUNDS` as a number (R8). -/
def roundCount : CRounds → Nat
  | .two => 2
  | .four => 4

/-- CSR PARAMS: 7:0 EXP_MAX, 15:8 K_MAX, 23:16 C_ROUNDS, 31:24 D_ROUNDS, the rest zero (R40). -/
def paramsWord (p : Params) : Word :=
  0#32 ++ BitVec.ofNat 8 dRounds ++ BitVec.ofNat 8 (roundCount p.cRounds) ++ BitVec.ofNat 8 p.kMax
    ++ BitVec.ofNat 8 p.expMax

/-- The bits `K_MAX-1:0` (R39). -/
def kMaxMask (p : Params) : Word := laneBits (laneExists p)

/-- The value CSR_RD answers, zero-extended to 64 bits (R31 to R43). -/
def State.csrValue (s : State) : Csr → Word
  | .status => s.statusWord
  | .exp => s.exp.setWidth 64
  | .bitCount => bitCountWord s.exp
  | .shift => BitVec.ofNat 64 (shiftOf s.exp)
  | .k => s.k.setWidth 64
  | .digest => s.digest
  | .low => splitLow s.digest s.exp
  | .high => splitHigh s.digest s.exp
  | .laneMask => s.laneMask &&& kMaxMask s.params
  | .testVec => s.testVec &&& kMaxMask s.params
  | .params => paramsWord s.params
  | .len => s.len.setWidth 64
  | .v0 => s.v.v0
  | .v1 => s.v.v1
  | .v2 => s.v.v2
  | .v3 => s.v.v3
  | .idx j => s.idxAt j

/-- A configuration CSR: `NotConfigured` while `CFG_VALID = 0` (R33 to R36, R38, 44_system_ops.md R153). -/
def csrNeedsConfig : Csr → Bool
  | .exp | .bitCount | .shift | .k | .low | .high => true
  | .status | .digest | .laneMask | .testVec | .params | .len | .v0 | .v1 | .v2 | .v3 | .idx _ => false

/-- The CSR has no value in this state: `Protocol` (R37, R38, R41 to R43, 44_system_ops.md R153). -/
def State.csrNoValue (s : State) : Csr → Bool
  | .digest | .low | .high => decide (s.hphase ≠ .done)
  | .len | .v0 | .v1 | .v2 | .v3 => decide (s.hphase = .idle)
  | .idx j => !s.laneMask.getLsbD j.toNat
  | .status | .exp | .bitCount | .shift | .k | .laneMask | .testVec | .params => false

end Sys2Proof.Machine
end

