-- ==== Sys2Proof/Machine/Flags.lean ====
section
/-! DEFINITION. The two flags, RESULT and TESTVEC (10_state.md R28, R29; 41_bitset_port.md R116). There are no
arithmetic flags (R30). -/

namespace Sys2Proof.Machine

/-- The bit lane `j` tests in the array (R114). -/
def State.laneBit (s : State) (j : Lane) : Bool := s.mem.bit (s.idxAt j)

/-- `TESTVEC`: bit j is what valid lane j reads, 0 for a lane that is not valid (R29, R116). -/
def State.testedBits (s : State) : Word := laneBits (fun j => s.laneValid j && s.laneBit j)

/-- `RESULT`: 1 when every valid lane's bit is 1, so 1 over no lane (R28, R116). -/
def State.testedAll (s : State) : Bool := s.validLanes.all s.laneBit

/-- RESULT in bit 0, zero elsewhere: the response data of a test (30_encoding.md R88). -/
def resultData (b : Bool) : Word := (BitVec.ofBool b).setWidth 64

/-- The flags after a test of the valid lanes (R116). -/
def State.recordTest (s : State) : State := { s with testVec := s.testedBits, result := s.testedAll }

end Sys2Proof.Machine
end

