-- ==== Sys2Proof/Machine/Hash.lean ====
section
/-! DEFINITION. KHM, the hash engine: SipRound, ABSORB, the commands H_INIT, H_ABSORB, H_FINAL, and the hash as a function
of bytes (40_hash_mixer.md). The round's statement order, the injection points, the target of FINAL_CONST and the digest's
XOR are the spec's own general knowledge (93_implementation_defined.md G1, G4 to G7; log entry 12). -/

namespace Sys2Proof.Machine

/-- `rotl64(a, r)` for `1 <= r <= 63` (00_scope.md R12). -/
def rotl64 (a : Word) (r : Nat) : Word := (a <<< r) ||| (a >>> (64 - r))

/-- `SipRound`, its statements in the order of R91. -/
def sipRound (v : HashWords) : HashWords :=
  let v0 := v.v0 + v.v1
  let v1 := rotl64 v.v1 13
  let v1 := v1 ^^^ v0
  let v0 := rotl64 v0 32
  let v2 := v.v2 + v.v3
  let v3 := rotl64 v.v3 16
  let v3 := v3 ^^^ v2
  let v0 := v0 + v3
  let v3 := rotl64 v3 21
  let v3 := v3 ^^^ v0
  let v2 := v2 + v1
  let v1 := rotl64 v1 17
  let v1 := v1 ^^^ v2
  let v2 := rotl64 v2 32
  ⟨v0, v1, v2, v3⟩

/-- `SipRound` applied `n` times. -/
def sipRounds : Nat → HashWords → HashWords
  | 0, v => v
  | n + 1, v => sipRounds n (sipRound v)

/-- `ABSORB(V, w)`: `v3 ^ w`, C_ROUNDS rounds, `v0 ^ w` (R93). -/
def absorbWord (p : Params) (v : HashWords) (w : Word) : HashWords :=
  let mixed := sipRounds (roundCount p.cRounds) { v with v3 := v.v3 ^^^ w }
  { mixed with v0 := mixed.v0 ^^^ w }

/-- The initial working words `IV0..IV3` (R94). -/
def initialWords (p : Params) : HashWords := ⟨p.iv0, p.iv1, p.iv2, p.iv3⟩

/-- `V[2] <- V[2] ^ FINAL_CONST`, then D_ROUNDS rounds (R97). -/
def finalise (p : Params) (v : HashWords) : HashWords := sipRounds dRounds { v with v2 := v.v2 ^^^ p.finalConst }

/-- `V[0] ^ V[1] ^ V[2] ^ V[3]` (R97). -/
def foldDigest (v : HashWords) : Word := v.v0 ^^^ v.v1 ^^^ v.v2 ^^^ v.v3

/-! ### Commands -/

/-- The state H_INIT leaves: DIGEST loses its value (R95). -/
def State.hashInit (s : State) : State :=
  { s with
    v := initialWords s.params
    len := 0#8
    hphase := .absorb
    digest := Config.noValue s.fresh Config.slotDigest
    fresh := s.fresh + 1 }

/-- H_INIT: start a hash (R95). -/
def execHInit (s : State) : Outcome := reply s.hashInit 0#64

/-- The state H_ABSORB leaves (R96). -/
def State.hashAbsorb (s : State) (m : Word) : State :=
  { s with v := absorbWord s.params s.v m, len := s.len + 8#8 }

/-- H_ABSORB: absorb one full block (R96). -/
def execHAbsorb (m : Word) (s : State) : Outcome :=
  if s.hphase ≠ .absorb then raise s opHAbsorb .protocol
  else reply (s.hashAbsorb m) 0#64

/-- The tail word H_FINAL forms: the length byte above the trailing bytes (R97). -/
def finalTail (len : Byte) (tail : Word) : Word := (len.setWidth 64 <<< 56) ||| tail

/-- The state H_FINAL leaves (R97). -/
def State.hashFinal (s : State) (n : BitVec 3) (tail : Word) : State :=
  let len := s.len + n.setWidth 8
  let v := finalise s.params (absorbWord s.params s.v (finalTail len tail))
  { s with len := len, v := v, digest := foldDigest v, hphase := .done }

/-- H_FINAL: absorb the tail word, finalise, answer the digest (R97). -/
def execHFinal (n : BitVec 3) (tail : Word) (s : State) : Outcome :=
  if !tailFits n tail then raise s opHFinal .illegalCommand
  else if s.hphase ≠ .absorb then raise s opHFinal .protocol
  else reply (s.hashFinal n tail) (s.hashFinal n tail).digest

/-! ### The hash as a function of bytes (R98, R99) -/

/-- `KHM_MIX64(t)`: the digest of a message with no full block and tail word `t` (R99). -/
def khmMix64 (p : Params) (t : Word) : Word := foldDigest (finalise p (absorbWord p (initialWords p) t))

/-- `KHM_DIGEST(bytes)` (R98). -/
def khmDigest (p : Params) (bytes : List Byte) : Word :=
  foldDigest (finalise p
    (absorbWord p ((messageBlocks bytes).foldl (absorbWord p) (initialWords p)) (tailWord bytes)))

end Sys2Proof.Machine
end

