-- ==== Sys2Proof/Machine/Probe.lean ====
section
/-! DEFINITION. BPE's command P_GEN (42_probe_engine.md). SPLIT and PROBE stand in Machine/Operands.lean. -/

namespace Sys2Proof.Machine

/-- The lanes P_GEN leaves: lanes `0 .. K-1` hold the probes, no other lane is valid (R129). -/
def State.genLanes (s : State) : State := s.loadLanes s.k.toNat s.probeAt

/-- The two checks of a command that needs a filter and a digest, in their order (R129, 60_exceptions.md R181). -/
def withDigest (s : State) (op : Byte) (body : State → Outcome) : Outcome :=
  if !s.cfgValid then raise s op .notConfigured
  else if s.hphase ≠ .done then raise s op .protocol
  else body s

/-- P_GEN: derive the K probe indices from DIGEST (R129). -/
def execPGen (s : State) : Outcome := withDigest s opPGen (fun s => reply s.genLanes 0#64)

end Sys2Proof.Machine
end

