-- ==== Sys2Proof/Machine/Bitset.lean ====
section
/-! DEFINITION. PBP, the packed bit-array port: IDX_WR, IDX_CLR, B_SET, B_TEST, B_CLEAR, M_RD, M_WR
(41_bitset_port.md). -/

namespace Sys2Proof.Machine

/-- The check of a command that needs a filter (R175, R178). -/
def withConfig (s : State) (op : Byte) (body : State → Outcome) : Outcome :=
  if !s.cfgValid then raise s op .notConfigured else body s

/-- IDX_WR: write one lane with a host-chosen index (R111). -/
def execIdxWr (j : Lane) (index : Word) (s : State) : Outcome :=
  if !laneExists s.params j then raise s opIdxWr .illegalCommand
  else withConfig s opIdxWr (fun s =>
    if s.bitCount ≤ index.toNat then raise s opIdxWr .indexRange else reply (s.writeLane j index) 0#64)

/-- IDX_CLR: invalidate all lanes (R112). -/
def execIdxClr (s : State) : Outcome := reply s.dropLanes 0#64

/-- The array after the bit of every valid lane is set (R115). -/
def State.setLanes (s : State) : State := { s with mem := s.mem.setBits (s.validLanes.map s.idxAt) }

/-- Set the valid lanes' bits; an index outside the array is the source's undefined behaviour (R115, 20_memory.md R56). -/
def setValidLanes (s : State) : Outcome :=
  if s.lanesInRange then reply s.setLanes 0#64 else .fault .laneIndexOutOfRange

/-- Test the valid lanes' bits; an index outside the array is the source's undefined behaviour (R116, R56). -/
def testValidLanes (s : State) : Outcome :=
  if s.lanesInRange then reply s.recordTest (resultData s.testedAll) else .fault .laneIndexOutOfRange

/-- B_SET: set the bit of every valid lane (R115). -/
def execBSet (s : State) : Outcome := withConfig s opBSet setValidLanes

/-- B_TEST: test the bit of every valid lane (R116). -/
def execBTest (s : State) : Outcome := withConfig s opBTest testValidLanes

/-- The array zeroed, all else kept (R117). -/
def State.clearArray (s : State) : State := { s with mem := Memory.clearBelow s.byteCount s.mem }

/-- B_CLEAR: zero the whole array (R117). -/
def execBClear (s : State) : Outcome := withConfig s opBClear (fun s => reply s.clearArray 0#64)

/-- The range check of a raw byte access (R121, R122, 20_memory.md R57). -/
def withByte (s : State) (op : Byte) (addr : Word) (body : State → Outcome) : Outcome :=
  withConfig s op (fun s => if s.byteCount ≤ addr.toNat then raise s op .addrRange else body s)

/-- M_RD: read one byte of the array (R121). -/
def execMRd (addr : Word) (s : State) : Outcome :=
  withByte s opMRd addr (fun s => reply s ((s.mem.read addr.toNat).setWidth 64))

/-- M_WR: write one byte of the array (R122). -/
def execMWr (addr : Word) (value : Byte) (s : State) : Outcome :=
  withByte s opMWr addr (fun s => reply { s with mem := s.mem.write addr.toNat value } 0#64)

end Sys2Proof.Machine
end

