-- ==== Sys2Proof/Machine/Filter.lean ====
section
/-! DEFINITION. The filter commands F_ADD and F_HAS (43_filter_ops.md): P_GEN's lanes, then B_SET or B_TEST (R138). -/

namespace Sys2Proof.Machine

/-- F_ADD: the array half of `Add` (R136). -/
def execFAdd (s : State) : Outcome := withDigest s opFAdd (fun s => setValidLanes s.genLanes)

/-- F_HAS: the array half of `Has` (R137). It loads IDX and LANEMASK as P_GEN does, which R137, R138, 41_bitset_port.md R113
and the table of 10_state.md R20 say, where 20_memory.md R60 says that it changes only RESULT and TESTVEC. DESIGN CHOICE,
log entry 18. -/
def execFHas (s : State) : Outcome := withDigest s opFHas (fun s => testValidLanes s.genLanes)

end Sys2Proof.Machine
end

