-- ==== Sys2Proof/Machine/System.lean ====
section
/-! DEFINITION. The system commands NOP, RESET, CFG, CSR_RD, ERR_CLR (44_system_ops.md). -/

namespace Sys2Proof.Machine

/-- NOP: no state changes (R150). -/
def execNop (s : State) : Outcome := reply s 0#64

/-- RESET: every piece of state takes its reset value (R151). -/
def execReset (s : State) : Outcome := reply s.toReset 0#64

/-- A successful CFG: the configuration is set, the array of the new size zeroed, lanes and flags cleared (R152). -/
def State.configure (s : State) (exp : BitVec 6) (k : BitVec 7) : State :=
  { s.dropLanes with
    exp := exp
    k := k
    cfgValid := true
    mem := Memory.clearBelow (2 ^ exp.toNat / 8) s.mem
    testVec := 0#64
    result := false }

/-- CFG's value check: `9 <= exp <= EXP_MAX` and `1 <= k <= K_MAX` (R152). -/
def configLegal (p : Params) (exp : BitVec 6) (k : BitVec 7) : Bool :=
  decide (expMin ≤ exp.toNat ∧ exp.toNat ≤ p.expMax ∧ 1 ≤ k.toNat ∧ k.toNat ≤ p.kMax)

/-- CFG: construct a filter (R152). -/
def execCfg (exp : BitVec 6) (k : BitVec 7) (s : State) : Outcome :=
  if configLegal s.params exp k then reply (s.configure exp k) 0#64
  else raise s opCfg .invalidConfiguration

/-- CSR_RD: read one CSR; no state changes (R153). -/
def execCsrRd (csr : Csr) (s : State) : Outcome :=
  if !csrExists s.params csr then raise s opCsrRd .illegalCommand
  else if csrNeedsConfig csr && !s.cfgValid then raise s opCsrRd .notConfigured
  else if s.csrNoValue csr then raise s opCsrRd .protocol
  else reply s (s.csrValue csr)

/-- ERR_CLR: `ERR <- 0 ; ERROP <- 0` (R154). -/
def execErrClr (s : State) : Outcome := reply s.clearError 0#64

end Sys2Proof.Machine
end

