-- ==== Sys2Proof/Machine/Pseudo.lean ====
section
/-! DEFINITION. The pseudo-commands NEW, HASH, ADD, HAS, CLEAR (30_encoding.md R81 to R85): the commands of their
expansions, one after another. Each command gives its response, as the host sees it (R72). -/

namespace Sys2Proof.Machine

/-- The H_ABSORBs of a message's blocks, in order (R82). -/
def absorbBlocks : List Word → State → Outcome
  | [], s => .next s
  | m :: rest, s => andThen (execHAbsorb m s) (absorbBlocks rest)

/-- H_INIT, one H_ABSORB per block, H_FINAL (R82). -/
def hashMessage (bytes : List Byte) (s : State) : Outcome :=
  andThen (execHInit s) (fun s =>
    andThen (absorbBlocks (messageBlocks bytes) s) (execHFinal (tailCount bytes) (tailOperand bytes)))

/-- NEW exp, k: `CFG exp, k` (R81). -/
def execNew (exp : BitVec 6) (k : BitVec 7) (s : State) : Outcome := execCfg exp k s

/-- HASH bytes (R82). -/
def execHash (bytes : List Byte) (s : State) : Outcome := hashMessage bytes s

/-- ADD bytes: HASH bytes, then F_ADD (R83, 43_filter_ops.md R140). -/
def execAdd (bytes : List Byte) (s : State) : Outcome := andThen (hashMessage bytes s) execFAdd

/-- HAS bytes: HASH bytes, then F_HAS (R84, 43_filter_ops.md R141). -/
def execHas (bytes : List Byte) (s : State) : Outcome := andThen (hashMessage bytes s) execFHas

/-- CLEAR: B_CLEAR (R85, 43_filter_ops.md R142). -/
def execClear (s : State) : Outcome := execBClear s

end Sys2Proof.Machine
end

