-- ==== Sys2Proof/Machine/Dispatch.lean ====
section
/-! DEFINITION. One arm per row of the opcode table: each calls its instruction's meaning. -/

namespace Sys2Proof.Machine

def exec (i : Instr) (s : State) : Host.Outcome State Fault Refusal :=
  match i with
  | .nop => Sys2Proof.Machine.execNop s
  | .reset => Sys2Proof.Machine.execReset s
  | .cfg exp k => Sys2Proof.Machine.execCfg exp k s
  | .csrRd csr => Sys2Proof.Machine.execCsrRd csr s
  | .errClr => Sys2Proof.Machine.execErrClr s
  | .hInit => Sys2Proof.Machine.execHInit s
  | .hAbsorb m => Sys2Proof.Machine.execHAbsorb m s
  | .hFinal n tail => Sys2Proof.Machine.execHFinal n tail s
  | .pGen => Sys2Proof.Machine.execPGen s
  | .idxWr j index => Sys2Proof.Machine.execIdxWr j index s
  | .idxClr => Sys2Proof.Machine.execIdxClr s
  | .bSet => Sys2Proof.Machine.execBSet s
  | .bTest => Sys2Proof.Machine.execBTest s
  | .bClear => Sys2Proof.Machine.execBClear s
  | .mRd addr => Sys2Proof.Machine.execMRd addr s
  | .mWr addr value => Sys2Proof.Machine.execMWr addr value s
  | .fAdd => Sys2Proof.Machine.execFAdd s
  | .fHas => Sys2Proof.Machine.execFHas s
  -- the pseudo-commands (30_encoding.md R81 to R85)
  | .new exp k => Sys2Proof.Machine.execNew exp k s
  | .hash bytes => Sys2Proof.Machine.execHash bytes s
  | .add bytes => Sys2Proof.Machine.execAdd bytes s
  | .has bytes => Sys2Proof.Machine.execHas bytes s
  | .clear => Sys2Proof.Machine.execClear s

end Sys2Proof.Machine
end

