-- ==== Sys2Proof/Machine/Fetch.lean ====
section
/-! DEFINITION. What the CORE does with the host's next input: take a command word, decode it, run it; reset; wait
(30_encoding.md R71, 70_reset_and_hazards.md R195 to R204). -/

namespace Sys2Proof.Machine

/-- A command word: the decoded command's meaning, or `IllegalCommand` (R71, R76, R77, 60_exceptions.md R181). -/
def runCommand (w : Cmd) (s : State) : Outcome :=
  match decode s.params w with
  | .ok i => exec i s
  | .error _ => raise s (cmdOp w) .illegalCommand

/-- One input of the host's stream. A reset gives no response, also when it arrives during a command: then the command is
abandoned (R195, R197). -/
def takeInput (i : HostInput) (s : State) : Outcome :=
  match i with
  | .command w => runCommand w s
  | .reset => .next s.toReset
  | .resetDuring _ => .next s.toReset
  | .secondCommand _ => .fault .commandOverrun
  | .foreignWrite _ _ => .refused .foreignWriter

/-- The oldest input is taken from the stream; with none the CORE waits for one and nothing changes (R198). -/
def hostTurn (s : State) : Outcome :=
  match s.host with
  | [] => .next s
  | i :: rest => takeInput i { s with host := rest }

/-- The host gives the command word `w` next. -/
def State.giveCommand (s : State) (w : Cmd) : State := { s with host := .command w :: s.host }

end Sys2Proof.Machine
end

