-- ==== Sys2Proof/Machine/Step.lean ====
section
/-! DEFINITION. One step of the machine, and the placing of a command where the step takes it (log entry 10). -/

namespace Sys2Proof.Machine

/-- One step: the CORE takes the host's next input (30_encoding.md R71, 70_reset_and_hazards.md R198). -/
def step (s : State) : Host.Outcome State Fault Refusal := hostTurn s

/-- The command word of a table row's bits is the host's next input. -/
def State.withFetchWord (s : State) (nbits w : Nat) : State := s.giveCommand (tableWord nbits w)

end Sys2Proof.Machine
end

