-- ==== Sys2Proof/Machine/F64.lean ====
section
/-! DEFINITION. The host's `f64` (45_host_sizing.md R166, R167): IEEE double numbers and the operations the sizing uses,
as relations between the operands and the result. The source's rules name `f64` and `ln`, 95_test_vectors.md section 7
names IEEE double arithmetic; what IEEE says of it is PRESUMED (log entry 13). No command uses it. -/

namespace Sys2Proof.Machine

/-- A value of `f64`. The two zeros are one number here: no operation of the sizing shows a zero's sign. -/
inductive F64 where
  /-- Not a number. -/
  | nan
  /-- An infinity, by its sign. -/
  | inf (negative : Bool)
  /-- A finite number. -/
  | fin (x : ℝ)

/-- The finite numbers of `f64`: a significand of 53 bits times a power of two, the exponent from -1074 to 971. -/
def IsBinary64 (x : ℝ) : Prop := ∃ m e : ℤ, |m| < 2 ^ 53 ∧ -1074 ≤ e ∧ e ≤ 971 ∧ x = m * (2 : ℝ) ^ e

/-- The value is one of `f64`. -/
def F64.wf : F64 → Prop
  | .fin x => IsBinary64 x
  | .inf _ | .nan => True

/-! ### Rounding -/

/-- `2^e` is the last place of `x`: `x` has 53 bits above it, fewer only at the least exponent (underflow). -/
def IsScale (x : ℝ) (e : ℤ) : Prop :=
  -1074 ≤ e ∧ |x| < 2 ^ 53 * (2 : ℝ) ^ e ∧ (2 ^ 52 * (2 : ℝ) ^ e ≤ |x| ∨ e = -1074)

/-- `m` is the integer nearest to `q`, the even one of two. -/
def NearestEven (q : ℝ) (m : ℤ) : Prop := |q - m| ≤ 1 / 2 ∧ (|q - m| = 1 / 2 → Even m)

/-- `y` is the exact result `x` rounded to `f64`: to the nearest number, ties to even, and to an infinity where that number
would have a larger exponent (overflow). -/
def RoundsTo (x : ℝ) (y : F64) : Prop :=
  ∃ e m : ℤ, IsScale x e ∧ NearestEven (x / 2 ^ e) m ∧
    ((|m * (2 : ℝ) ^ e| < 2 ^ 1024 ∧ y = .fin (m * (2 : ℝ) ^ e)) ∨
     (2 ^ 1024 ≤ |m * (2 : ℝ) ^ e| ∧ y = .inf (decide (m < 0))))

/-! ### Operations -/

/-- `b = -a`, which is exact. -/
def NegatesTo : F64 → F64 → Prop
  | .nan, b => b = .nan
  | .inf s, b => b = .inf (!s)
  | .fin x, b => b = .fin (-x)

/-- `c = a * b`. -/
def MultipliesTo : F64 → F64 → F64 → Prop
  | .nan, _, c | .inf _, .nan, c | .fin _, .nan, c => c = .nan
  | .inf s, .inf t, c => c = .inf (s != t)
  | .inf s, .fin x, c | .fin x, .inf s, c =>
    (x = 0 ∧ c = .nan) ∨ (0 < x ∧ c = .inf s) ∨ (x < 0 ∧ c = .inf (!s))
  | .fin x, .fin y, c => RoundsTo (x * y) c

/-- `c = a / b` for `b` other than zero; the sizing divides by `ln(2)^2` and by a positive count only. -/
def DividesTo : F64 → F64 → F64 → Prop
  | .nan, _, c | .inf _, .nan, c | .fin _, .nan, c | .inf _, .inf _, c => c = .nan
  | .inf s, .fin x, c => (0 < x ∧ c = .inf s) ∨ (x < 0 ∧ c = .inf (!s))
  | .fin _, .inf _, c => c = .fin 0
  | .fin x, .fin y, c => y ≠ 0 ∧ RoundsTo (x / y) c

/-- `y = ln(x)` for a finite `x` above zero, correctly rounded. PRESUMED, log entry 13. -/
def LogsTo (x : ℝ) (y : F64) : Prop := RoundsTo (Real.log x) y

/-- `a < c`; false for not a number. -/
def F64.lt (a : F64) (c : ℝ) : Prop :=
  match a with
  | .nan => False
  | .inf negative => negative = true
  | .fin x => x < c

/-- `a <= c`; false for not a number. -/
def F64.le (a : F64) (c : ℝ) : Prop :=
  match a with
  | .nan => False
  | .inf negative => negative = true
  | .fin x => x ≤ c

end Sys2Proof.Machine
end

