-- ==== Sys2Proof/Machine/Sizing.lean ====
section
/-! DEFINITION. The HOST's sizing (45_host_sizing.md): software outside the CORE that finds the operands of CFG, written
as relations between the numbers the host passes and what it gets. No command uses it. -/

namespace Sys2Proof.Machine

/-- `bitCount = 2^exp` is `bits` rounded up to a power of two with a floor of 512: `exp` is the smallest integer with
`exp >= 9` and `2^exp >= bits` (R168). -/
def RoundsUpTo (bits : ℝ) (exp : Nat) : Prop := 9 ≤ exp ∧ bits ≤ 2 ^ exp ∧ ∀ e : Nat, 9 ≤ e → bits ≤ 2 ^ e → exp ≤ e

/-- R168 for a number of `f64`. No power of two reaches an infinity, and the spec states no size for one or for not a number
(91_not_in_source.md N12): `exp` is then free, from 9 up, and above the exponent of every finite number for the infinity.
DESIGN CHOICE, log entry 13. -/
def SizesTo : F64 → Nat → Prop
  | .fin bits, exp => RoundsUpTo bits exp
  | .inf false, exp => 1024 ≤ exp
  | .inf true, exp => exp = 9
  | .nan, exp => 9 ≤ exp

/-- `numProbes = ceil(probes)` (R167), never 0 (R172). DEDUCED (log entry 13): where the operations underflow to
`probes = 0`, `k` is 1. DESIGN CHOICE (log entry 13): where `probes` is not finite, `k` is free from 1 up. -/
def CeilsTo : F64 → Nat → Prop
  | .fin probes, k => k = max 1 ⌈probes⌉₊
  | .inf _, k | .nan, k => 1 ≤ k

/-- What the sizing step gives its caller. -/
inductive HostSize where
  /-- `bitCount = 2^exp` and `probesPerEntry = k`. -/
  | sized (exp k : Nat)
  /-- `InvalidConfiguration`, raised by the host before any command (R169). -/
  | invalidConfiguration
  deriving DecidableEq, Repr

/-- `rawBits = -n * ln(rate) / ln(2)^2` and `probes = ln(2) * rawBits / n`, each operation in `f64` and in the order the
expressions are written (R167). -/
def DerivedNumbers (n : F64) (rate : ℝ) (rawBits probes : F64) : Prop :=
  ∃ lnRate ln2 negated product square scaled : F64,
    LogsTo rate lnRate ∧ LogsTo 2 ln2 ∧ NegatesTo n negated ∧
    MultipliesTo negated lnRate product ∧ MultipliesTo ln2 ln2 square ∧ DividesTo product square rawBits ∧
    MultipliesTo ln2 rawBits scaled ∧ DividesTo scaled n probes

/-- Derived mode (R167): `rawBits` is rounded by R168 and `numProbes` is the ceiling of the quotient; it fails for `n <= 0`
or a rate outside (0,1) (R169). -/
def DerivedSize (n rate : F64) (r : HostSize) : Prop :=
  ((n.le 0 ∨ ∀ x : ℝ, 0 < x → x < 1 → rate ≠ .fin x) ∧ r = .invalidConfiguration) ∨
  (¬ n.le 0 ∧ ∃ (x : ℝ) (rawBits probes : F64) (exp k : Nat),
    rate = .fin x ∧ 0 < x ∧ x < 1 ∧ DerivedNumbers n x rawBits probes ∧ SizesTo rawBits exp ∧ CeilsTo probes k ∧
    r = .sized exp k)

/-- `numProbes` is used as given (R170). DESIGN CHOICE (log entry 16): a number that is no integer gives any `k`. -/
def ProbesGiven : F64 → Nat → Prop
  | .fin numProbes, k => ∀ m : Nat, numProbes = m → k = m
  | .inf _, _ | .nan, _ => True

/-- Explicit mode (R170): `numBits` is rounded by R168, `numProbes` is used as given. DESIGN CHOICE (log entry 16): a
`numBits` that is no integer is rounded up as the real number it is (512.5 gives `exp = 10`) and is not refused, and a
`numProbes` that is no integer gives any `k`; the spec leaves both open (91_not_in_source.md N12, 93 U6). -/
def ExplicitSize (numBits numProbes : F64) (r : HostSize) : Prop :=
  ∃ exp k : Nat, SizesTo numBits exp ∧ ProbesGiven numProbes k ∧ r = .sized exp k

/-- The dispatch of the single entry point: a second number below 1 selects derived mode, any other explicit mode
(R166). -/
def NewFilter (first second : F64) (r : HostSize) : Prop :=
  (second.lt 1 ∧ DerivedSize first second r) ∨ (¬ second.lt 1 ∧ ExplicitSize first second r)

/-- The command the host then issues (R165, R172). DESIGN CHOICE (log entry 17): a host whose `exp` is above 63 or whose `k`
is above 127, which the operand fields of CFG cannot carry (30_encoding.md R73), issues no command; the spec does not say
what it does. -/
def sizeCommand : HostSize → Option Instr
  | .sized exp k => if exp < 64 ∧ k < 128 then some (.cfg (BitVec.ofNat 6 exp) (BitVec.ofNat 7 k)) else none
  | .invalidConfiguration => none

end Sys2Proof.Machine
end

