-- ==== Sys2Proof/Safety.lean ====
section
/-! DEFINITION. The terms in which claims about the CORE are stated: its invariant (10_state.md R49), the error a command
reports (60_exceptions.md R175, R181), what a register without a value hides (10_state.md R47), runs of commands. -/

namespace Sys2Proof.Machine

/-! ### The invariant (R49) -/

/-- What holds in every state reachable from reset (R49 (a), (b), (d)), with the widths of the masks and the form and extent
of the memory (R44). R49 (c) holds of the type HPhase. -/
structure StateInv (s : State) : Prop where
  /-- The capacity parameters are in R8's ranges. -/
  paramsLegal : s.params.Legal
  /-- R49 (a). -/
  config : s.cfgValid = true →
    9 ≤ s.exp.toNat ∧ s.exp.toNat ≤ s.params.expMax ∧ 1 ≤ s.k.toNat ∧ s.k.toNat ≤ s.params.kMax
  /-- R49 (b). -/
  lanes : ∀ j : Lane, s.laneMask.getLsbD j.toNat = true →
    s.cfgValid = true ∧ j.toNat < s.params.kMax ∧ (s.idxAt j).toNat < 2 ^ s.exp.toNat
  /-- TESTVEC has K_MAX bits (R29). -/
  testVecWidth : ∀ j : Lane, s.testVec.getLsbD j.toNat = true → j.toNat < s.params.kMax
  /-- R49 (d). -/
  errPair : (s.err = 0#8 → s.errop = 0#8) ∧ s.err.toNat ≤ 6
  /-- The memory is in canonical form. -/
  memWf : s.mem.wf
  /-- Every listed byte has been zeroed once: no byte is written before it has a value. -/
  memListed : ∀ c ∈ s.mem.cells, c.1 < s.mem.zeroed
  /-- What has a value lies in the physical array of `2^EXP_MAX/8` bytes (R44). -/
  memExtent : s.mem.zeroed ≤ 2 ^ s.params.expMax / 8
  /-- MEM has a value where a filter makes it accessible (R44, R47). -/
  memValue : s.cfgValid = true → 2 ^ s.exp.toNat / 8 ≤ s.mem.zeroed

/-! ### The error a command reports (R175, R177, R181) -/

/-- The CSRs whose read needs a filter (R175, row NotConfigured). -/
def csrNeedsFilter : Csr → Bool
  | .exp | .bitCount | .shift | .k | .low | .high => true
  | .status | .digest | .laneMask | .testVec | .params | .len | .v0 | .v1 | .v2 | .v3 | .idx _ => false

/-- The commands that need a filter (R175, row NotConfigured). -/
def needsFilter : Instr → Bool
  | .csrRd c => csrNeedsFilter c
  | .idxWr _ _ | .bSet | .bTest | .bClear | .mRd _ | .mWr _ _ | .pGen | .fAdd | .fHas => true
  | .nop | .reset | .cfg _ _ | .errClr | .hInit | .hAbsorb _ | .hFinal _ _ | .idxClr
  | .new _ _ | .hash _ | .add _ | .has _ | .clear => false

/-- The states in which a CSR has no value (R177). -/
def csrOutOfOrder (s : State) : Csr → Bool
  | .digest | .low | .high => decide (s.hphase ≠ .done)
  | .len | .v0 | .v1 | .v2 | .v3 => decide (s.hphase = .idle)
  | .idx j => !s.laneMask.getLsbD j.toNat
  | .status | .exp | .bitCount | .shift | .k | .laneMask | .testVec | .params => false

/-- The states in which a command's `Protocol` cause holds (R177). -/
def outOfOrder (s : State) : Instr → Bool
  | .csrRd c => csrOutOfOrder s c
  | .hAbsorb _ | .hFinal _ _ => decide (s.hphase ≠ .absorb)
  | .pGen | .fAdd | .fHas => decide (s.hphase ≠ .done)
  | .nop | .reset | .cfg _ _ | .errClr | .hInit | .idxWr _ _ | .idxClr | .bSet | .bTest | .bClear | .mRd _ | .mWr _ _
  | .new _ _ | .hash _ | .add _ | .has _ | .clear => false

/-- The value checks (R175, rows InvalidConfiguration, IndexRange, AddrRange). -/
def valueError (s : State) : Instr → Byte
  | .cfg exp k =>
    if exp.toNat < 9 ∨ s.params.expMax < exp.toNat ∨ k.toNat < 1 ∨ s.params.kMax < k.toNat then 1#8 else 0#8
  | .idxWr _ index => if 2 ^ s.exp.toNat ≤ index.toNat then 4#8 else 0#8
  | .mRd addr => if 2 ^ s.exp.toNat / 8 ≤ addr.toNat then 6#8 else 0#8
  | .mWr addr _ => if 2 ^ s.exp.toNat / 8 ≤ addr.toNat then 6#8 else 0#8
  | .nop | .reset | .csrRd _ | .errClr | .hInit | .hAbsorb _ | .hFinal _ _ | .pGen | .idxClr | .bSet | .bTest | .bClear
  | .fAdd | .fHas | .new _ _ | .hash _ | .add _ | .has _ | .clear => 0#8

/-- The code of the first check that fails, in R181's order; 0 when none does. For the 18 commands. -/
def firstError (i : Instr) (s : State) : Byte :=
  if i.wf s.params = false then 5#8
  else if needsFilter i && !s.cfgValid then 2#8
  else if outOfOrder s i then 3#8
  else valueError s i

/-- `t` is `s` after a command with opcode `op` faulted with `code`: only the response and the error pair differ (R182). -/
def Faulted (s t : State) (op code : Byte) : Prop :=
  t = { s with
    err := if s.err = 0#8 then code else s.err
    errop := if s.err = 0#8 then op else s.errop
    rsps := ⟨code, 0#64⟩ :: s.rsps }

/-- Every command word with opcode `op` that is `bad` on the instance raises `IllegalCommand` and does nothing else
(30_encoding.md R77, 60_exceptions.md R182): the word is the host's oldest input, and the step takes it. -/
def WordsFault (op : Byte) (bad : Params → Cmd → Prop) : Prop :=
  ∀ (s : State) (w : Cmd) (rest : List HostInput),
    s.host = .command w :: rest → w.extractLsb' 72 8 = op → bad s.params w →
    ∃ t : State, step s = .next t ∧ Faulted { s with host := rest } t op 5#8

/-- A word has a bit of the mask `m` set: a bit that the command's row of R73 says is zero. -/
def hasBitOf (m : Cmd) (_ : Params) (w : Cmd) : Prop := w &&& m ≠ 0#80

/-- The must-be-zero bits of a command with neither operand: all of `a` and `d` (R73). -/
def operandBits : Cmd := 0x00ffffffffffffffffff#80

/-! ### CSR contents (10_state.md R32 to R43) -/

/-- What the value read from a CSR shows of the state. -/
def CsrShows (s : State) (v : Word) : Csr → Prop
  | .status =>
    v.getLsbD 0 = s.cfgValid ∧ v.extractLsb' 1 2 = s.hphase.code ∧ v.getLsbD 3 = s.result ∧ v.extractLsb' 4 4 = 0#4 ∧
    v.extractLsb' 8 8 = s.err ∧ v.extractLsb' 16 8 = s.errop ∧ v.extractLsb' 24 40 = 0#40
  | .exp => v.toNat = s.exp.toNat
  | .bitCount => v.toNat = 2 ^ s.exp.toNat
  | .shift => v.toNat = 64 - s.exp.toNat
  | .k => v.toNat = s.k.toNat
  | .digest => v = s.digest
  | .low => v = (s.digest <<< (64 - s.exp.toNat)) >>> (64 - s.exp.toNat)
  | .high => v = s.digest >>> (64 - s.exp.toNat)
  | .laneMask => ∀ j : Lane, v.getLsbD j.toNat = (decide (j.toNat < s.params.kMax) && s.laneMask.getLsbD j.toNat)
  | .testVec => ∀ j : Lane, v.getLsbD j.toNat = (decide (j.toNat < s.params.kMax) && s.testVec.getLsbD j.toNat)
  | .params =>
    v.extractLsb' 0 8 = BitVec.ofNat 8 s.params.expMax ∧ v.extractLsb' 8 8 = BitVec.ofNat 8 s.params.kMax ∧
    v.extractLsb' 16 8 = (match s.params.cRounds with | .two => 2#8 | .four => 4#8) ∧
    v.extractLsb' 24 8 = 4#8 ∧ v.extractLsb' 32 32 = 0#32
  | .len => v.toNat = s.len.toNat
  | .v0 => v = s.v.v0
  | .v1 => v = s.v.v1
  | .v2 => v = s.v.v2
  | .v3 => v = s.v.v3
  | .idx j => v = s.idx[j.toNat]'(j.isLt)

/-! ### The bit array, bit by bit (20_memory.md R52) -/

/-- Bit `n` of the array: bit `n mod 8` of byte `n / 8` (R52). -/
def arrayBit (m : Memory) (n : Nat) : Bool := (m.read (n / 8)).getLsbD (n % 8)

/-- `t` has the bits of `s`, those at the numbers `P` holds of set, and no other bit changed. -/
def SetsExactly (s t : State) (P : Nat → Prop) : Prop :=
  ∀ n : Nat, arrayBit t.mem n = true ↔ arrayBit s.mem n = true ∨ P n

/-- The number `n` is one of the `K` probes of `digest` under the configuration of `s` (42_probe_engine.md R128, R129):
`(HIGH + i * LOW) mod 2^EXP` for a lane number `i < K`. -/
def IsProbe (s : State) (digest : Word) (n : Nat) : Prop :=
  ∃ i : Lane, i.toNat < s.k.toNat ∧ i.toNat < s.params.kMax ∧
    n = (digest.toNat / 2 ^ (64 - s.exp.toNat) + i.toNat * (digest.toNat % 2 ^ s.exp.toNat)) % 2 ^ s.exp.toNat

/-! ### What a register without a value hides (10_state.md R47) -/

/-- The two states show the host the same: they differ at most in registers and memory that have no value in them
(R47), and in the model's own counter of free values. -/
structure SameShown (s t : State) : Prop where
  params : t.params = s.params
  hphase : t.hphase = s.hphase
  cfgValid : t.cfgValid = s.cfgValid
  laneMask : t.laneMask = s.laneMask
  testVec : t.testVec = s.testVec
  result : t.result = s.result
  err : t.err = s.err
  errop : t.errop = s.errop
  host : t.host = s.host
  rsps : t.rsps = s.rsps
  words : s.hphase ≠ .idle → t.v = s.v ∧ t.len = s.len
  digest : s.hphase = .done → t.digest = s.digest
  config : s.cfgValid = true → t.exp = s.exp ∧ t.k = s.k
  array : s.cfgValid = true → ∀ a : Nat, a < 2 ^ s.exp.toNat / 8 → t.mem.read a = s.mem.read a
  indices : ∀ j : Lane, s.laneMask.getLsbD j.toNat = true → t.idxAt j = s.idxAt j

/-- The two outcomes show the host the same. -/
def SameOutcome (o o' : Outcome) : Prop :=
  match o, o' with
  | .next s, .next t => SameShown s t
  | .fault r, .fault r' => r = r'
  | .refused r, .refused r' => r = r'
  | _, _ => False

/-! ### Runs of instructions -/

/-- Instructions one after another; a stop ends the run. -/
def runAll : List Instr → State → Outcome
  | [], s => .next s
  | i :: rest, s => andThen (exec i s) (runAll rest)

/-- The instructions that can turn a bit of the array from 1 to 0, or end the filter (10_state.md R49 (f),
43_filter_ops.md R144). -/
def mayClearBits : Instr → Bool
  | .cfg _ _ | .new _ _ | .bClear | .clear | .mWr _ _ | .reset => true
  | .nop | .csrRd _ | .errClr | .hInit | .hAbsorb _ | .hFinal _ _ | .pGen | .idxWr _ _ | .idxClr | .bSet | .bTest
  | .mRd _ | .fAdd | .fHas | .hash _ | .add _ | .has _ => false

/-- The host keeps to its contract (70_reset_and_hazards.md R200, 60_exceptions.md R190): it gives commands one at a
time and applies reset, and nobody else writes MEM. -/
def HostInput.inContract : HostInput → Bool
  | .command _ | .reset | .resetDuring _ => true
  | .secondCommand _ | .foreignWrite _ _ => false

end Sys2Proof.Machine
end

