-- ==== Sys2Proof/Certificates/Slice0/Obligations.lean ====
section
/-! DEFINITION. The statements for the provers, each over every state and every operand of the kind it names. A state's
parameters are a field of it, so every statement holds for every value of the open parameters (00_scope.md R8). -/

open Sys2Proof Sys2Proof.Machine

/-! ### Encoding (30_encoding.md) -/

/-- Words written out from R73 and R75, one or more of each family, decode to their commands on the standard parameters
(log entry 1). -/
def Obligations.SpecWordsDecodeToTheirCommands : Prop :=
  decode Params.standard 0x00000000000000000000#80 = .ok .nop ∧
  decode Params.standard 0x02030000000000000009#80 = .ok (.cfg 9#6 3#7) ∧
  decode Params.standard 0x034f0000000000000000#80 = .ok (.csrRd (.idx 15#6)) ∧
  decode Params.standard 0x12040000000068736966#80 = .ok (.hFinal 4#3 0x68736966#64) ∧
  decode Params.standard 0x20000000000000000000#80 = .ok .pGen ∧
  decode Params.standard 0x210500000000000001ff#80 = .ok (.idxWr 5#6 0x1ff#64) ∧
  decode Params.standard 0x34800000000000000037#80 = .ok (.mWr 0x37#64 0x80#8) ∧
  decode Params.standard 0x41000000000000000000#80 = .ok .fHas

/-- DECODE AND ENCODE AGREE: the word of every well-formed command, with every operand, decodes to it. -/
def Obligations.EncodedCommandDecodesToItself : Prop :=
  ∀ (p : Params) (i : Instr) (w : Cmd), i.wf p = true → encodeCommand i = some w → decode p w = .ok i

/-- A word that decodes is the one word of the command it decodes to, and that command is well-formed: no must-be-zero bit
is ignored (R77). -/
def Obligations.DecodedCommandHasNoOtherWord : Prop :=
  ∀ (p : Params) (i : Instr) (w : Cmd), decode p w = .ok i → encodeCommand i = some w ∧ i.wf p = true

/-- A word is a command exactly when it matches a row of the opcode table and meets the row's constraints, and no word
matches two rows (R89). -/
def Obligations.OpcodeTableSelectsTheCommands : Prop :=
  (∀ (p : Params) (w : Cmd),
    (∃ i : Instr, decode p w = .ok i) ↔ (∃ row ∈ opcodeTable, selectsRow w row = true) ∧ meetsConstraints p w = true) ∧
  (∀ (w : Cmd) (row row' : Cmd × Cmd), row ∈ opcodeTable → row' ∈ opcodeTable →
    selectsRow w row = true → selectsRow w row' = true → row = row')

/-- Every word of a pseudo-command decodes, on every instance, to the commands of its expansion, in order (R81 to R85). -/
def Obligations.PseudoWordsDecodeToExpansion : Prop :=
  ∀ (p : Params) (i : Instr), i.isPseudo = true → (encode i).map (decode p) = (expand i).map .ok

/-- Blocks and tail word of a message of any length, byte by byte (20_memory.md R51; that the tail word's top byte is the
length modulo 256 is the spec's general knowledge, 93_implementation_defined.md G7, log entry 12). -/
def Obligations.MessageIsCutIntoWords : Prop :=
  ∀ m : List Byte,
    (messageBlocks m).length = m.length / 8 ∧
    (∀ b j : Nat, b < m.length / 8 → j < 8 →
      ((messageBlocks m).getD b 0#64).extractLsb' (8 * j) 8 = m.getD (8 * b + j) 0#8) ∧
    (∀ j : Nat, j < m.length % 8 →
      (tailWord m).extractLsb' (8 * j) 8 = m.getD (8 * (m.length / 8) + j) 0#8) ∧
    (∀ i : Nat, 8 * (m.length % 8) ≤ i → i < 56 → (tailWord m).getLsbD i = false) ∧
    (tailWord m).extractLsb' 56 8 = BitVec.ofNat 8 (m.length % 256)

/-! ### The step and the host's inputs -/

/-- A STEP RUNS THE DECODED COMMAND: the oldest input, a word that decodes, is taken from the stream and executed, on the
state that is otherwise the same. -/
def Obligations.StepRunsTheDecodedCommand : Prop :=
  ∀ (s : State) (w : Cmd) (rest : List HostInput) (i : Instr),
    s.host = .command w :: rest → decode s.params w = .ok i → step s = exec i { s with host := rest }

/-- A table row's bits placed by withFetchWord are what the next step executes, from any state of the standard instance (the
model's way of giving a command, log entry 10). -/
def Obligations.PlacedTableWordIsExecuted : Prop :=
  ∀ (s : State) (nbits w : Nat) (i : Instr),
    s.params = Params.standard → decodeTableWord nbits w = some i → step (s.withFetchWord nbits w) = exec i s

/-- Every word that decodes to no command raises `IllegalCommand` (code 5), records its own opcode byte if the error pair was
clear, and changes nothing else; a word with an opcode outside R75 is such a word, whatever its operands (R76). -/
def Obligations.IllegalWordRaisesIllegalCommand : Prop :=
  (∀ (s : State) (w : Cmd) (rest : List HostInput),
    s.host = .command w :: rest → (∀ i : Instr, decode s.params w ≠ .ok i) →
    ∃ t : State, step s = .next t ∧ Faulted { s with host := rest } t (w.extractLsb' 72 8) 5#8) ∧
  (∀ op : Byte,
    op ∉ [0x00#8, 0x01#8, 0x02#8, 0x03#8, 0x04#8, 0x10#8, 0x11#8, 0x12#8, 0x20#8, 0x21#8, 0x22#8, 0x30#8, 0x31#8, 0x32#8,
      0x33#8, 0x34#8, 0x40#8, 0x41#8] →
    WordsFault op (fun _ _ => True))

/-- After hardware reset, also during a command, and after RESET, every register with a reset value has it; the parameters
stay; reset itself gives no response and RESET gives one; a RESET word with an operand bit set resets nothing (R151, R195,
R197). -/
def Obligations.ResetGivesTheResetState : Prop :=
  (∀ (s : State) (rest : List HostInput) (w : Cmd),
     (∀ x : HostInput, (x = .reset ∨ x = .resetDuring w) → s.host = x :: rest →
       ∃ t : State, step s = .next t ∧ t.cfgValid = false ∧ t.hphase = .idle ∧ t.laneMask = 0#64 ∧ t.testVec = 0#64 ∧
         t.result = false ∧ t.err = 0#8 ∧ t.errop = 0#8 ∧ t.params = s.params ∧ t.rsps = s.rsps ∧ t.host = rest) ∧
     (∃ t : State, exec .reset s = .next t ∧ t.cfgValid = false ∧ t.hphase = .idle ∧ t.laneMask = 0#64 ∧
       t.testVec = 0#64 ∧ t.result = false ∧ t.err = 0#8 ∧ t.errop = 0#8 ∧ t.params = s.params ∧
       t.rsps = ⟨0#8, 0#64⟩ :: s.rsps ∧ t.host = s.host)) ∧
  WordsFault 0x01#8 (hasBitOf operandBits)

/-- With no input the CORE waits; a second outstanding command stops the model; a foreign writer is refused (R190, R198,
R204; the model's choices, log entries 2, 6, 8). -/
def Obligations.OtherInputsWaitOrStop : Prop :=
  ∀ (s : State) (rest : List HostInput) (w : Cmd) (a : Nat) (v : Byte),
    (s.host = [] → step s = .next s) ∧
    (s.host = .secondCommand w :: rest → step s = .fault .commandOverrun) ∧
    (s.host = .foreignWrite a v :: rest → step s = .refused .foreignWriter)

/-! ### Errors (60_exceptions.md) -/

/-- Every command gives exactly one response, whose code is that of the first check that fails in R181's order, by the
causes of R175 and R177; the data of a response with an error is 0; a word that decodes to no command answers code 5 before
any other check. The premise rules out the lanes the source leaves undefined (R56), which no state of the invariant has. -/
def Obligations.ResponseCodeIsTheFirstFailingCheck : Prop :=
  (∀ (i : Instr) (s : State), i.isPseudo = false → s.lanesInRange = true →
    ∃ (t : State) (r : Response), exec i s = .next t ∧ t.rsps = r :: s.rsps ∧ r.err = firstError i s ∧
      (r.err ≠ 0#8 → r.data = 0#64)) ∧
  (∀ (s : State) (w : Cmd) (rest : List HostInput),
    s.host = .command w :: rest → (∀ i : Instr, decode s.params w ≠ .ok i) →
    ∃ t : State, step s = .next t ∧ t.rsps = ⟨5#8, 0#64⟩ :: s.rsps)

/-- A command that faults changes the error pair, if it was clear, and nothing else: of the instruction, and of the step that
takes its word, legal or not (R182). -/
def Obligations.FaultChangesOnlyTheErrorPair : Prop :=
  (∀ (i : Instr) (s t : State) (r : Response), i.isPseudo = false → exec i s = .next t → t.rsps = r :: s.rsps →
    r.err ≠ 0#8 → Faulted s t i.opcode r.err) ∧
  (∀ (s t : State) (w : Cmd) (rest : List HostInput) (r : Response),
    s.host = .command w :: rest → step s = .next t → t.rsps = r :: s.rsps → r.err ≠ 0#8 →
    Faulted { s with host := rest } t (w.extractLsb' 72 8) r.err)

/-- Only ERR_CLR, RESET and hardware reset clear a recorded error, and they do: every other instruction, and every step that
takes another input, keeps the pair (R183). -/
def Obligations.OnlyErrClrAndResetClearTheErrorPair : Prop :=
  (∀ (i : Instr) (s t : State), i ≠ .errClr → i ≠ .reset → s.err ≠ 0#8 → exec i s = .next t →
    t.err = s.err ∧ t.errop = s.errop) ∧
  (∀ (i : Instr) (s : State), i = .errClr ∨ i = .reset →
    ∃ t : State, exec i s = .next t ∧ t.err = 0#8 ∧ t.errop = 0#8) ∧
  (∀ (s t : State) (x : HostInput) (rest : List HostInput), s.host = x :: rest → step s = .next t → s.err ≠ 0#8 →
    (x ≠ .reset ∧ (∀ w : Cmd, x ≠ .resetDuring w) ∧
      (∀ w : Cmd, x = .command w → decode s.params w ≠ .ok .errClr ∧ decode s.params w ≠ .ok .reset) ∧
      t.err = s.err ∧ t.errop = s.errop) ∨
    ((x = .reset ∨ (∃ w : Cmd, x = .resetDuring w) ∨
        ∃ w : Cmd, x = .command w ∧ (decode s.params w = .ok .errClr ∨ decode s.params w = .ok .reset)) ∧
      t.err = 0#8 ∧ t.errop = 0#8))

/-! ### System commands (44_system_ops.md) -/

/-- NOP completes in every state and changes nothing; ERR_CLR completes in every state and clears the pair and nothing else; a
word of either with an operand bit set raises `IllegalCommand` (R150, R154). -/
def Obligations.NopAndErrClrResults : Prop :=
  (∀ s : State,
     exec .nop s = .next { s with rsps := ⟨0#8, 0#64⟩ :: s.rsps } ∧
     exec .errClr s = .next { s with err := 0#8, errop := 0#8, rsps := ⟨0#8, 0#64⟩ :: s.rsps }) ∧
  WordsFault 0x00#8 (hasBitOf operandBits) ∧ WordsFault 0x04#8 (hasBitOf operandBits)

/-- CFG and NEW with values in range set EXP, K and CFG_VALID, zero the new array, drop the lanes and clear the flags; hash
state, error pair and every other byte stay. With a value out of range they raise `InvalidConfiguration`, a word with a
must-be-zero bit set `IllegalCommand`, and change nothing else (R152). -/
def Obligations.CfgConstructsAFilter : Prop :=
  (∀ (s : State) (e : BitVec 6) (n : BitVec 7) (i : Instr), i = .cfg e n ∨ i = .new e n →
     (9 ≤ e.toNat → e.toNat ≤ s.params.expMax → 1 ≤ n.toNat → n.toNat ≤ s.params.kMax →
       ∃ t : State, exec i s = .next t ∧
         (∀ a : Nat, t.mem.read a = if a < 2 ^ e.toNat / 8 then 0#8 else s.mem.read a) ∧
         t = { s with
           exp := e, k := n, cfgValid := true, mem := t.mem, laneMask := 0#64, idx := t.idx, testVec := 0#64
           result := false, fresh := t.fresh, rsps := ⟨0#8, 0#64⟩ :: s.rsps }) ∧
     ((e.toNat < 9 ∨ s.params.expMax < e.toNat ∨ n.toNat < 1 ∨ s.params.kMax < n.toNat) →
       ∃ t : State, exec i s = .next t ∧ Faulted s t 0x02#8 1#8)) ∧
  WordsFault 0x02#8 (hasBitOf 0x0080ffffffffffffffc0#80)

/-- CSR_RD of a CSR that exists and has a value answers what R32 to R43 say it shows, and changes no state; else it raises the
error of its first failing check; a word with a must-be-zero bit set, or whose number is no CSR of the instance, raises
`IllegalCommand` (R153). -/
def Obligations.CsrReadShowsTheRegister : Prop :=
  (∀ (s : State) (c : Csr),
    (firstError (.csrRd c) s = 0#8 →
      ∃ v : Word, exec (.csrRd c) s = .next { s with rsps := ⟨0#8, v⟩ :: s.rsps } ∧ CsrShows s v c) ∧
    (firstError (.csrRd c) s ≠ 0#8 →
      ∃ t : State, exec (.csrRd c) s = .next t ∧ Faulted s t 0x03#8 (firstError (.csrRd c) s))) ∧
  WordsFault 0x03#8 (fun p w => hasBitOf 0x0000ffffffffffffffff#80 p w ∨
    ∀ c : Csr, csrNumber c = w.extractLsb' 64 8 → (Instr.csrRd c).wf p = false)

/-! ### KHM (40_hash_mixer.md) -/

/-- The round's check value, its fixed point, and that it is a bijection of the four words (R91; the statements of the
round are the spec's general knowledge, 93_implementation_defined.md G1, log entry 12). -/
def Obligations.SipRoundIsABijection : Prop :=
  Function.Bijective sipRound ∧ sipRound ⟨0#64, 0#64, 0#64, 0#64⟩ = ⟨0#64, 0#64, 0#64, 0#64⟩ ∧
  sipRound ⟨1#64, 2#64, 3#64, 4#64⟩ =
    ⟨0x0000000300040007#64, 0x000000008006400a#64, 0x0000400a00000000#64, 0x0000008300e40007#64⟩

/-- H_INIT completes in every state: V takes the constants, LEN 0, HPHASE ABSORB, DIGEST loses its value; lanes, flags,
configuration, array and error pair stay (R95). -/
def Obligations.HInitStartsAHash : Prop :=
  (∀ s : State, ∃ t : State, exec .hInit s = .next t ∧
     t = { s with
       v := ⟨s.params.iv0, s.params.iv1, s.params.iv2, s.params.iv3⟩, len := 0#8, hphase := .absorb
       digest := t.digest, fresh := t.fresh, rsps := ⟨0#8, 0#64⟩ :: s.rsps }) ∧
  WordsFault 0x10#8 (hasBitOf operandBits)

/-- H_ABSORB in phase ABSORB: v3 ^ m, C_ROUNDS rounds, v0 ^ m; LEN + 8 modulo 256; nothing else. In another phase it raises
`Protocol` (R96, R93; the details inside the
round and around it are the spec's general knowledge, 93_implementation_defined.md G1, G4 to G7, log entry 12). -/
def Obligations.HAbsorbMixesOneBlock : Prop :=
  (∀ (s : State) (m : Word),
     (s.hphase = .absorb → ∃ u : HashWords,
       u = sipRound^[match s.params.cRounds with | .two => 2 | .four => 4]
         ⟨s.v.v0, s.v.v1, s.v.v2, s.v.v3 ^^^ m⟩ ∧
       exec (.hAbsorb m) s = .next { s with
         v := ⟨u.v0 ^^^ m, u.v1, u.v2, u.v3⟩, len := BitVec.ofNat 8 (s.len.toNat + 8)
         rsps := ⟨0#8, 0#64⟩ :: s.rsps }) ∧
     (s.hphase ≠ .absorb → ∃ t : State, exec (.hAbsorb m) s = .next t ∧ Faulted s t 0x11#8 3#8)) ∧
  WordsFault 0x11#8 (hasBitOf 0x00ff0000000000000000#80)

/-- H_FINAL in phase ABSORB with nothing above its n trailing bytes: LEN + n, the tail word with LEN in its top byte
absorbed, v2 ^ FINAL_CONST, four rounds, DIGEST the XOR of the words and the response, HPHASE DONE; nothing else. With
stray bits it raises `IllegalCommand`, else in another phase `Protocol` (R97; the details inside the
round and around it are the spec's general knowledge, 93_implementation_defined.md G1, G4 to G7, log entry 12). -/
def Obligations.HFinalMakesTheDigest : Prop :=
  (∀ (s : State) (n : BitVec 3) (d : Word),
     (d.toNat < 2 ^ (8 * n.toNat) → s.hphase = .absorb → ∃ (l : Byte) (x : Word) (u f : HashWords),
       l = BitVec.ofNat 8 (s.len.toNat + n.toNat) ∧ x = (BitVec.ofNat 64 l.toNat <<< 56) ||| d ∧
       u = sipRound^[match s.params.cRounds with | .two => 2 | .four => 4]
         ⟨s.v.v0, s.v.v1, s.v.v2, s.v.v3 ^^^ x⟩ ∧
       f = sipRound^[4] ⟨u.v0 ^^^ x, u.v1, u.v2 ^^^ s.params.finalConst, u.v3⟩ ∧
       exec (.hFinal n d) s = .next { s with
         v := f, len := l, hphase := .done, digest := f.v0 ^^^ f.v1 ^^^ f.v2 ^^^ f.v3
         rsps := ⟨0#8, f.v0 ^^^ f.v1 ^^^ f.v2 ^^^ f.v3⟩ :: s.rsps }) ∧
     (2 ^ (8 * n.toNat) ≤ d.toNat → ∃ t : State, exec (.hFinal n d) s = .next t ∧ Faulted s t 0x12#8 5#8) ∧
     (d.toNat < 2 ^ (8 * n.toNat) → s.hphase ≠ .absorb →
       ∃ t : State, exec (.hFinal n d) s = .next t ∧ Faulted s t 0x12#8 3#8)) ∧
  WordsFault 0x12#8 (fun p w =>
    hasBitOf 0x00f80000000000000000#80 p w ∨ 2 ^ (8 * (w.extractLsb' 64 3).toNat) ≤ (w.extractLsb' 0 64).toNat)

/-- HASH of any message from any state ends in phase DONE with DIGEST = KHM_DIGEST and LEN the length modulo 256, answers
the digest last, gives 2 + floor(L/8) responses, and touches no lane, flag, configuration, byte or error register (R98, R82; the details inside the
round and around it are the spec's general knowledge, 93_implementation_defined.md G1, G4 to G7, log entry 12). -/
def Obligations.HashSequenceComputesKhmDigest : Prop :=
  ∀ (s : State) (m : List Byte), ∃ t : State, exec (.hash m) s = .next t ∧
    t = { s with
      v := t.v, len := BitVec.ofNat 8 m.length, hphase := .done, digest := khmDigest s.params m, fresh := t.fresh
      rsps := ⟨0#8, khmDigest s.params m⟩ :: (List.replicate (m.length / 8 + 1) ⟨0#8, 0#64⟩ ++ s.rsps) }

/-- For a message of at most 7 bytes the digest is KHM_MIX64 of its tail word (R99; the functions are the spec's
general knowledge, log entry 12). -/
def Obligations.ShortMessageDigestIsMix64 : Prop :=
  ∀ (p : Params) (m : List Byte), m.length ≤ 7 → khmDigest p m = khmMix64 p (tailWord m)

/-! ### BPE (42_probe_engine.md) -/

/-- The split by shifts is the digest's top EXP bits and its bottom EXP bits, both below 2^EXP, the bottom also by the mask; with
EXP at least 9 the shift lies between 1 and 55 (R127). -/
def Obligations.SplitTakesTopAndBottomBits : Prop :=
  ∀ (digest : Word) (exp : BitVec 6),
    (splitHigh digest exp).toNat = digest.toNat / 2 ^ (64 - exp.toNat) ∧
    (splitLow digest exp).toNat = digest.toNat % 2 ^ exp.toNat ∧
    splitLow digest exp = digest &&& (BitVec.ofNat 64 (2 ^ exp.toNat) - 1#64) ∧
    (splitHigh digest exp).toNat < 2 ^ exp.toNat ∧ (splitLow digest exp).toNat < 2 ^ exp.toNat ∧
    (9 ≤ exp.toNat → 1 ≤ shiftOf exp ∧ shiftOf exp ≤ 55)

/-- The wrap at 64 bits does not change an index: PROBE(i) is (HIGH + i*LOW) mod 2^EXP over the naturals (R131). -/
def Obligations.ProbeIsModularArithmetic : Prop :=
  ∀ (i : Nat) (low high : Word) (exp : BitVec 6),
    (probe i low high exp).toNat = (high.toNat + i * low.toNat) % 2 ^ exp.toNat

/-- PROBE(0) is HIGH, and each probe is the last plus LOW under the index mask (R132). -/
def Obligations.ProbesFollowIncrementally : Prop :=
  ∀ (i : Nat) (digest : Word) (exp : BitVec 6),
    probe 0 (splitLow digest exp) (splitHigh digest exp) exp = splitHigh digest exp ∧
    probe (i + 1) (splitLow digest exp) (splitHigh digest exp) exp =
      (probe i (splitLow digest exp) (splitHigh digest exp) exp + splitLow digest exp) &&&
        (BitVec.ofNat 64 (2 ^ exp.toNat) - 1#64)

/-- P_GEN with a filter and a digest makes exactly the lanes below K valid, lane j with probe j of DIGEST; array, digest,
flags and error pair stay. Without a filter it raises `NotConfigured`, else without a digest `Protocol` (R129). -/
def Obligations.PGenLoadsTheProbes : Prop :=
  (∀ s : State,
     (s.cfgValid = true → s.hphase = .done → ∃ t : State, exec .pGen s = .next t ∧
       (∀ j : Lane, t.laneMask.getLsbD j.toNat = (decide (j.toNat < s.params.kMax) && decide (j.toNat < s.k.toNat))) ∧
       (∀ j : Lane, j.toNat < s.params.kMax → j.toNat < s.k.toNat → (t.idxAt j).toNat =
         ((s.digest >>> (64 - s.exp.toNat)).toNat + j.toNat * ((s.digest <<< (64 - s.exp.toNat)) >>>
           (64 - s.exp.toNat)).toNat) % 2 ^ s.exp.toNat) ∧
       t = { s with
         idx := t.idx, laneMask := t.laneMask, fresh := t.fresh, rsps := ⟨0#8, 0#64⟩ :: s.rsps }) ∧
     (s.cfgValid = false → ∃ t : State, exec .pGen s = .next t ∧ Faulted s t 0x20#8 2#8) ∧
     (s.cfgValid = true → s.hphase ≠ .done → ∃ t : State, exec .pGen s = .next t ∧ Faulted s t 0x20#8 3#8)) ∧
  WordsFault 0x20#8 (hasBitOf operandBits)

/-! ### PBP (41_bitset_port.md) -/

/-- IDX_WR of an existing lane and an index below BITCOUNT makes that lane valid with that index and leaves every other lane
and everything else. A missing lane, no filter, an index out of range raise, in that order (R111). -/
def Obligations.IdxWrWritesOneLane : Prop :=
  (∀ (s : State) (j : Lane) (x : Word),
     (j.toNat < s.params.kMax → s.cfgValid = true → x.toNat < 2 ^ s.exp.toNat →
       ∃ t : State, exec (.idxWr j x) s = .next t ∧
         t.idxAt j = x ∧ t.laneMask.getLsbD j.toNat = true ∧
         (∀ l : Lane, l ≠ j → t.idxAt l = s.idxAt l ∧ t.laneMask.getLsbD l.toNat = s.laneMask.getLsbD l.toNat) ∧
         t = { s with idx := t.idx, laneMask := t.laneMask, rsps := ⟨0#8, 0#64⟩ :: s.rsps }) ∧
     (s.params.kMax ≤ j.toNat → ∃ t : State, exec (.idxWr j x) s = .next t ∧ Faulted s t 0x21#8 5#8) ∧
     (j.toNat < s.params.kMax → s.cfgValid = false →
       ∃ t : State, exec (.idxWr j x) s = .next t ∧ Faulted s t 0x21#8 2#8) ∧
     (j.toNat < s.params.kMax → s.cfgValid = true → 2 ^ s.exp.toNat ≤ x.toNat →
       ∃ t : State, exec (.idxWr j x) s = .next t ∧ Faulted s t 0x21#8 4#8)) ∧
  WordsFault 0x21#8 (fun p w => hasBitOf 0x00c00000000000000000#80 p w ∨ p.kMax ≤ (w.extractLsb' 64 6).toNat)

/-- IDX_CLR completes in every state, invalidates every lane and changes nothing else; the indices have no value then
(R112). -/
def Obligations.IdxClrDropsTheLanes : Prop :=
  (∀ s : State, ∃ t : State, exec .idxClr s = .next t ∧
     t = { s with laneMask := 0#64, idx := t.idx, fresh := t.fresh, rsps := ⟨0#8, 0#64⟩ :: s.rsps }) ∧
  WordsFault 0x22#8 (hasBitOf operandBits)

/-- B_SET with a filter and lanes in range sets exactly the bits of the valid lanes, all of them, and changes nothing else;
without a filter it raises `NotConfigured` (R115). -/
def Obligations.BSetSetsTheLanesBits : Prop :=
  (∀ s : State,
     (s.cfgValid = true → s.lanesInRange = true → ∃ t : State, exec .bSet s = .next t ∧
       SetsExactly s t (fun n => ∃ j : Lane, j.toNat < s.params.kMax ∧ s.laneMask.getLsbD j.toNat = true ∧
         (s.idxAt j).toNat = n) ∧
       t = { s with mem := t.mem, rsps := ⟨0#8, 0#64⟩ :: s.rsps }) ∧
     (s.cfgValid = false → ∃ t : State, exec .bSet s = .next t ∧ Faulted s t 0x30#8 2#8)) ∧
  WordsFault 0x30#8 (hasBitOf operandBits)

/-- B_TEST with a filter and lanes in range: TESTVEC[j] is the bit of valid lane j, 0 for another lane; RESULT is 1 exactly
when every valid lane's bit is 1, and the response data; nothing else changes. Without a filter it raises `NotConfigured`
(R116). -/
def Obligations.BTestTestsTheLanesBits : Prop :=
  (∀ s : State,
     (s.cfgValid = true → s.lanesInRange = true → ∃ t : State, exec .bTest s = .next t ∧
       (∀ j : Lane, t.testVec.getLsbD j.toNat = (decide (j.toNat < s.params.kMax) && s.laneMask.getLsbD j.toNat &&
         arrayBit s.mem (s.idxAt j).toNat)) ∧
       (t.result = true ↔ ∀ j : Lane, j.toNat < s.params.kMax → s.laneMask.getLsbD j.toNat = true →
         arrayBit s.mem (s.idxAt j).toNat = true) ∧
       t = { s with
         testVec := t.testVec, result := t.result, rsps := ⟨0#8, if t.result then 1#64 else 0#64⟩ :: s.rsps }) ∧
     (s.cfgValid = false → ∃ t : State, exec .bTest s = .next t ∧ Faulted s t 0x31#8 2#8)) ∧
  WordsFault 0x31#8 (hasBitOf operandBits)

/-- B_CLEAR and CLEAR with a filter zero every byte below BITCOUNT/8 and change nothing else; without one they raise
`NotConfigured` (R117, 30_encoding.md R85). -/
def Obligations.BClearZeroesTheArray : Prop :=
  (∀ (s : State) (i : Instr), i = .bClear ∨ i = .clear →
     (s.cfgValid = true → ∃ t : State, exec i s = .next t ∧
       (∀ a : Nat, t.mem.read a = if a < 2 ^ s.exp.toNat / 8 then 0#8 else s.mem.read a) ∧
       t = { s with mem := t.mem, rsps := ⟨0#8, 0#64⟩ :: s.rsps }) ∧
     (s.cfgValid = false → ∃ t : State, exec i s = .next t ∧ Faulted s t 0x32#8 2#8)) ∧
  WordsFault 0x32#8 (hasBitOf operandBits)

/-- M_RD with a filter and an address below BITCOUNT/8 answers the byte, zero-extended, and changes no state; else it raises
`NotConfigured` or `AddrRange` (R121). -/
def Obligations.MRdReadsOneByte : Prop :=
  (∀ (s : State) (addr : Word),
     (s.cfgValid = true → addr.toNat < 2 ^ s.exp.toNat / 8 →
       exec (.mRd addr) s = .next { s with
         rsps := ⟨0#8, BitVec.ofNat 64 (s.mem.read addr.toNat).toNat⟩ :: s.rsps }) ∧
     (s.cfgValid = false → ∃ t : State, exec (.mRd addr) s = .next t ∧ Faulted s t 0x33#8 2#8) ∧
     (s.cfgValid = true → 2 ^ s.exp.toNat / 8 ≤ addr.toNat →
       ∃ t : State, exec (.mRd addr) s = .next t ∧ Faulted s t 0x33#8 6#8)) ∧
  WordsFault 0x33#8 (hasBitOf 0x00ff0000000000000000#80)

/-- M_WR with a filter and an address below BITCOUNT/8 replaces that byte and changes nothing else; else it raises
`NotConfigured` or `AddrRange` (R122). -/
def Obligations.MWrWritesOneByte : Prop :=
  ∀ (s : State) (addr : Word) (v : Byte),
    (s.cfgValid = true → addr.toNat < 2 ^ s.exp.toNat / 8 → ∃ t : State, exec (.mWr addr v) s = .next t ∧
      (∀ a : Nat, t.mem.read a = if a = addr.toNat then v else s.mem.read a) ∧
      t = { s with mem := t.mem, rsps := ⟨0#8, 0#64⟩ :: s.rsps }) ∧
    (s.cfgValid = false → ∃ t : State, exec (.mWr addr v) s = .next t ∧ Faulted s t 0x34#8 2#8) ∧
    (s.cfgValid = true → 2 ^ s.exp.toNat / 8 ≤ addr.toNat →
      ∃ t : State, exec (.mWr addr v) s = .next t ∧ Faulted s t 0x34#8 6#8)

/-- B_SET twice leaves the array as once, and after B_SET a B_TEST of the same lanes answers 1 (R124 (b), (c)). -/
def Obligations.BSetIsIdempotentAndTestsAsOne : Prop :=
  ∀ s : State, s.cfgValid = true → s.lanesInRange = true → ∃ t u w : State,
    exec .bSet s = .next t ∧ exec .bSet t = .next u ∧ exec .bTest t = .next w ∧
    (∀ a : Nat, u.mem.read a = t.mem.read a) ∧ w.result = true

/-- B_SETs with two sets of lanes commute: from one state with a filter, B_SET with the one lane file and then B_SET with
the other answers both times, and the array after both is the same in either order (R124 (b), R64). -/
def Obligations.BSetsCommute : Prop :=
  ∀ (s : State) (idx idx' : Vector Word 64) (mask mask' : Word), s.cfgValid = true →
    ({ s with idx := idx, laneMask := mask } : State).lanesInRange = true →
    ({ s with idx := idx', laneMask := mask' } : State).lanesInRange = true →
    ∃ t u t' u' : State,
      exec .bSet { s with idx := idx, laneMask := mask } = .next t ∧
      exec .bSet { t with idx := idx', laneMask := mask' } = .next u ∧
      exec .bSet { s with idx := idx', laneMask := mask' } = .next t' ∧
      exec .bSet { t' with idx := idx, laneMask := mask } = .next u' ∧
      ∀ a : Nat, u.mem.read a = u'.mem.read a

/-- B_SET turns no bit from 1 to 0, changes at most as many bits as there are valid lanes, each the bit of a valid lane's
index, and so only bytes that hold one; after B_CLEAR a B_TEST with at least one valid lane answers 0; B_TEST and M_RD
change no bit, also where they fault (R124 (a), (d), (e), (f); (b) and (c) are BSetIsIdempotentAndTestsAsOne and
BSetsCommute). -/
def Obligations.BitArrayPortKeepsOtherBits : Prop :=
  (∀ s : State, s.cfgValid = true → s.lanesInRange = true → ∃ t : State, exec .bSet s = .next t ∧
    (∀ n : Nat, arrayBit s.mem n = true → arrayBit t.mem n = true) ∧
    (∃ ns : List Nat, ns.length ≤ s.validLanes.length ∧
      ∀ n : Nat, arrayBit t.mem n ≠ arrayBit s.mem n →
        n ∈ ns ∧ ∃ j : Lane, s.laneValid j = true ∧ n = (s.idxAt j).toNat) ∧
    (∀ a : Nat, t.mem.read a ≠ s.mem.read a → ∃ j : Lane, s.laneValid j = true ∧ a = byteOf (s.idxAt j))) ∧
  (∀ s : State, StateInv s → s.cfgValid = true → (∃ j : Lane, s.laneValid j = true) → ∃ t u : State,
    exec .bClear s = .next t ∧ exec .bTest t = .next u ∧ u.result = false ∧ u.rsps.head? = some ⟨0#8, 0#64⟩) ∧
  (∀ (s t : State) (addr : Word) (n : Nat), exec .bTest s = .next t ∨ exec (.mRd addr) s = .next t →
    arrayBit t.mem n = arrayBit s.mem n)

/-- No instruction but CFG, NEW, B_CLEAR, CLEAR, M_WR and RESET turns a bit of the array from 1 to 0 (10_state.md
R49 (f)). -/
def Obligations.OnlyClearingCommandsClearBits : Prop :=
  ∀ (i : Instr) (s t : State) (n : Nat), mayClearBits i = false → exec i s = .next t →
    arrayBit s.mem n = true → arrayBit t.mem n = true

/-- The 64-bit word view names the same bit as the byte view: bit x is bit x mod 64 of word x / 64 (20_memory.md R53). -/
def Obligations.WordViewNamesTheSameBit : Prop :=
  ∀ (m : Memory) (n : Nat), arrayBit m n = (m.word (n / 64)).getLsbD (n % 64)

/-- Two memories in canonical form, zeroed to the same address after the same loss, that read alike are equal, and every
operation keeps the form (the model's own form and numbers, log entry 4). -/
def Obligations.CanonicalMemoriesAreEqualData : Prop :=
  (∀ m m' : Memory, m.wf → m'.wf → m.zeroed = m'.zeroed → m.loss = m'.loss → (∀ a : Nat, m.read a = m'.read a) → m = m') ∧
  (∀ (m : Memory) (a n : Nat) (v : Byte) (xs : List Word), m.wf →
    (m.write a v).wf ∧ (Memory.clearBelow n m).wf ∧ (m.setBits xs).wf)

/-! ### Filter commands (43_filter_ops.md) -/

/-- F_ADD with a filter and a digest sets exactly the K probes of DIGEST, loads them into the lanes and keeps flags, digest
and error pair; without a filter it raises `NotConfigured`, else without a digest `Protocol`, with lanes and array
untouched (R136). -/
def Obligations.FAddSetsTheProbes : Prop :=
  (∀ s : State,
     (s.cfgValid = true → s.hphase = .done → ∃ t : State, exec .fAdd s = .next t ∧
       SetsExactly s t (IsProbe s s.digest) ∧
       (∀ j : Lane, t.laneMask.getLsbD j.toNat = (decide (j.toNat < s.params.kMax) && decide (j.toNat < s.k.toNat))) ∧
       (∀ j : Lane, t.laneMask.getLsbD j.toNat = true → (t.idxAt j).toNat =
         (s.digest.toNat / 2 ^ (64 - s.exp.toNat) + j.toNat * (s.digest.toNat % 2 ^ s.exp.toNat)) % 2 ^ s.exp.toNat) ∧
       t = { s with
         mem := t.mem, idx := t.idx, laneMask := t.laneMask, fresh := t.fresh, rsps := ⟨0#8, 0#64⟩ :: s.rsps }) ∧
     (s.cfgValid = false → ∃ t : State, exec .fAdd s = .next t ∧ Faulted s t 0x40#8 2#8) ∧
     (s.cfgValid = true → s.hphase ≠ .done → ∃ t : State, exec .fAdd s = .next t ∧ Faulted s t 0x40#8 3#8)) ∧
  WordsFault 0x40#8 (hasBitOf operandBits)

/-- F_HAS with a filter and a digest: RESULT is 1 exactly when all K probes of DIGEST are set, TESTVEC shows them, the
response data is RESULT, the lanes are as after P_GEN; nothing else changes. Errors as F_ADD (R137). -/
def Obligations.FHasTestsTheProbes : Prop :=
  (∀ s : State,
     (s.cfgValid = true → s.hphase = .done → ∃ t : State, exec .fHas s = .next t ∧
       (t.result = true ↔ ∀ n : Nat, IsProbe s s.digest n → arrayBit s.mem n = true) ∧
       (∀ j : Lane, t.laneMask.getLsbD j.toNat = (decide (j.toNat < s.params.kMax) && decide (j.toNat < s.k.toNat))) ∧
       (∀ j : Lane, t.laneMask.getLsbD j.toNat = true → (t.idxAt j).toNat =
         (s.digest.toNat / 2 ^ (64 - s.exp.toNat) + j.toNat * (s.digest.toNat % 2 ^ s.exp.toNat)) % 2 ^ s.exp.toNat) ∧
       (∀ j : Lane, t.testVec.getLsbD j.toNat =
         (t.laneMask.getLsbD j.toNat && arrayBit s.mem (t.idxAt j).toNat)) ∧
       t = { s with
         testVec := t.testVec, result := t.result, idx := t.idx, laneMask := t.laneMask, fresh := t.fresh
         rsps := ⟨0#8, if t.result then 1#64 else 0#64⟩ :: s.rsps }) ∧
     (s.cfgValid = false → ∃ t : State, exec .fHas s = .next t ∧ Faulted s t 0x41#8 2#8) ∧
     (s.cfgValid = true → s.hphase ≠ .done → ∃ t : State, exec .fHas s = .next t ∧ Faulted s t 0x41#8 3#8)) ∧
  WordsFault 0x41#8 (hasBitOf operandBits)

/-- F_ADD is P_GEN then B_SET, F_HAS is P_GEN then B_TEST: the same state but for the pair's extra response, and the
second command's answer; where they fault they answer as P_GEN does (R138). -/
def Obligations.FilterCommandsAreTheirPairs : Prop :=
  (∀ s : State, s.cfgValid = true → s.hphase = .done →
    (∃ t u : State, exec .fAdd s = .next t ∧ runAll [.pGen, .bSet] s = .next u ∧
      u = { t with rsps := u.rsps } ∧ u.rsps.head? = t.rsps.head?) ∧
    (∃ t u : State, exec .fHas s = .next t ∧ runAll [.pGen, .bTest] s = .next u ∧
      u = { t with rsps := u.rsps } ∧ u.rsps.head? = t.rsps.head?)) ∧
  (∀ (s : State) (i : Instr), i = .fAdd ∨ i = .fHas → s.cfgValid = false ∨ s.hphase ≠ .done →
    ∃ t u : State, exec i s = .next t ∧ exec .pGen s = .next u ∧ u = { t with errop := u.errop })

/-! ### Pseudo-commands and the filter's contract (43_filter_ops.md R140 to R147) -/

/-- The words of a pseudo-command, given by the host one after another, bring the machine to what the pseudo-command's
meaning says, from every state and whatever the host does next. -/
def Obligations.PseudoCommandIsItsWordsStepped : Prop :=
  ∀ (i : Instr) (s : State) (rest : List HostInput), i.isPseudo = true →
    Host.Core.run Sys2Proof.core (encode i).length { s with host := (encode i).map .command ++ rest } =
      exec i { s with host := rest }

/-- ADD of any message with a filter sets exactly the probes of its digest, and never faults; without one the hash runs, the
last response is `NotConfigured`, and the array stays (R140, R147). -/
def Obligations.AddInsertsTheMessage : Prop :=
  ∀ (s : State) (m : List Byte),
    (s.cfgValid = true → ∃ t : State, exec (.add m) s = .next t ∧
      SetsExactly s t (IsProbe s (khmDigest s.params m)) ∧ t.digest = khmDigest s.params m ∧ t.hphase = .done ∧
      (∀ j : Lane, t.laneMask.getLsbD j.toNat = (decide (j.toNat < s.params.kMax) && decide (j.toNat < s.k.toNat))) ∧
      (∀ j : Lane, t.laneMask.getLsbD j.toNat = true → t.idxAt j = probe j.toNat (splitLow (khmDigest s.params m) s.exp)
        (splitHigh (khmDigest s.params m) s.exp) s.exp) ∧
      t = { s with
        v := t.v, len := t.len, digest := t.digest, hphase := t.hphase, mem := t.mem, idx := t.idx
        laneMask := t.laneMask, fresh := t.fresh
        rsps := ⟨0#8, 0#64⟩ :: ⟨0#8, khmDigest s.params m⟩ ::
          (List.replicate (m.length / 8 + 1) ⟨0#8, 0#64⟩ ++ s.rsps) }) ∧
    (s.cfgValid = false → ∃ t : State, exec (.add m) s = .next t ∧ t.mem = s.mem ∧ t.digest = khmDigest s.params m ∧
      t.hphase = .done ∧ t.rsps.head? = some ⟨2#8, 0#64⟩)

/-- HAS of any message with a filter answers 1 exactly when every probe of its digest is set, writes no byte, and never
faults; without one the last response is `NotConfigured` (R141, R147). -/
def Obligations.HasTestsTheMessage : Prop :=
  ∀ (s : State) (m : List Byte),
    (s.cfgValid = true → ∃ t : State, exec (.has m) s = .next t ∧
      (t.result = true ↔ ∀ n : Nat, IsProbe s (khmDigest s.params m) n → arrayBit s.mem n = true) ∧
      t = { s with
        v := t.v, len := t.len, digest := t.digest, hphase := t.hphase, testVec := t.testVec, result := t.result
        idx := t.idx, laneMask := t.laneMask, fresh := t.fresh
        rsps := ⟨0#8, if t.result then 1#64 else 0#64⟩ :: ⟨0#8, khmDigest s.params m⟩ ::
          (List.replicate (m.length / 8 + 1) ⟨0#8, 0#64⟩ ++ s.rsps) }) ∧
    (s.cfgValid = false → ∃ t : State, exec (.has m) s = .next t ∧ t.rsps.head? = some ⟨2#8, 0#64⟩ ∧ t.mem = s.mem)

/-- ADD, HAS and CLEAR with a filter raise no error, for any message: every response they give has code 0, and the error pair
stays (60_exceptions.md R180). -/
def Obligations.FilterOperationsNeverFault : Prop :=
  ∀ (s : State) (m : List Byte) (i : Instr), s.cfgValid = true → i = .add m ∨ i = .has m ∨ i = .clear →
    ∃ (t : State) (rs : List Response), exec i s = .next t ∧ rs ≠ [] ∧ t.rsps = rs ++ s.rsps ∧ (∀ r ∈ rs, r.err = 0#8) ∧
      t.err = s.err ∧ t.errop = s.errop

/-- NO FALSE NEGATIVES: after ADD of a message, whatever instructions follow that end no filter and clear no bit, HAS of the
same message answers 1 (R144 (a)). -/
def Obligations.NoFalseNegatives : Prop :=
  ∀ (s t u : State) (m : List Byte) (is : List Instr), s.cfgValid = true → exec (.add m) s = .next t →
    (∀ i ∈ is, mayClearBits i = false) → runAll is t = .next u →
    ∃ w : State, exec (.has m) u = .next w ∧ w.result = true ∧ w.rsps.head? = some ⟨0#8, 1#64⟩

/-- After CLEAR, HAS answers 0 for every message, and the array reads as after NEW with the same sizing (R142,
R144 (c), (e)). -/
def Obligations.ClearedFilterHoldsNothing : Prop :=
  ∀ (s : State) (m : List Byte), StateInv s → s.cfgValid = true → ∃ t u w : State,
    exec .clear s = .next t ∧ exec (.has m) t = .next u ∧ u.result = false ∧ u.rsps.head? = some ⟨0#8, 0#64⟩ ∧
    exec (.new s.exp s.k) s = .next w ∧ w.mem = t.mem ∧ w.exp = t.exp ∧ w.k = t.k

/-- Two filters of the same sizing given the same entries, in any two orders, hold the same array (R144 (d)). -/
def Obligations.ArrayDependsOnTheEntriesOnly : Prop :=
  ∀ (s s' t t' : State) (e : BitVec 6) (n : BitVec 7) (ms ms' : List (List Byte)),
    s.params = s'.params → 9 ≤ e.toNat → e.toNat ≤ s.params.expMax → 1 ≤ n.toNat →
    n.toNat ≤ s.params.kMax → ms.Perm ms' →
    runAll (.new e n :: ms.map .add) s = .next t → runAll (.new e n :: ms'.map .add) s' = .next t' →
    ∀ a : Nat, a < 2 ^ e.toNat / 8 → t.mem.read a = t'.mem.read a

/-- A filter dumped byte by byte is rebuilt in any other state of the same instance, after a reset or in the middle of
anything: CFG with the dumped sizing and one M_WR per dumped byte that is not zero give a filter of that sizing whose array
reads as the dumped one (70_reset_and_hazards.md R196, 20_memory.md R54, 41_bitset_port.md R122). -/
def Obligations.DumpIsRestored : Prop :=
  ∀ s s' : State, StateInv s → s.cfgValid = true → s'.params = s.params → ∃ t : State,
    runAll (.cfg s.exp s.k ::
      ((List.range (2 ^ s.exp.toNat / 8)).filter (fun a => s.mem.read a ≠ 0#8)).map
        (fun a => Instr.mWr (BitVec.ofNat 64 a) (s.mem.read a))) s' = .next t ∧
    t.cfgValid = true ∧ t.exp = s.exp ∧ t.k = s.k ∧ ∀ a : Nat, a < 2 ^ s.exp.toNat / 8 → t.mem.read a = s.mem.read a

/-! ### The whole machine -/

/-- The reset state of every legal instance meets the invariant, and so does the machine's reset state. What the memory
clauses say at reset is the model's form (log entry 4: MEM has no value there), the registers without a value are log
entry 3's, and State.reset is the standard instance (log entry 1). -/
def Obligations.ResetStateMeetsTheInvariant : Prop :=
  (∀ (p : Params) (n : Nat), p.Legal → StateInv (State.resetOf p n)) ∧ StateInv State.reset

/-- AN INVARIANT EVERY STEP KEEPS: R49 (a), (b), (d), the widths of the masks, the form and extent of the memory, and that
MEM has a value wherever a filter makes it accessible (the form and the numbers that say so are the model's, log entry 4). -/
def Obligations.EveryStepKeepsTheInvariant : Prop :=
  ∀ s t : State, StateInv s → step s = .next t → StateInv t

/-- Every step changes no instance parameter (70_reset_and_hazards.md R198). -/
def Obligations.NoStepChangesTheParameters : Prop :=
  ∀ s t : State, step s = .next t → t.params = s.params

/-- From a state of the invariant every input the host's contract allows is answered by a next state: no command hangs,
stops, or meets the source's undefined index (R27, R56, R210). With no input left the step is the model's idle step (log
entry 2). -/
def Obligations.EveryContractInputCompletes : Prop :=
  ∀ s : State, StateInv s → (∀ x ∈ s.host, x.inContract = true) → ∃ t : State, step s = .next t

/-- NO COMMAND OBSERVES A REGISTER WITHOUT A VALUE: two states of the invariant that differ only in what has no value answer
every step alike, and differ only so afterwards (R47). -/
def Obligations.ValuelessRegistersAreNeverObserved : Prop :=
  ∀ s t : State, StateInv s → StateInv t → SameShown s t → SameOutcome (step s) (step t)

/-! ### The host's sizing (45_host_sizing.md) -/

/-- The single entry point answers every pair of `f64` numbers, and every size it gives is a power of two of at least 512
bits (R168). In explicit mode it covers the wanted bits and, above the floor, exceeds them by less than a factor of two, and
a whole probe count gives one answer. Derived mode gives at least one probe, whatever its arguments (R172). For entry counts
up to `2^1000`, where nothing overflows, it has one answer, and a size covers the formula's number in the same way up to the
error of the `f64` operations; from `2^-900` up, where nothing underflows, the probes are the ceiling of -ln(rate)/ln(2) up
to that error. The arithmetic of `f64`, and at least one probe where it underflows or overflows, are the model's, log entry
13; a `numBits` that is no integer, log entry 16. -/
def Obligations.SizingRoundsUpToAPowerOfTwo : Prop :=
  (∀ first second : F64, (∃ r : HostSize, NewFilter first second r) ∧
    ∀ exp k : Nat, NewFilter first second (.sized exp k) → 9 ≤ exp ∧ (second.lt 1 → 1 ≤ k)) ∧
  (∀ (bits : ℝ) (second : F64) (exp k : Nat), ¬ second.lt 1 → NewFilter (.fin bits) second (.sized exp k) →
    bits ≤ 2 ^ exp ∧ (exp = 9 ∨ (2 : ℝ) ^ exp < 2 * bits)) ∧
  (∀ (bits : ℝ) (m : Nat), 1 ≤ m → ∃! r : HostSize, NewFilter (.fin bits) (.fin m) r) ∧
  (∀ n rate : ℝ, IsBinary64 n → IsBinary64 rate → n ≤ 2 ^ 1000 → rate < 1 →
    (∃! r : HostSize, NewFilter (.fin n) (.fin rate) r) ∧
    ∀ exp k : Nat, NewFilter (.fin n) (.fin rate) (.sized exp k) →
      0 < n ∧ 0 < rate ∧
      -n * Real.log rate / Real.log 2 ^ 2 * (1 - 1 / 2 ^ 49) ≤ 2 ^ exp ∧
      (exp = 9 ∨ (2 : ℝ) ^ exp < 2 * (-n * Real.log rate / Real.log 2 ^ 2 * (1 + 1 / 2 ^ 49))) ∧
      ((2 : ℝ) ^ (-900 : ℤ) ≤ n →
        -Real.log rate / Real.log 2 * (1 - 1 / 2 ^ 49) ≤ k ∧
        (k : ℝ) < -Real.log rate / Real.log 2 * (1 + 1 / 2 ^ 49) + 1))

/-- The source's recurring example: (65536, 0.01), with 0.01 rounded to `f64`, is derived mode and gives exp = 20, k = 7 and
nothing else, so the host issues CFG 20, 7, whose word is 02 07 0000000000000014 (R171; the arithmetic of `f64` is the
model's, log entry 13). -/
def Obligations.SizingOfTheRecurringExample : Prop :=
  (∀ (rate : F64) (r : HostSize), RoundsTo 0.01 rate → (NewFilter (.fin 65536) rate r ↔ r = .sized 20 7)) ∧
  sizeCommand (.sized 20 7) = some (.cfg 20#6 7#7) ∧ encode (.cfg 20#6 7#7) = [0x02070000000000000014#80]

/-- The spec's other pairs, each rate rounded to `f64`: (1000, 0.01) gives exp 14, k 7 and nothing else, (1000000, 0.001)
24, 10, (1, 0.5) 9, 1, (10, 0.999) 9, 1, (100, 0.25) 9, 2; in explicit mode (65536, 7) gives 16, 7, (1000, 3) 10, 3, (100, 1)
9, 1 (R171, 95_test_vectors.md section 7; the arithmetic of `f64` is the model's, log entry 13). -/
def Obligations.SizingOfTheWorkedExamples : Prop :=
  (∀ (rate : F64) (r : HostSize), RoundsTo 0.01 rate → (NewFilter (.fin 1000) rate r ↔ r = .sized 14 7)) ∧
  (∀ (rate : F64) (r : HostSize), RoundsTo 0.001 rate → (NewFilter (.fin 1000000) rate r ↔ r = .sized 24 10)) ∧
  (∀ (rate : F64) (r : HostSize), RoundsTo 0.5 rate → (NewFilter (.fin 1) rate r ↔ r = .sized 9 1)) ∧
  (∀ (rate : F64) (r : HostSize), RoundsTo 0.999 rate → (NewFilter (.fin 10) rate r ↔ r = .sized 9 1)) ∧
  (∀ (rate : F64) (r : HostSize), RoundsTo 0.25 rate → (NewFilter (.fin 100) rate r ↔ r = .sized 9 2)) ∧
  (∀ r : HostSize, (NewFilter (.fin 65536) (.fin 7) r ↔ r = .sized 16 7) ∧
    (NewFilter (.fin 1000) (.fin 3) r ↔ r = .sized 10 3) ∧ (NewFilter (.fin 100) (.fin 1) r ↔ r = .sized 9 1))

/-- The host raises `InvalidConfiguration` exactly in derived mode for an entry count or a rate at or below zero, gives no
size there, and issues no command; explicit mode never raises it (R169, R166). Three cases of this are the model's: not a
number is not at or below zero, so such an entry count does not raise (log entry 13), an entry count of plus infinity does
not raise either (log entry 13), and explicit mode does not refuse arguments that are no integers (log entry 16). -/
def Obligations.SizingFailsOutOfRange : Prop :=
  (∀ first second : F64,
    NewFilter first second .invalidConfiguration ↔ second.lt 1 ∧ (first.le 0 ∨ second.le 0)) ∧
  (∀ (first second : F64) (r : HostSize), second.lt 1 → first.le 0 ∨ second.le 0 → NewFilter first second r →
    r = .invalidConfiguration) ∧
  sizeCommand .invalidConfiguration = none
end

