-- ==== Sys2Proof/Laws/Decode.lean ====
section
/-! SUPPORT. The decoder and the command word: fields of a built word, what the decoder can answer. -/

namespace Sys2Proof

theorem cmdOp_cmdWord (op a : Byte) (d : Word) : cmdOp (cmdWord op a d) = op := by
  unfold cmdOp cmdWord
  apply BitVec.eq_of_getLsbD_eq
  intro i hi
  rw [BitVec.getLsbD_extractLsb', BitVec.getLsbD_append, BitVec.getLsbD_append]
  simp [hi, show ¬ 72 + i < 64 by omega, show ¬ 72 + i - 64 < 8 by omega, show 72 + i - 64 - 8 = i by omega]

theorem cmdA_cmdWord (op a : Byte) (d : Word) : cmdA (cmdWord op a d) = a := by
  unfold cmdA cmdWord
  apply BitVec.eq_of_getLsbD_eq
  intro i hi
  rw [BitVec.getLsbD_extractLsb', BitVec.getLsbD_append, BitVec.getLsbD_append]
  simp [hi]

theorem cmdD_cmdWord (op a : Byte) (d : Word) : cmdD (cmdWord op a d) = d := by
  unfold cmdD cmdWord
  apply BitVec.eq_of_getLsbD_eq
  intro i hi
  rw [BitVec.getLsbD_extractLsb', BitVec.getLsbD_append]
  simp [hi]

/-- A command word is its three fields (30_encoding.md R70). -/
theorem cmdWord_fields (w : Cmd) : cmdWord (cmdOp w) (cmdA w) (cmdD w) = w := by
  unfold cmdOp cmdA cmdD cmdWord
  apply BitVec.eq_of_getLsbD_eq
  intro i hi
  rw [BitVec.getLsbD_append, BitVec.getLsbD_append]
  simp only [BitVec.getLsbD_extractLsb']
  by_cases h1 : i < 64
  · simp [h1]
  · by_cases h2 : i - 64 < 8
    · simp [h1, h2, show 64 + (i - 64) = i by omega]
    · simp [h1, h2, show 72 + (i - 64 - 8) = i by omega, show i - 64 - 8 < 8 by omega]

/-- Decoding the word of three fields is decoding the fields. -/
theorem decode_cmdWord (p : Params) (op a : Byte) (d : Word) : decode p (cmdWord op a d) = decodeFields p op a d := by
  rw [decode, cmdOp_cmdWord, cmdA_cmdWord, cmdD_cmdWord]

theorem decodePlain_ok (a : Byte) (d : Word) (i i' : Instr) (h : decodePlain a d i = .ok i') :
    a = 0#8 ∧ d = 0#64 ∧ i' = i := by
  unfold decodePlain at h; split at h
  · next h' => cases h; exact ⟨h'.1, h'.2, rfl⟩
  · cases h

theorem decodeLong_ok (a : Byte) (i i' : Instr) (h : decodeLong a i = .ok i') : a = 0#8 ∧ i' = i := by
  unfold decodeLong at h; split at h
  · next h' => cases h; exact ⟨h', rfl⟩
  · cases h

theorem decodeCfg_ok (a : Byte) (d : Word) (i : Instr) (h : decodeCfg a d = .ok i) :
    a.extractLsb' 7 1 = 0#1 ∧ d.extractLsb' 6 58 = 0#58 ∧ i = .cfg (d.extractLsb' 0 6) (a.extractLsb' 0 7) := by
  unfold decodeCfg at h; split at h
  · next h' => cases h; exact ⟨h'.1, h'.2, rfl⟩
  · cases h

theorem decodeCsrRd_ok (p : Params) (a : Byte) (d : Word) (i : Instr) (h : decodeCsrRd p a d = .ok i) :
    ∃ c : Csr, csrOfNumber a = some c ∧ csrExists p c = true ∧ d = 0#64 ∧ i = .csrRd c := by
  unfold decodeCsrRd at h; split at h
  · next hd =>
    split at h
    · next c hc =>
      split at h
      · next hx => cases h; exact ⟨c, hc, hx, hd, rfl⟩
      · cases h
    · cases h
  · cases h

theorem decodeHFinal_ok (a : Byte) (d : Word) (i : Instr) (h : decodeHFinal a d = .ok i) :
    a.extractLsb' 3 5 = 0#5 ∧ tailFits (a.extractLsb' 0 3) d = true ∧ i = .hFinal (a.extractLsb' 0 3) d := by
  unfold decodeHFinal at h; split at h
  · next h1 =>
    split at h
    · next h2 => cases h; exact ⟨h1, h2, rfl⟩
    · cases h
  · cases h

theorem decodeIdxWr_ok (p : Params) (a : Byte) (d : Word) (i : Instr) (h : decodeIdxWr p a d = .ok i) :
    a.extractLsb' 6 2 = 0#2 ∧ laneExists p (a.extractLsb' 0 6) = true ∧ i = .idxWr (a.extractLsb' 0 6) d := by
  unfold decodeIdxWr at h; split at h
  · next h1 =>
    split at h
    · next h2 => cases h; exact ⟨h1, h2, rfl⟩
    · cases h
  · cases h

/-- `DecodesTo p op a d i`: the fields are those of command `i`, row by row of R73 and R75. -/
inductive DecodesTo (p : Params) : Byte → Byte → Word → Instr → Prop where
  | nop : DecodesTo p opNop 0#8 0#64 .nop
  | reset : DecodesTo p opReset 0#8 0#64 .reset
  | cfg (a : Byte) (d : Word) (h : a.extractLsb' 7 1 = 0#1) (h' : d.extractLsb' 6 58 = 0#58) :
      DecodesTo p opCfg a d (.cfg (d.extractLsb' 0 6) (a.extractLsb' 0 7))
  | csrRd (a : Byte) (c : Csr) (h : csrOfNumber a = some c) (h' : csrExists p c = true) :
      DecodesTo p opCsrRd a 0#64 (.csrRd c)
  | errClr : DecodesTo p opErrClr 0#8 0#64 .errClr
  | hInit : DecodesTo p opHInit 0#8 0#64 .hInit
  | hAbsorb (d : Word) : DecodesTo p opHAbsorb 0#8 d (.hAbsorb d)
  | hFinal (a : Byte) (d : Word) (h : a.extractLsb' 3 5 = 0#5) (h' : tailFits (a.extractLsb' 0 3) d = true) :
      DecodesTo p opHFinal a d (.hFinal (a.extractLsb' 0 3) d)
  | pGen : DecodesTo p opPGen 0#8 0#64 .pGen
  | idxWr (a : Byte) (d : Word) (h : a.extractLsb' 6 2 = 0#2) (h' : laneExists p (a.extractLsb' 0 6) = true) :
      DecodesTo p opIdxWr a d (.idxWr (a.extractLsb' 0 6) d)
  | idxClr : DecodesTo p opIdxClr 0#8 0#64 .idxClr
  | bSet : DecodesTo p opBSet 0#8 0#64 .bSet
  | bTest : DecodesTo p opBTest 0#8 0#64 .bTest
  | bClear : DecodesTo p opBClear 0#8 0#64 .bClear
  | mRd (d : Word) : DecodesTo p opMRd 0#8 d (.mRd d)
  | mWr (a : Byte) (d : Word) : DecodesTo p opMWr a d (.mWr d a)
  | fAdd : DecodesTo p opFAdd 0#8 0#64 .fAdd
  | fHas : DecodesTo p opFHas 0#8 0#64 .fHas

/-- Everything the decoder can accept. -/
theorem decodeFields_ok (p : Params) (op a : Byte) (d : Word) (i : Instr) (h : decodeFields p op a d = .ok i) :
    DecodesTo p op a d i := by
  unfold decodeFields at h
  by_cases e : op = opNop
  · rw [if_pos e] at h; subst e; obtain ⟨rfl, rfl, rfl⟩ := decodePlain_ok _ _ _ _ h; exact .nop
  rw [if_neg e] at h; clear e
  by_cases e : op = opReset
  · rw [if_pos e] at h; subst e; obtain ⟨rfl, rfl, rfl⟩ := decodePlain_ok _ _ _ _ h; exact .reset
  rw [if_neg e] at h; clear e
  by_cases e : op = opCfg
  · rw [if_pos e] at h; subst e; obtain ⟨h1, h2, rfl⟩ := decodeCfg_ok _ _ _ h; exact .cfg a d h1 h2
  rw [if_neg e] at h; clear e
  by_cases e : op = opCsrRd
  · rw [if_pos e] at h; subst e; obtain ⟨c, h1, h2, rfl, rfl⟩ := decodeCsrRd_ok _ _ _ _ h; exact .csrRd a c h1 h2
  rw [if_neg e] at h; clear e
  by_cases e : op = opErrClr
  · rw [if_pos e] at h; subst e; obtain ⟨rfl, rfl, rfl⟩ := decodePlain_ok _ _ _ _ h; exact .errClr
  rw [if_neg e] at h; clear e
  by_cases e : op = opHInit
  · rw [if_pos e] at h; subst e; obtain ⟨rfl, rfl, rfl⟩ := decodePlain_ok _ _ _ _ h; exact .hInit
  rw [if_neg e] at h; clear e
  by_cases e : op = opHAbsorb
  · rw [if_pos e] at h; subst e; obtain ⟨rfl, rfl⟩ := decodeLong_ok _ _ _ h; exact .hAbsorb d
  rw [if_neg e] at h; clear e
  by_cases e : op = opHFinal
  · rw [if_pos e] at h; subst e; obtain ⟨h1, h2, rfl⟩ := decodeHFinal_ok _ _ _ h; exact .hFinal a d h1 h2
  rw [if_neg e] at h; clear e
  by_cases e : op = opPGen
  · rw [if_pos e] at h; subst e; obtain ⟨rfl, rfl, rfl⟩ := decodePlain_ok _ _ _ _ h; exact .pGen
  rw [if_neg e] at h; clear e
  by_cases e : op = opIdxWr
  · rw [if_pos e] at h; subst e; obtain ⟨h1, h2, rfl⟩ := decodeIdxWr_ok _ _ _ _ h; exact .idxWr a d h1 h2
  rw [if_neg e] at h; clear e
  by_cases e : op = opIdxClr
  · rw [if_pos e] at h; subst e; obtain ⟨rfl, rfl, rfl⟩ := decodePlain_ok _ _ _ _ h; exact .idxClr
  rw [if_neg e] at h; clear e
  by_cases e : op = opBSet
  · rw [if_pos e] at h; subst e; obtain ⟨rfl, rfl, rfl⟩ := decodePlain_ok _ _ _ _ h; exact .bSet
  rw [if_neg e] at h; clear e
  by_cases e : op = opBTest
  · rw [if_pos e] at h; subst e; obtain ⟨rfl, rfl, rfl⟩ := decodePlain_ok _ _ _ _ h; exact .bTest
  rw [if_neg e] at h; clear e
  by_cases e : op = opBClear
  · rw [if_pos e] at h; subst e; obtain ⟨rfl, rfl, rfl⟩ := decodePlain_ok _ _ _ _ h; exact .bClear
  rw [if_neg e] at h; clear e
  by_cases e : op = opMRd
  · rw [if_pos e] at h; subst e; obtain ⟨rfl, rfl⟩ := decodeLong_ok _ _ _ h; exact .mRd d
  rw [if_neg e] at h; clear e
  by_cases e : op = opMWr
  · rw [if_pos e] at h; subst e; cases h; exact .mWr a d
  rw [if_neg e] at h; clear e
  by_cases e : op = opFAdd
  · rw [if_pos e] at h; subst e; obtain ⟨rfl, rfl, rfl⟩ := decodePlain_ok _ _ _ _ h; exact .fAdd
  rw [if_neg e] at h; clear e
  by_cases e : op = opFHas
  · rw [if_pos e] at h; subst e; obtain ⟨rfl, rfl, rfl⟩ := decodePlain_ok _ _ _ _ h; exact .fHas
  rw [if_neg e] at h; clear e
  cases h

/-- No word decodes to a pseudo-command (R89). -/
theorem decode_isPseudo (p : Params) (w : Cmd) (i : Instr) (h : decode p w = .ok i) : i.isPseudo = false := by
  unfold decode at h
  generalize cmdOp w = op, cmdA w = a, cmdD w = d at h
  cases decodeFields_ok p op a d i h <;> rfl

/-! ### Operand fields -/

/-- `d[63:8n] = 0` is `d < 256^n` (30_encoding.md R74). -/
theorem tailFits_iff (n : BitVec 3) (d : Word) : tailFits n d = true ↔ d.toNat < 2 ^ (8 * n.toNat) := by
  have hpos : 0 < 2 ^ (8 * n.toNat) := Nat.two_pow_pos _
  simp only [tailFits]
  simp only [beq_iff_eq]
  rw [← BitVec.toNat_inj, BitVec.toNat_ushiftRight, Nat.shiftRight_eq_div_pow]
  simp

/-- A CSR's number names it. -/
theorem csrOfNumber_csrNumber (c : Csr) : csrOfNumber (csrNumber c) = some c := by
  cases c with
  | idx j => revert j; decide
  | _ => decide

theorem csrNumber_of_csrOfNumber (n : Byte) (c : Csr) (h : csrOfNumber n = some c) : csrNumber c = n := by
  have : ∀ n : Byte, ∀ c, csrOfNumber n = some c → csrNumber c = n := by
    intro n
    have : ∀ n : Byte, (csrOfNumber n).all (fun c => csrNumber c == n) = true := by decide
    intro c hc; have := this n; rw [hc] at this; simpa using this
  exact this n c h

theorem setWidth_of_bit7_zero (a : Byte) (h : a.extractLsb' 7 1 = 0#1) : (a.extractLsb' 0 7).setWidth 8 = a := by revert a; decide
theorem setWidth_of_high5_zero (a : Byte) (h : a.extractLsb' 3 5 = 0#5) : (a.extractLsb' 0 3).setWidth 8 = a := by revert a; decide
theorem setWidth_of_high2_zero (a : Byte) (h : a.extractLsb' 6 2 = 0#2) : (a.extractLsb' 0 6).setWidth 8 = a := by revert a; decide
theorem setWidth_of_high58_zero (d : Word) (h : d.extractLsb' 6 58 = 0#58) : (d.extractLsb' 0 6).setWidth 64 = d := by
  apply BitVec.eq_of_getLsbD_eq
  intro i hi
  rw [BitVec.getLsbD_setWidth, BitVec.getLsbD_extractLsb']
  by_cases h6 : i < 6
  · simp [h6, hi]
  · have := congrArg (fun x => x.getLsbD (i-6)) h
    simp only [BitVec.getLsbD_extractLsb'] at this
    simp [show i - 6 < 58 by omega, show 6 + (i - 6) = i by omega] at this
    simp [h6, this]


end Sys2Proof
end

