-- ==== Sys2Proof/Laws/Lanes.lean ====
section
/-! SUPPORT. Lanes: the file of indices, masks bit by bit, the list of valid lanes. -/

namespace Sys2Proof

theorem mem_allLanes (j : Lane) : j ∈ allLanes := by
  refine List.mem_map.mpr ⟨j.toNat, List.mem_range.mpr j.isLt, ?_⟩
  exact BitVec.eq_of_toNat_eq (by simp)

/-- Lane `j` of a file holds what the file's function gives. -/
theorem laneFile_get (f : Lane → Word) (j : Lane) : (laneFile f)[j.toNat]'(j.isLt) = f j := by
  simp [laneFile, allLanes]

namespace Machine

theorem laneBits_fold (f : Lane → Bool) (ls : List Lane) (w : Word) (j : Lane) :
    (ls.foldl (fun w j => w ||| (if f j then 1#64 <<< j.toNat else 0#64)) w).getLsbD j.toNat =
      (w.getLsbD j.toNat || (decide (j ∈ ls) && f j)) := by
  induction ls generalizing w with
  | nil => simp
  | cons l ls ih =>
    rw [List.foldl_cons, ih, BitVec.getLsbD_or]
    have hbit : (if f l then 1#64 <<< l.toNat else 0#64).getLsbD j.toNat = (decide (j = l) && f l) := by
      by_cases hjl : j = l
      · subst hjl; cases h : f j <;> simp [j.isLt]
      · have hne : j.toNat ≠ l.toNat := fun h => hjl (BitVec.eq_of_toNat_eq h)
        cases h : f l
        · simp
        · simp only [if_true, BitVec.getLsbD_shiftLeft, hjl, decide_false, Bool.false_and]
          by_cases hlt : j.toNat < l.toNat
          · simp [hlt]
          · have : j.toNat - l.toNat ≠ 0 := by omega
            simp [hlt, this]
    rw [hbit]
    by_cases hjl : j = l
    · subst hjl; cases f j <;> simp
    · simp [hjl]

/-- Bit `j` of a lane mask is what its function gives. -/
theorem getLsbD_laneBits (f : Lane → Bool) (j : Lane) : (laneBits f).getLsbD j.toNat = f j := by
  rw [laneBits, laneBits_fold]; simp [mem_allLanes]

/-- A 64-bit mask is decided by its 64 bits. -/
theorem mask_ext (v w : Word) (h : ∀ j : Lane, v.getLsbD j.toNat = w.getLsbD j.toNat) : v = w := by
  refine BitVec.eq_of_getLsbD_eq (fun i hi => ?_)
  have := h (BitVec.ofNat 6 i)
  simpa [Nat.mod_eq_of_lt hi] using this

theorem mem_validLanes (s : State) (j : Lane) : j ∈ s.validLanes ↔ s.laneValid j = true := by
  simp [State.validLanes, mem_allLanes]

theorem laneValid_iff (s : State) (j : Lane) :
    s.laneValid j = true ↔ j.toNat < s.params.kMax ∧ s.laneMask.getLsbD j.toNat = true := by
  simp [State.laneValid, laneExists]

theorem lanesInRange_iff (s : State) :
    s.lanesInRange = true ↔ ∀ j : Lane, s.laneValid j = true → (s.idxAt j).toNat < 2 ^ s.exp.toNat := by
  rw [State.lanesInRange, List.all_eq_true]
  exact forall_congr' fun j => by rw [mem_validLanes, decide_eq_true_iff, State.bitCount]

theorem testedAll_iff (s : State) :
    s.testedAll = true ↔ ∀ j : Lane, s.laneValid j = true → s.laneBit j = true := by
  simp [State.testedAll, mem_validLanes]

/-! ### The lane operations -/

theorem idxAt_dropLanes (s : State) (j : Lane) :
    s.dropLanes.idxAt j = Config.noValue s.fresh (Config.slotIdx j) := laneFile_get _ j

theorem laneValid_dropLanes (s : State) (j : Lane) : s.dropLanes.laneValid j = false := by
  simp [State.laneValid, State.dropLanes]

theorem getLsbD_loadLanes (s : State) (n : Nat) (f : Lane → Word) (j : Lane) :
    (s.loadLanes n f).laneMask.getLsbD j.toNat = (decide (j.toNat < s.params.kMax) && decide (j.toNat < n)) := by
  unfold State.loadLanes
  simp only [getLsbD_laneBits, laneExists]

theorem laneValid_loadLanes (s : State) (n : Nat) (f : Lane → Word) (j : Lane) :
    (s.loadLanes n f).laneValid j = (decide (j.toNat < s.params.kMax) && decide (j.toNat < n)) := by
  rw [State.laneValid, getLsbD_loadLanes]
  simp [State.loadLanes, laneExists]

theorem idxAt_loadLanes (s : State) (n : Nat) (f : Lane → Word) (j : Lane) :
    (s.loadLanes n f).idxAt j =
      if laneExists s.params j && decide (j.toNat < n) then f j else Config.noValue s.fresh (Config.slotIdx j) :=
  laneFile_get _ j

theorem idxAt_writeLane (s : State) (j l : Lane) (x : Word) :
    (s.writeLane j x).idxAt l = if j = l then x else s.idxAt l := by
  unfold State.idxAt State.writeLane
  by_cases h : j = l
  · subst h; simp
  · have hne : j.toNat ≠ l.toNat := fun h' => h (BitVec.eq_of_toNat_eq h')
    simp [h, Vector.getElem_set_ne, hne]

theorem getLsbD_writeLane (s : State) (j l : Lane) (x : Word) :
    (s.writeLane j x).laneMask.getLsbD l.toNat = (s.laneMask.getLsbD l.toNat || decide (l = j)) := by
  have hbit : (1#64 <<< j.toNat).getLsbD l.toNat = decide (l = j) := by
    by_cases h : l = j
    · subst h; simp [l.isLt]
    · have hne : l.toNat ≠ j.toNat := fun h' => h (BitVec.eq_of_toNat_eq h')
      rw [BitVec.getLsbD_shiftLeft]
      by_cases hlt : l.toNat < j.toNat
      · simp [hlt, h]
      · have : l.toNat - j.toNat ≠ 0 := by omega
        simp [hlt, this, h]
  simp only [State.writeLane, BitVec.getLsbD_or, hbit]

end Machine

end Sys2Proof
end

