-- ==== Sys2Proof/Laws/Memory.lean ====
section
/-! SUPPORT. The memory operations: what a read sees after each, and that each keeps the canonical form. -/

namespace Sys2Proof.Machine

/-! ### Reads -/

theorem Memory.read_of_listed (m : Memory) (a : Nat) (v : Byte) (h : listedByte m.cells a = some v) : m.read a = v := by
  simp [Memory.read, h]

theorem Memory.read_of_not_listed (m : Memory) (a : Nat) (h : listedByte m.cells a = none) : m.read a = m.unlisted a := by
  simp [Memory.read, h]

/-- Everything the lookup can answer: a cell of the list, or that none has the address. -/
theorem listedByte_cases (cs : List Host.Cell) (a : Nat) :
    (∃ c ∈ cs, c.1 = a ∧ listedByte cs a = some c.2) ∨ ((∀ c ∈ cs, c.1 ≠ a) ∧ listedByte cs a = none) := by
  induction cs with
  | nil => simp [listedByte]
  | cons c cs ih =>
    by_cases hca : c.1 = a
    · exact .inl ⟨c, by simp, hca, by simp [listedByte, hca]⟩
    · rw [show listedByte (c :: cs) a = listedByte cs a by simp [listedByte, hca]]
      rcases ih with ⟨c', hm, h⟩ | ⟨h, hn⟩
      · exact .inl ⟨c', by simp [hm], h⟩
      · exact .inr ⟨by simpa [hca] using h, hn⟩

/-- A filter by address hides the addresses it drops and no other. -/
theorem listedByte_filter (p : Nat → Bool) (cs : List Host.Cell) (a : Nat) :
    listedByte (cs.filter (fun c => p c.1)) a = if p a then listedByte cs a else none := by
  induction cs with
  | nil => simp [listedByte]
  | cons c cs ih =>
    by_cases hc : p c.1
    · rw [List.filter_cons_of_pos (p := fun c : Host.Cell => p c.1) hc, listedByte, listedByte, ih]
      by_cases hca : c.1 = a
      · subst hca; simp [hc]
      · simp [hca]
    · rw [List.filter_cons_of_neg (p := fun c : Host.Cell => p c.1) hc, ih, listedByte]
      by_cases hca : c.1 = a
      · subst hca; simp [hc]
      · simp [hca]

/-- Inserting a cell at an address the list does not hold changes that address alone. -/
theorem listedByte_insertCell (c : Host.Cell) (cs : List Host.Cell) (a : Nat) (h : ∀ c' ∈ cs, c'.1 ≠ c.1) :
    listedByte (insertCell c cs) a = if c.1 = a then some c.2 else listedByte cs a := by
  induction cs with
  | nil => simp [insertCell, listedByte]
  | cons c' cs ih =>
    have hne : c'.1 ≠ c.1 := h c' (by simp)
    unfold insertCell
    split
    · rw [listedByte]
    · rw [listedByte, listedByte, ih (fun c'' h'' => h c'' (by simp [h'']))]
      by_cases h1 : c'.1 = a
      · subst h1; simp [Ne.symm hne]
      · simp [h1]

theorem mem_filter_ne (cs : List Host.Cell) (a : Nat) : ∀ c ∈ cs.filter (fun c => c.1 != a), c.1 ≠ a := by
  intro c hc
  simpa using (List.mem_filter.mp hc).2

@[simp] theorem Memory.write_zeroed (m : Memory) (a : Nat) (v : Byte) : (m.write a v).zeroed = m.zeroed := rfl
@[simp] theorem Memory.write_loss (m : Memory) (a : Nat) (v : Byte) : (m.write a v).loss = m.loss := rfl
@[simp] theorem Memory.unlisted_write (m : Memory) (a : Nat) (v : Byte) : (m.write a v).unlisted = m.unlisted := rfl
@[simp] theorem Memory.clearBelow_zeroed (n : Nat) (m : Memory) : (Memory.clearBelow n m).zeroed = max m.zeroed n := rfl
@[simp] theorem Memory.clearBelow_loss (n : Nat) (m : Memory) : (Memory.clearBelow n m).loss = m.loss := rfl
@[simp] theorem Memory.lost_cells (n : Nat) : (Memory.lost n).cells = [] := rfl
@[simp] theorem Memory.lost_zeroed (n : Nat) : (Memory.lost n).zeroed = 0 := rfl

/-- What an unlisted byte reads after clearing: 0x00 below, as before above. -/
theorem Memory.unlisted_clearBelow (n : Nat) (m : Memory) (a : Nat) :
    (Memory.clearBelow n m).unlisted a = if a < n then 0#8 else m.unlisted a := by
  by_cases h : a < n
  · simp [Memory.unlisted, h]
  · simp [Memory.unlisted, h]

/-- A write changes the byte it writes and no other, whatever the memory's form. -/
theorem Memory.read_write (m : Memory) (a : Nat) (v : Byte) (b : Nat) :
    (m.write a v).read b = if a = b then v else m.read b := by
  have hf := listedByte_filter (fun x => x != a) m.cells b
  unfold Memory.read
  rw [Memory.unlisted_write]
  unfold Memory.write
  by_cases hv : v = m.unlisted a
  · rw [if_pos hv, hf]
    by_cases hab : a = b
    · subst hab; simp [hv]
    · simp [hab, Ne.symm hab]
  · rw [if_neg hv, listedByte_insertCell _ _ _ (mem_filter_ne m.cells a), hf]
    by_cases hab : a = b
    · subst hab; simp
    · simp [hab, Ne.symm hab]

/-- The cleared bytes read 0x00, the others as before. -/
theorem Memory.read_clearBelow (n : Nat) (m : Memory) (a : Nat) :
    (Memory.clearBelow n m).read a = if a < n then 0#8 else m.read a := by
  have hf := listedByte_filter (fun x => decide (n ≤ x)) m.cells a
  unfold Memory.read
  rw [Memory.unlisted_clearBelow, show (Memory.clearBelow n m).cells = m.cells.filter (fun c => decide (n ≤ c.1)) from rfl,
    hf]
  by_cases h : a < n
  · simp [h, Nat.not_le.mpr h]
  · simp [h, Nat.le_of_not_lt h]

/-! ### The canonical form -/

theorem Memory.wf_lost (n : Nat) : (Memory.lost n).wf := by simp [Memory.wf]

theorem mem_insertCell (c c' : Host.Cell) (cs : List Host.Cell) : c' ∈ insertCell c cs ↔ c' = c ∨ c' ∈ cs := by
  induction cs with
  | nil => simp [insertCell]
  | cons d cs ih =>
    unfold insertCell
    split
    · simp
    · simp only [List.mem_cons, ih]; tauto

/-- Inserting a cell at an address the list does not hold keeps the addresses rising. -/
theorem pairwise_insertCell (c : Host.Cell) (cs : List Host.Cell) (hs : cs.Pairwise (fun c c' => c.1 < c'.1))
    (hn : ∀ c' ∈ cs, c'.1 ≠ c.1) : (insertCell c cs).Pairwise (fun c c' => c.1 < c'.1) := by
  induction cs with
  | nil => simp [insertCell]
  | cons d cs ih =>
    have hd := List.pairwise_cons.mp hs
    unfold insertCell
    split
    · next hlt =>
      refine List.pairwise_cons.mpr ⟨fun e he => ?_, hs⟩
      rcases List.mem_cons.mp he with rfl | he
      · exact hlt
      · exact Nat.lt_trans hlt (hd.1 e he)
    · next hlt =>
      have hne : d.1 ≠ c.1 := hn d (by simp)
      refine List.pairwise_cons.mpr ⟨fun e he => ?_, ih hd.2 (fun e he => hn e (by simp [he]))⟩
      rcases (mem_insertCell c e cs).mp he with rfl | he
      · omega
      · exact hd.1 e he

/-- Every cell after a write is the written one or an old one at another address. -/
theorem Memory.mem_write_cells (m : Memory) (a : Nat) (v : Byte) (c : Host.Cell) (h : c ∈ (m.write a v).cells) :
    (c = (a, v) ∧ v ≠ m.unlisted a) ∨ (c ∈ m.cells ∧ c.1 ≠ a) := by
  have hold : c ∈ m.cells.filter (fun c => c.1 != a) → c ∈ m.cells ∧ c.1 ≠ a :=
    fun h => ⟨(List.mem_filter.mp h).1, mem_filter_ne m.cells a c h⟩
  unfold Memory.write at h
  by_cases hv : v = m.unlisted a
  · exact .inr (hold (by simpa [hv] using h))
  · rcases (mem_insertCell _ _ _).mp (by simpa [hv] using h) with rfl | h
    · exact .inl ⟨rfl, hv⟩
    · exact .inr (hold h)

theorem Memory.wf_write (m : Memory) (a : Nat) (v : Byte) (h : m.wf) : (m.write a v).wf := by
  refine ⟨?_, fun c hc => ?_⟩
  · have hf : (m.cells.filter (fun c => c.1 != a)).Pairwise (fun c c' => c.1 < c'.1) := h.1.sublist List.filter_sublist
    unfold Memory.write
    by_cases hv : v = m.unlisted a
    · simpa [hv] using hf
    · simpa [hv] using pairwise_insertCell (a, v) _ hf (mem_filter_ne m.cells a)
  · rw [Memory.unlisted_write]
    rcases Memory.mem_write_cells m a v c hc with ⟨rfl, hv⟩ | ⟨hm, -⟩
    · exact hv
    · exact h.2 c hm

/-- The cells that clearing keeps. -/
theorem Memory.mem_clearBelow_cells (n : Nat) (m : Memory) (c : Host.Cell) :
    c ∈ (Memory.clearBelow n m).cells ↔ c ∈ m.cells ∧ n ≤ c.1 := by
  simp [Memory.clearBelow]

theorem Memory.wf_clearBelow (n : Nat) (m : Memory) (h : m.wf) : (Memory.clearBelow n m).wf := by
  refine ⟨h.1.sublist List.filter_sublist, fun c hc => ?_⟩
  have hm := (Memory.mem_clearBelow_cells n m c).mp hc
  rw [Memory.unlisted_clearBelow, if_neg (Nat.not_lt.mpr hm.2)]
  exact h.2 c hm.1

theorem Memory.wf_setBit (m : Memory) (x : Word) (h : m.wf) : (m.setBit x).wf := Memory.wf_write m _ _ h

theorem Memory.wf_setBits (xs : List Word) (m : Memory) (h : m.wf) : (m.setBits xs).wf := by
  induction xs generalizing m with
  | nil => exact h
  | cons x xs ih => exact ih (m.setBit x) (Memory.wf_setBit m x h)

/-- A cell of a rising list is the one its address finds. -/
theorem listedByte_of_mem (cs : List Host.Cell) (h : cs.Pairwise (fun c c' => c.1 < c'.1)) (c : Host.Cell) (hc : c ∈ cs) :
    listedByte cs c.1 = some c.2 := by
  induction cs with
  | nil => simp at hc
  | cons d cs ih =>
    have hd := List.pairwise_cons.mp h
    rw [listedByte]
    rcases List.mem_cons.mp hc with rfl | hm
    · simp
    · rw [if_neg (Nat.ne_of_lt (hd.1 c hm)), ih hd.2 hm]

/-- A listed address reads the byte listed with it. -/
theorem Memory.read_of_mem (m : Memory) (h : m.wf) (c : Host.Cell) (hc : c ∈ m.cells) : m.read c.1 = c.2 :=
  Memory.read_of_listed m _ _ (listedByte_of_mem m.cells h.1 c hc)

@[simp] theorem Memory.setBit_zeroed (m : Memory) (x : Word) : (m.setBit x).zeroed = m.zeroed := rfl
@[simp] theorem Memory.setBit_loss (m : Memory) (x : Word) : (m.setBit x).loss = m.loss := rfl

@[simp] theorem Memory.setBits_zeroed (xs : List Word) (m : Memory) : (m.setBits xs).zeroed = m.zeroed := by
  induction xs generalizing m with
  | nil => rfl
  | cons x xs ih => exact ih (m.setBit x)

@[simp] theorem Memory.setBits_loss (xs : List Word) (m : Memory) : (m.setBits xs).loss = m.loss := by
  induction xs generalizing m with
  | nil => rfl
  | cons x xs ih => exact ih (m.setBit x)

/-! ### Bits -/

theorem byteOf_eq (x : Word) : byteOf x = x.toNat / 8 := by
  simp [byteOf, BitVec.toNat_ushiftRight, Nat.shiftRight_eq_div_pow]

theorem bitOf_eq (x : Word) : bitOf x = x.toNat % 8 := by
  have h := Nat.and_two_pow_sub_one_eq_mod x.toNat 3
  simpa [bitOf, BitVec.toNat_and] using h

/-- `isSet(x)` reads bit `x mod 8` of byte `x / 8` (20_memory.md R52). -/
theorem Memory.bit_eq (m : Memory) (x : Word) : m.bit x = (m.read (x.toNat / 8)).getLsbD (x.toNat % 8) := by
  have hlt : x.toNat % 8 < 8 := Nat.mod_lt _ (by decide)
  rw [Memory.bit, byteOf_eq, bitOf_eq]
  generalize m.read (x.toNat / 8) = b
  generalize x.toNat % 8 = i at hlt
  have key : ∀ b : Byte, ∀ i : Fin 8, ((b >>> i.val &&& 1#8) == 1#8) = b.getLsbD i.val := by decide
  exact key b ⟨i, hlt⟩

/-- `MASK8[j]` has bit `j` and no other (41_bitset_port.md R114). -/
theorem getLsbD_mask8 (j i : Nat) (hi : i < 8) : (mask8 j).getLsbD i = decide (i = j) := by
  by_cases hj : i = j
  · subst hj; simp [mask8, hi]
  · by_cases hlt : i < j
    · simp [mask8, hj, hlt]
    · have : i - j ≠ 0 := by omega
      simp [mask8, hj, hlt, this, hi]

/-- `set(x)` sets bit `x` and keeps every other bit (20_memory.md R58). -/
theorem Memory.getLsbD_read_setBit (m : Memory) (x : Word) (a i : Nat) (hi : i < 8) :
    ((m.setBit x).read a).getLsbD i = ((m.read a).getLsbD i || decide (x.toNat = 8 * a + i)) := by
  rw [Memory.setBit, Memory.read_write, byteOf_eq, bitOf_eq]
  by_cases ha : x.toNat / 8 = a
  · subst ha
    rw [if_pos rfl, BitVec.getLsbD_or, getLsbD_mask8 _ _ hi]
    congr 1
    apply decide_eq_decide.mpr
    constructor <;> intro h <;> omega
  · rw [if_neg ha]
    have : ¬ x.toNat = 8 * a + i := by omega
    simp [this]

/-- `set` of a list of indices sets exactly those bits. -/
theorem Memory.getLsbD_read_setBits (xs : List Word) (m : Memory) (a i : Nat) (hi : i < 8) :
    ((m.setBits xs).read a).getLsbD i = true ↔
      (m.read a).getLsbD i = true ∨ ∃ x ∈ xs, x.toNat = 8 * a + i := by
  induction xs generalizing m with
  | nil => simp [Memory.setBits]
  | cons x xs ih =>
    have hstep : m.setBits (x :: xs) = (m.setBit x).setBits xs := rfl
    rw [hstep, ih, Memory.getLsbD_read_setBit m x a i hi]
    simp only [Bool.or_eq_true, decide_eq_true_eq, List.mem_cons, exists_eq_or_imp]
    tauto

/-- A byte is decided by its eight bits. -/
theorem byte_ext (b c : Byte) (h : ∀ i : Nat, i < 8 → b.getLsbD i = c.getLsbD i) : b = c :=
  BitVec.eq_of_getLsbD_eq h

end Sys2Proof.Machine
end

