-- ==== Sys2Proof/Laws/State.lean ====
section
/-! SUPPORT. What each field of the state is after each named update: one lemma per field per update, true by rfl.
Lanes and their mask after an update stand in Laws/Lanes.lean, bit by bit. -/

namespace Sys2Proof.Machine

/-! ### respond -/

@[simp] theorem State.respond_params (s : State) (r : Response) : (s.respond r).params = s.params := rfl
@[simp] theorem State.respond_v (s : State) (r : Response) : (s.respond r).v = s.v := rfl
@[simp] theorem State.respond_len (s : State) (r : Response) : (s.respond r).len = s.len := rfl
@[simp] theorem State.respond_hphase (s : State) (r : Response) : (s.respond r).hphase = s.hphase := rfl
@[simp] theorem State.respond_digest (s : State) (r : Response) : (s.respond r).digest = s.digest := rfl
@[simp] theorem State.respond_cfgValid (s : State) (r : Response) : (s.respond r).cfgValid = s.cfgValid := rfl
@[simp] theorem State.respond_exp (s : State) (r : Response) : (s.respond r).exp = s.exp := rfl
@[simp] theorem State.respond_k (s : State) (r : Response) : (s.respond r).k = s.k := rfl
@[simp] theorem State.respond_idx (s : State) (r : Response) : (s.respond r).idx = s.idx := rfl
@[simp] theorem State.respond_laneMask (s : State) (r : Response) : (s.respond r).laneMask = s.laneMask := rfl
@[simp] theorem State.respond_testVec (s : State) (r : Response) : (s.respond r).testVec = s.testVec := rfl
@[simp] theorem State.respond_result (s : State) (r : Response) : (s.respond r).result = s.result := rfl
@[simp] theorem State.respond_mem (s : State) (r : Response) : (s.respond r).mem = s.mem := rfl
@[simp] theorem State.respond_err (s : State) (r : Response) : (s.respond r).err = s.err := rfl
@[simp] theorem State.respond_errop (s : State) (r : Response) : (s.respond r).errop = s.errop := rfl
@[simp] theorem State.respond_fresh (s : State) (r : Response) : (s.respond r).fresh = s.fresh := rfl
@[simp] theorem State.respond_host (s : State) (r : Response) : (s.respond r).host = s.host := rfl
@[simp] theorem State.respond_rsps (s : State) (r : Response) : (s.respond r).rsps = r :: s.rsps := rfl

/-! ### takeError -/

@[simp] theorem State.takeError_params (s : State) (op : Byte) (e : ErrCode) : (s.takeError op e).params = s.params := rfl
@[simp] theorem State.takeError_v (s : State) (op : Byte) (e : ErrCode) : (s.takeError op e).v = s.v := rfl
@[simp] theorem State.takeError_len (s : State) (op : Byte) (e : ErrCode) : (s.takeError op e).len = s.len := rfl
@[simp] theorem State.takeError_hphase (s : State) (op : Byte) (e : ErrCode) : (s.takeError op e).hphase = s.hphase := rfl
@[simp] theorem State.takeError_digest (s : State) (op : Byte) (e : ErrCode) : (s.takeError op e).digest = s.digest := rfl
@[simp] theorem State.takeError_cfgValid (s : State) (op : Byte) (e : ErrCode) : (s.takeError op e).cfgValid = s.cfgValid := rfl
@[simp] theorem State.takeError_exp (s : State) (op : Byte) (e : ErrCode) : (s.takeError op e).exp = s.exp := rfl
@[simp] theorem State.takeError_k (s : State) (op : Byte) (e : ErrCode) : (s.takeError op e).k = s.k := rfl
@[simp] theorem State.takeError_idx (s : State) (op : Byte) (e : ErrCode) : (s.takeError op e).idx = s.idx := rfl
@[simp] theorem State.takeError_laneMask (s : State) (op : Byte) (e : ErrCode) : (s.takeError op e).laneMask = s.laneMask := rfl
@[simp] theorem State.takeError_testVec (s : State) (op : Byte) (e : ErrCode) : (s.takeError op e).testVec = s.testVec := rfl
@[simp] theorem State.takeError_result (s : State) (op : Byte) (e : ErrCode) : (s.takeError op e).result = s.result := rfl
@[simp] theorem State.takeError_mem (s : State) (op : Byte) (e : ErrCode) : (s.takeError op e).mem = s.mem := rfl
@[simp] theorem State.takeError_err (s : State) (op : Byte) (e : ErrCode) : (s.takeError op e).err = if s.err = 0#8 then e.code else s.err := rfl
@[simp] theorem State.takeError_errop (s : State) (op : Byte) (e : ErrCode) : (s.takeError op e).errop = if s.err = 0#8 then op else s.errop := rfl
@[simp] theorem State.takeError_fresh (s : State) (op : Byte) (e : ErrCode) : (s.takeError op e).fresh = s.fresh := rfl
@[simp] theorem State.takeError_host (s : State) (op : Byte) (e : ErrCode) : (s.takeError op e).host = s.host := rfl
@[simp] theorem State.takeError_rsps (s : State) (op : Byte) (e : ErrCode) : (s.takeError op e).rsps = ⟨e.code, 0#64⟩ :: s.rsps := rfl

/-! ### clearError -/

@[simp] theorem State.clearError_params (s : State) : s.clearError.params = s.params := rfl
@[simp] theorem State.clearError_v (s : State) : s.clearError.v = s.v := rfl
@[simp] theorem State.clearError_len (s : State) : s.clearError.len = s.len := rfl
@[simp] theorem State.clearError_hphase (s : State) : s.clearError.hphase = s.hphase := rfl
@[simp] theorem State.clearError_digest (s : State) : s.clearError.digest = s.digest := rfl
@[simp] theorem State.clearError_cfgValid (s : State) : s.clearError.cfgValid = s.cfgValid := rfl
@[simp] theorem State.clearError_exp (s : State) : s.clearError.exp = s.exp := rfl
@[simp] theorem State.clearError_k (s : State) : s.clearError.k = s.k := rfl
@[simp] theorem State.clearError_idx (s : State) : s.clearError.idx = s.idx := rfl
@[simp] theorem State.clearError_laneMask (s : State) : s.clearError.laneMask = s.laneMask := rfl
@[simp] theorem State.clearError_testVec (s : State) : s.clearError.testVec = s.testVec := rfl
@[simp] theorem State.clearError_result (s : State) : s.clearError.result = s.result := rfl
@[simp] theorem State.clearError_mem (s : State) : s.clearError.mem = s.mem := rfl
@[simp] theorem State.clearError_err (s : State) : s.clearError.err = 0#8 := rfl
@[simp] theorem State.clearError_errop (s : State) : s.clearError.errop = 0#8 := rfl
@[simp] theorem State.clearError_fresh (s : State) : s.clearError.fresh = s.fresh := rfl
@[simp] theorem State.clearError_host (s : State) : s.clearError.host = s.host := rfl
@[simp] theorem State.clearError_rsps (s : State) : s.clearError.rsps = s.rsps := rfl

/-! ### writeLane -/

@[simp] theorem State.writeLane_params (s : State) (j : Lane) (x : Word) : (s.writeLane j x).params = s.params := rfl
@[simp] theorem State.writeLane_v (s : State) (j : Lane) (x : Word) : (s.writeLane j x).v = s.v := rfl
@[simp] theorem State.writeLane_len (s : State) (j : Lane) (x : Word) : (s.writeLane j x).len = s.len := rfl
@[simp] theorem State.writeLane_hphase (s : State) (j : Lane) (x : Word) : (s.writeLane j x).hphase = s.hphase := rfl
@[simp] theorem State.writeLane_digest (s : State) (j : Lane) (x : Word) : (s.writeLane j x).digest = s.digest := rfl
@[simp] theorem State.writeLane_cfgValid (s : State) (j : Lane) (x : Word) : (s.writeLane j x).cfgValid = s.cfgValid := rfl
@[simp] theorem State.writeLane_exp (s : State) (j : Lane) (x : Word) : (s.writeLane j x).exp = s.exp := rfl
@[simp] theorem State.writeLane_k (s : State) (j : Lane) (x : Word) : (s.writeLane j x).k = s.k := rfl
@[simp] theorem State.writeLane_laneMask (s : State) (j : Lane) (x : Word) : (s.writeLane j x).laneMask = s.laneMask ||| (1#64 <<< j.toNat) := rfl
@[simp] theorem State.writeLane_testVec (s : State) (j : Lane) (x : Word) : (s.writeLane j x).testVec = s.testVec := rfl
@[simp] theorem State.writeLane_result (s : State) (j : Lane) (x : Word) : (s.writeLane j x).result = s.result := rfl
@[simp] theorem State.writeLane_mem (s : State) (j : Lane) (x : Word) : (s.writeLane j x).mem = s.mem := rfl
@[simp] theorem State.writeLane_err (s : State) (j : Lane) (x : Word) : (s.writeLane j x).err = s.err := rfl
@[simp] theorem State.writeLane_errop (s : State) (j : Lane) (x : Word) : (s.writeLane j x).errop = s.errop := rfl
@[simp] theorem State.writeLane_fresh (s : State) (j : Lane) (x : Word) : (s.writeLane j x).fresh = s.fresh := rfl
@[simp] theorem State.writeLane_host (s : State) (j : Lane) (x : Word) : (s.writeLane j x).host = s.host := rfl
@[simp] theorem State.writeLane_rsps (s : State) (j : Lane) (x : Word) : (s.writeLane j x).rsps = s.rsps := rfl

/-! ### dropLanes -/

@[simp] theorem State.dropLanes_params (s : State) : s.dropLanes.params = s.params := rfl
@[simp] theorem State.dropLanes_v (s : State) : s.dropLanes.v = s.v := rfl
@[simp] theorem State.dropLanes_len (s : State) : s.dropLanes.len = s.len := rfl
@[simp] theorem State.dropLanes_hphase (s : State) : s.dropLanes.hphase = s.hphase := rfl
@[simp] theorem State.dropLanes_digest (s : State) : s.dropLanes.digest = s.digest := rfl
@[simp] theorem State.dropLanes_cfgValid (s : State) : s.dropLanes.cfgValid = s.cfgValid := rfl
@[simp] theorem State.dropLanes_exp (s : State) : s.dropLanes.exp = s.exp := rfl
@[simp] theorem State.dropLanes_k (s : State) : s.dropLanes.k = s.k := rfl
@[simp] theorem State.dropLanes_laneMask (s : State) : s.dropLanes.laneMask = 0#64 := rfl
@[simp] theorem State.dropLanes_testVec (s : State) : s.dropLanes.testVec = s.testVec := rfl
@[simp] theorem State.dropLanes_result (s : State) : s.dropLanes.result = s.result := rfl
@[simp] theorem State.dropLanes_mem (s : State) : s.dropLanes.mem = s.mem := rfl
@[simp] theorem State.dropLanes_err (s : State) : s.dropLanes.err = s.err := rfl
@[simp] theorem State.dropLanes_errop (s : State) : s.dropLanes.errop = s.errop := rfl
@[simp] theorem State.dropLanes_fresh (s : State) : s.dropLanes.fresh = s.fresh + 1 := rfl
@[simp] theorem State.dropLanes_host (s : State) : s.dropLanes.host = s.host := rfl
@[simp] theorem State.dropLanes_rsps (s : State) : s.dropLanes.rsps = s.rsps := rfl

/-! ### loadLanes -/

@[simp] theorem State.loadLanes_params (s : State) (n : Nat) (f : Lane → Word) : (s.loadLanes n f).params = s.params := rfl
@[simp] theorem State.loadLanes_v (s : State) (n : Nat) (f : Lane → Word) : (s.loadLanes n f).v = s.v := rfl
@[simp] theorem State.loadLanes_len (s : State) (n : Nat) (f : Lane → Word) : (s.loadLanes n f).len = s.len := rfl
@[simp] theorem State.loadLanes_hphase (s : State) (n : Nat) (f : Lane → Word) : (s.loadLanes n f).hphase = s.hphase := rfl
@[simp] theorem State.loadLanes_digest (s : State) (n : Nat) (f : Lane → Word) : (s.loadLanes n f).digest = s.digest := rfl
@[simp] theorem State.loadLanes_cfgValid (s : State) (n : Nat) (f : Lane → Word) : (s.loadLanes n f).cfgValid = s.cfgValid := rfl
@[simp] theorem State.loadLanes_exp (s : State) (n : Nat) (f : Lane → Word) : (s.loadLanes n f).exp = s.exp := rfl
@[simp] theorem State.loadLanes_k (s : State) (n : Nat) (f : Lane → Word) : (s.loadLanes n f).k = s.k := rfl
@[simp] theorem State.loadLanes_testVec (s : State) (n : Nat) (f : Lane → Word) : (s.loadLanes n f).testVec = s.testVec := rfl
@[simp] theorem State.loadLanes_result (s : State) (n : Nat) (f : Lane → Word) : (s.loadLanes n f).result = s.result := rfl
@[simp] theorem State.loadLanes_mem (s : State) (n : Nat) (f : Lane → Word) : (s.loadLanes n f).mem = s.mem := rfl
@[simp] theorem State.loadLanes_err (s : State) (n : Nat) (f : Lane → Word) : (s.loadLanes n f).err = s.err := rfl
@[simp] theorem State.loadLanes_errop (s : State) (n : Nat) (f : Lane → Word) : (s.loadLanes n f).errop = s.errop := rfl
@[simp] theorem State.loadLanes_fresh (s : State) (n : Nat) (f : Lane → Word) : (s.loadLanes n f).fresh = s.fresh + 1 := rfl
@[simp] theorem State.loadLanes_host (s : State) (n : Nat) (f : Lane → Word) : (s.loadLanes n f).host = s.host := rfl
@[simp] theorem State.loadLanes_rsps (s : State) (n : Nat) (f : Lane → Word) : (s.loadLanes n f).rsps = s.rsps := rfl

/-! ### genLanes -/

@[simp] theorem State.genLanes_params (s : State) : s.genLanes.params = s.params := rfl
@[simp] theorem State.genLanes_v (s : State) : s.genLanes.v = s.v := rfl
@[simp] theorem State.genLanes_len (s : State) : s.genLanes.len = s.len := rfl
@[simp] theorem State.genLanes_hphase (s : State) : s.genLanes.hphase = s.hphase := rfl
@[simp] theorem State.genLanes_digest (s : State) : s.genLanes.digest = s.digest := rfl
@[simp] theorem State.genLanes_cfgValid (s : State) : s.genLanes.cfgValid = s.cfgValid := rfl
@[simp] theorem State.genLanes_exp (s : State) : s.genLanes.exp = s.exp := rfl
@[simp] theorem State.genLanes_k (s : State) : s.genLanes.k = s.k := rfl
@[simp] theorem State.genLanes_testVec (s : State) : s.genLanes.testVec = s.testVec := rfl
@[simp] theorem State.genLanes_result (s : State) : s.genLanes.result = s.result := rfl
@[simp] theorem State.genLanes_mem (s : State) : s.genLanes.mem = s.mem := rfl
@[simp] theorem State.genLanes_err (s : State) : s.genLanes.err = s.err := rfl
@[simp] theorem State.genLanes_errop (s : State) : s.genLanes.errop = s.errop := rfl
@[simp] theorem State.genLanes_fresh (s : State) : s.genLanes.fresh = s.fresh + 1 := rfl
@[simp] theorem State.genLanes_host (s : State) : s.genLanes.host = s.host := rfl
@[simp] theorem State.genLanes_rsps (s : State) : s.genLanes.rsps = s.rsps := rfl

/-! ### toReset -/

@[simp] theorem State.toReset_params (s : State) : s.toReset.params = s.params := rfl
@[simp] theorem State.toReset_hphase (s : State) : s.toReset.hphase = .idle := rfl
@[simp] theorem State.toReset_cfgValid (s : State) : s.toReset.cfgValid = false := rfl
@[simp] theorem State.toReset_laneMask (s : State) : s.toReset.laneMask = 0#64 := rfl
@[simp] theorem State.toReset_testVec (s : State) : s.toReset.testVec = 0#64 := rfl
@[simp] theorem State.toReset_result (s : State) : s.toReset.result = false := rfl
@[simp] theorem State.toReset_mem (s : State) : s.toReset.mem = Memory.lost s.fresh := rfl
@[simp] theorem State.toReset_err (s : State) : s.toReset.err = 0#8 := rfl
@[simp] theorem State.toReset_errop (s : State) : s.toReset.errop = 0#8 := rfl
@[simp] theorem State.toReset_fresh (s : State) : s.toReset.fresh = s.fresh + 1 := rfl
@[simp] theorem State.toReset_host (s : State) : s.toReset.host = s.host := rfl
@[simp] theorem State.toReset_rsps (s : State) : s.toReset.rsps = s.rsps := rfl

/-! ### configure -/

@[simp] theorem State.configure_params (s : State) (e : BitVec 6) (n : BitVec 7) : (s.configure e n).params = s.params := rfl
@[simp] theorem State.configure_v (s : State) (e : BitVec 6) (n : BitVec 7) : (s.configure e n).v = s.v := rfl
@[simp] theorem State.configure_len (s : State) (e : BitVec 6) (n : BitVec 7) : (s.configure e n).len = s.len := rfl
@[simp] theorem State.configure_hphase (s : State) (e : BitVec 6) (n : BitVec 7) : (s.configure e n).hphase = s.hphase := rfl
@[simp] theorem State.configure_digest (s : State) (e : BitVec 6) (n : BitVec 7) : (s.configure e n).digest = s.digest := rfl
@[simp] theorem State.configure_cfgValid (s : State) (e : BitVec 6) (n : BitVec 7) : (s.configure e n).cfgValid = true := rfl
@[simp] theorem State.configure_exp (s : State) (e : BitVec 6) (n : BitVec 7) : (s.configure e n).exp = e := rfl
@[simp] theorem State.configure_k (s : State) (e : BitVec 6) (n : BitVec 7) : (s.configure e n).k = n := rfl
@[simp] theorem State.configure_laneMask (s : State) (e : BitVec 6) (n : BitVec 7) : (s.configure e n).laneMask = 0#64 := rfl
@[simp] theorem State.configure_testVec (s : State) (e : BitVec 6) (n : BitVec 7) : (s.configure e n).testVec = 0#64 := rfl
@[simp] theorem State.configure_result (s : State) (e : BitVec 6) (n : BitVec 7) : (s.configure e n).result = false := rfl
@[simp] theorem State.configure_mem (s : State) (e : BitVec 6) (n : BitVec 7) : (s.configure e n).mem = Memory.clearBelow (2 ^ e.toNat / 8) s.mem := rfl
@[simp] theorem State.configure_err (s : State) (e : BitVec 6) (n : BitVec 7) : (s.configure e n).err = s.err := rfl
@[simp] theorem State.configure_errop (s : State) (e : BitVec 6) (n : BitVec 7) : (s.configure e n).errop = s.errop := rfl
@[simp] theorem State.configure_fresh (s : State) (e : BitVec 6) (n : BitVec 7) : (s.configure e n).fresh = s.fresh + 1 := rfl
@[simp] theorem State.configure_host (s : State) (e : BitVec 6) (n : BitVec 7) : (s.configure e n).host = s.host := rfl
@[simp] theorem State.configure_rsps (s : State) (e : BitVec 6) (n : BitVec 7) : (s.configure e n).rsps = s.rsps := rfl

/-! ### hashInit -/

@[simp] theorem State.hashInit_params (s : State) : s.hashInit.params = s.params := rfl
@[simp] theorem State.hashInit_v (s : State) : s.hashInit.v = initialWords s.params := rfl
@[simp] theorem State.hashInit_len (s : State) : s.hashInit.len = 0#8 := rfl
@[simp] theorem State.hashInit_hphase (s : State) : s.hashInit.hphase = .absorb := rfl
@[simp] theorem State.hashInit_cfgValid (s : State) : s.hashInit.cfgValid = s.cfgValid := rfl
@[simp] theorem State.hashInit_exp (s : State) : s.hashInit.exp = s.exp := rfl
@[simp] theorem State.hashInit_k (s : State) : s.hashInit.k = s.k := rfl
@[simp] theorem State.hashInit_idx (s : State) : s.hashInit.idx = s.idx := rfl
@[simp] theorem State.hashInit_laneMask (s : State) : s.hashInit.laneMask = s.laneMask := rfl
@[simp] theorem State.hashInit_testVec (s : State) : s.hashInit.testVec = s.testVec := rfl
@[simp] theorem State.hashInit_result (s : State) : s.hashInit.result = s.result := rfl
@[simp] theorem State.hashInit_mem (s : State) : s.hashInit.mem = s.mem := rfl
@[simp] theorem State.hashInit_err (s : State) : s.hashInit.err = s.err := rfl
@[simp] theorem State.hashInit_errop (s : State) : s.hashInit.errop = s.errop := rfl
@[simp] theorem State.hashInit_fresh (s : State) : s.hashInit.fresh = s.fresh + 1 := rfl
@[simp] theorem State.hashInit_host (s : State) : s.hashInit.host = s.host := rfl
@[simp] theorem State.hashInit_rsps (s : State) : s.hashInit.rsps = s.rsps := rfl

/-! ### hashAbsorb -/

@[simp] theorem State.hashAbsorb_params (s : State) (m : Word) : (s.hashAbsorb m).params = s.params := rfl
@[simp] theorem State.hashAbsorb_v (s : State) (m : Word) : (s.hashAbsorb m).v = absorbWord s.params s.v m := rfl
@[simp] theorem State.hashAbsorb_len (s : State) (m : Word) : (s.hashAbsorb m).len = s.len + 8#8 := rfl
@[simp] theorem State.hashAbsorb_hphase (s : State) (m : Word) : (s.hashAbsorb m).hphase = s.hphase := rfl
@[simp] theorem State.hashAbsorb_digest (s : State) (m : Word) : (s.hashAbsorb m).digest = s.digest := rfl
@[simp] theorem State.hashAbsorb_cfgValid (s : State) (m : Word) : (s.hashAbsorb m).cfgValid = s.cfgValid := rfl
@[simp] theorem State.hashAbsorb_exp (s : State) (m : Word) : (s.hashAbsorb m).exp = s.exp := rfl
@[simp] theorem State.hashAbsorb_k (s : State) (m : Word) : (s.hashAbsorb m).k = s.k := rfl
@[simp] theorem State.hashAbsorb_idx (s : State) (m : Word) : (s.hashAbsorb m).idx = s.idx := rfl
@[simp] theorem State.hashAbsorb_laneMask (s : State) (m : Word) : (s.hashAbsorb m).laneMask = s.laneMask := rfl
@[simp] theorem State.hashAbsorb_testVec (s : State) (m : Word) : (s.hashAbsorb m).testVec = s.testVec := rfl
@[simp] theorem State.hashAbsorb_result (s : State) (m : Word) : (s.hashAbsorb m).result = s.result := rfl
@[simp] theorem State.hashAbsorb_mem (s : State) (m : Word) : (s.hashAbsorb m).mem = s.mem := rfl
@[simp] theorem State.hashAbsorb_err (s : State) (m : Word) : (s.hashAbsorb m).err = s.err := rfl
@[simp] theorem State.hashAbsorb_errop (s : State) (m : Word) : (s.hashAbsorb m).errop = s.errop := rfl
@[simp] theorem State.hashAbsorb_fresh (s : State) (m : Word) : (s.hashAbsorb m).fresh = s.fresh := rfl
@[simp] theorem State.hashAbsorb_host (s : State) (m : Word) : (s.hashAbsorb m).host = s.host := rfl
@[simp] theorem State.hashAbsorb_rsps (s : State) (m : Word) : (s.hashAbsorb m).rsps = s.rsps := rfl

/-! ### hashFinal -/

@[simp] theorem State.hashFinal_params (s : State) (n : BitVec 3) (t : Word) : (s.hashFinal n t).params = s.params := rfl
@[simp] theorem State.hashFinal_v (s : State) (n : BitVec 3) (t : Word) : (s.hashFinal n t).v = finalise s.params (absorbWord s.params s.v (finalTail (s.len + n.setWidth 8) t)) := rfl
@[simp] theorem State.hashFinal_len (s : State) (n : BitVec 3) (t : Word) : (s.hashFinal n t).len = s.len + n.setWidth 8 := rfl
@[simp] theorem State.hashFinal_hphase (s : State) (n : BitVec 3) (t : Word) : (s.hashFinal n t).hphase = .done := rfl
@[simp] theorem State.hashFinal_cfgValid (s : State) (n : BitVec 3) (t : Word) : (s.hashFinal n t).cfgValid = s.cfgValid := rfl
@[simp] theorem State.hashFinal_exp (s : State) (n : BitVec 3) (t : Word) : (s.hashFinal n t).exp = s.exp := rfl
@[simp] theorem State.hashFinal_k (s : State) (n : BitVec 3) (t : Word) : (s.hashFinal n t).k = s.k := rfl
@[simp] theorem State.hashFinal_idx (s : State) (n : BitVec 3) (t : Word) : (s.hashFinal n t).idx = s.idx := rfl
@[simp] theorem State.hashFinal_laneMask (s : State) (n : BitVec 3) (t : Word) : (s.hashFinal n t).laneMask = s.laneMask := rfl
@[simp] theorem State.hashFinal_testVec (s : State) (n : BitVec 3) (t : Word) : (s.hashFinal n t).testVec = s.testVec := rfl
@[simp] theorem State.hashFinal_result (s : State) (n : BitVec 3) (t : Word) : (s.hashFinal n t).result = s.result := rfl
@[simp] theorem State.hashFinal_mem (s : State) (n : BitVec 3) (t : Word) : (s.hashFinal n t).mem = s.mem := rfl
@[simp] theorem State.hashFinal_err (s : State) (n : BitVec 3) (t : Word) : (s.hashFinal n t).err = s.err := rfl
@[simp] theorem State.hashFinal_errop (s : State) (n : BitVec 3) (t : Word) : (s.hashFinal n t).errop = s.errop := rfl
@[simp] theorem State.hashFinal_fresh (s : State) (n : BitVec 3) (t : Word) : (s.hashFinal n t).fresh = s.fresh := rfl
@[simp] theorem State.hashFinal_host (s : State) (n : BitVec 3) (t : Word) : (s.hashFinal n t).host = s.host := rfl
@[simp] theorem State.hashFinal_rsps (s : State) (n : BitVec 3) (t : Word) : (s.hashFinal n t).rsps = s.rsps := rfl

/-! ### setLanes -/

@[simp] theorem State.setLanes_params (s : State) : s.setLanes.params = s.params := rfl
@[simp] theorem State.setLanes_v (s : State) : s.setLanes.v = s.v := rfl
@[simp] theorem State.setLanes_len (s : State) : s.setLanes.len = s.len := rfl
@[simp] theorem State.setLanes_hphase (s : State) : s.setLanes.hphase = s.hphase := rfl
@[simp] theorem State.setLanes_digest (s : State) : s.setLanes.digest = s.digest := rfl
@[simp] theorem State.setLanes_cfgValid (s : State) : s.setLanes.cfgValid = s.cfgValid := rfl
@[simp] theorem State.setLanes_exp (s : State) : s.setLanes.exp = s.exp := rfl
@[simp] theorem State.setLanes_k (s : State) : s.setLanes.k = s.k := rfl
@[simp] theorem State.setLanes_idx (s : State) : s.setLanes.idx = s.idx := rfl
@[simp] theorem State.setLanes_laneMask (s : State) : s.setLanes.laneMask = s.laneMask := rfl
@[simp] theorem State.setLanes_testVec (s : State) : s.setLanes.testVec = s.testVec := rfl
@[simp] theorem State.setLanes_result (s : State) : s.setLanes.result = s.result := rfl
@[simp] theorem State.setLanes_mem (s : State) : s.setLanes.mem = s.mem.setBits (s.validLanes.map s.idxAt) := rfl
@[simp] theorem State.setLanes_err (s : State) : s.setLanes.err = s.err := rfl
@[simp] theorem State.setLanes_errop (s : State) : s.setLanes.errop = s.errop := rfl
@[simp] theorem State.setLanes_fresh (s : State) : s.setLanes.fresh = s.fresh := rfl
@[simp] theorem State.setLanes_host (s : State) : s.setLanes.host = s.host := rfl
@[simp] theorem State.setLanes_rsps (s : State) : s.setLanes.rsps = s.rsps := rfl

/-! ### recordTest -/

@[simp] theorem State.recordTest_params (s : State) : s.recordTest.params = s.params := rfl
@[simp] theorem State.recordTest_v (s : State) : s.recordTest.v = s.v := rfl
@[simp] theorem State.recordTest_len (s : State) : s.recordTest.len = s.len := rfl
@[simp] theorem State.recordTest_hphase (s : State) : s.recordTest.hphase = s.hphase := rfl
@[simp] theorem State.recordTest_digest (s : State) : s.recordTest.digest = s.digest := rfl
@[simp] theorem State.recordTest_cfgValid (s : State) : s.recordTest.cfgValid = s.cfgValid := rfl
@[simp] theorem State.recordTest_exp (s : State) : s.recordTest.exp = s.exp := rfl
@[simp] theorem State.recordTest_k (s : State) : s.recordTest.k = s.k := rfl
@[simp] theorem State.recordTest_idx (s : State) : s.recordTest.idx = s.idx := rfl
@[simp] theorem State.recordTest_laneMask (s : State) : s.recordTest.laneMask = s.laneMask := rfl
@[simp] theorem State.recordTest_testVec (s : State) : s.recordTest.testVec = s.testedBits := rfl
@[simp] theorem State.recordTest_result (s : State) : s.recordTest.result = s.testedAll := rfl
@[simp] theorem State.recordTest_mem (s : State) : s.recordTest.mem = s.mem := rfl
@[simp] theorem State.recordTest_err (s : State) : s.recordTest.err = s.err := rfl
@[simp] theorem State.recordTest_errop (s : State) : s.recordTest.errop = s.errop := rfl
@[simp] theorem State.recordTest_fresh (s : State) : s.recordTest.fresh = s.fresh := rfl
@[simp] theorem State.recordTest_host (s : State) : s.recordTest.host = s.host := rfl
@[simp] theorem State.recordTest_rsps (s : State) : s.recordTest.rsps = s.rsps := rfl

/-! ### clearArray -/

@[simp] theorem State.clearArray_params (s : State) : s.clearArray.params = s.params := rfl
@[simp] theorem State.clearArray_v (s : State) : s.clearArray.v = s.v := rfl
@[simp] theorem State.clearArray_len (s : State) : s.clearArray.len = s.len := rfl
@[simp] theorem State.clearArray_hphase (s : State) : s.clearArray.hphase = s.hphase := rfl
@[simp] theorem State.clearArray_digest (s : State) : s.clearArray.digest = s.digest := rfl
@[simp] theorem State.clearArray_cfgValid (s : State) : s.clearArray.cfgValid = s.cfgValid := rfl
@[simp] theorem State.clearArray_exp (s : State) : s.clearArray.exp = s.exp := rfl
@[simp] theorem State.clearArray_k (s : State) : s.clearArray.k = s.k := rfl
@[simp] theorem State.clearArray_idx (s : State) : s.clearArray.idx = s.idx := rfl
@[simp] theorem State.clearArray_laneMask (s : State) : s.clearArray.laneMask = s.laneMask := rfl
@[simp] theorem State.clearArray_testVec (s : State) : s.clearArray.testVec = s.testVec := rfl
@[simp] theorem State.clearArray_result (s : State) : s.clearArray.result = s.result := rfl
@[simp] theorem State.clearArray_mem (s : State) : s.clearArray.mem = Memory.clearBelow s.byteCount s.mem := rfl
@[simp] theorem State.clearArray_err (s : State) : s.clearArray.err = s.err := rfl
@[simp] theorem State.clearArray_errop (s : State) : s.clearArray.errop = s.errop := rfl
@[simp] theorem State.clearArray_fresh (s : State) : s.clearArray.fresh = s.fresh := rfl
@[simp] theorem State.clearArray_host (s : State) : s.clearArray.host = s.host := rfl
@[simp] theorem State.clearArray_rsps (s : State) : s.clearArray.rsps = s.rsps := rfl

/-! ### giveCommand -/

@[simp] theorem State.giveCommand_params (s : State) (w : Cmd) : (s.giveCommand w).params = s.params := rfl
@[simp] theorem State.giveCommand_v (s : State) (w : Cmd) : (s.giveCommand w).v = s.v := rfl
@[simp] theorem State.giveCommand_len (s : State) (w : Cmd) : (s.giveCommand w).len = s.len := rfl
@[simp] theorem State.giveCommand_hphase (s : State) (w : Cmd) : (s.giveCommand w).hphase = s.hphase := rfl
@[simp] theorem State.giveCommand_digest (s : State) (w : Cmd) : (s.giveCommand w).digest = s.digest := rfl
@[simp] theorem State.giveCommand_cfgValid (s : State) (w : Cmd) : (s.giveCommand w).cfgValid = s.cfgValid := rfl
@[simp] theorem State.giveCommand_exp (s : State) (w : Cmd) : (s.giveCommand w).exp = s.exp := rfl
@[simp] theorem State.giveCommand_k (s : State) (w : Cmd) : (s.giveCommand w).k = s.k := rfl
@[simp] theorem State.giveCommand_idx (s : State) (w : Cmd) : (s.giveCommand w).idx = s.idx := rfl
@[simp] theorem State.giveCommand_laneMask (s : State) (w : Cmd) : (s.giveCommand w).laneMask = s.laneMask := rfl
@[simp] theorem State.giveCommand_testVec (s : State) (w : Cmd) : (s.giveCommand w).testVec = s.testVec := rfl
@[simp] theorem State.giveCommand_result (s : State) (w : Cmd) : (s.giveCommand w).result = s.result := rfl
@[simp] theorem State.giveCommand_mem (s : State) (w : Cmd) : (s.giveCommand w).mem = s.mem := rfl
@[simp] theorem State.giveCommand_err (s : State) (w : Cmd) : (s.giveCommand w).err = s.err := rfl
@[simp] theorem State.giveCommand_errop (s : State) (w : Cmd) : (s.giveCommand w).errop = s.errop := rfl
@[simp] theorem State.giveCommand_fresh (s : State) (w : Cmd) : (s.giveCommand w).fresh = s.fresh := rfl
@[simp] theorem State.giveCommand_host (s : State) (w : Cmd) : (s.giveCommand w).host = .command w :: s.host := rfl
@[simp] theorem State.giveCommand_rsps (s : State) (w : Cmd) : (s.giveCommand w).rsps = s.rsps := rfl

end Sys2Proof.Machine
end

