-- ==== Sys2Proof/Laws/Ops.lean ====
section
/-! SUPPORT. The shared operations of the meanings, one lemma each that says everything the operation can answer. -/

namespace Sys2Proof.Machine

theorem raise_eq (s : State) (op : Byte) (e : ErrCode) : raise s op e = .next (s.takeError op e) := rfl

theorem reply_eq (s : State) (d : Word) : reply s d = .next (s.respond ⟨0#8, d⟩) := rfl

theorem andThen_next (s : State) (f : State → Outcome) : andThen (.next s) f = f s := rfl

/-- A sequence answers a next state exactly through a next state of its first part. -/
theorem andThen_eq_next (o : Outcome) (f : State → Outcome) (t : State) :
    andThen o f = .next t ↔ ∃ s, o = .next s ∧ f s = .next t := by
  cases o <;> simp [andThen]

theorem raise_of_not_configured (s : State) (op : Byte) (f : State → Outcome) (h : s.cfgValid = false) :
    withConfig s op f = .next (s.takeError op .notConfigured) := by
  simp [withConfig, h, raise]

theorem withConfig_of_configured (s : State) (op : Byte) (f : State → Outcome) (h : s.cfgValid = true) :
    withConfig s op f = f s := by
  simp [withConfig, h]

/-- Everything `withConfig` can answer (60_exceptions.md R178). -/
theorem withConfig_cases (s : State) (op : Byte) (f : State → Outcome) :
    (s.cfgValid = false ∧ withConfig s op f = .next (s.takeError op .notConfigured)) ∨
    (s.cfgValid = true ∧ withConfig s op f = f s) := by
  cases h : s.cfgValid
  · exact .inl ⟨rfl, raise_of_not_configured s op f h⟩
  · exact .inr ⟨rfl, withConfig_of_configured s op f h⟩

/-- Everything `withDigest` can answer (42_probe_engine.md R129). -/
theorem withDigest_cases (s : State) (op : Byte) (f : State → Outcome) :
    (s.cfgValid = false ∧ withDigest s op f = .next (s.takeError op .notConfigured)) ∨
    (s.cfgValid = true ∧ s.hphase ≠ .done ∧ withDigest s op f = .next (s.takeError op .protocol)) ∨
    (s.cfgValid = true ∧ s.hphase = .done ∧ withDigest s op f = f s) := by
  unfold withDigest
  cases hc : s.cfgValid
  · exact .inl ⟨rfl, rfl⟩
  · by_cases hp : s.hphase = .done
    · exact .inr (.inr ⟨rfl, hp, by simp [hp]⟩)
    · exact .inr (.inl ⟨rfl, hp, by simp [hp, raise]⟩)

/-- Everything `withByte` can answer (41_bitset_port.md R121, R122). -/
theorem withByte_cases (s : State) (op : Byte) (addr : Word) (f : State → Outcome) :
    (s.cfgValid = false ∧ withByte s op addr f = .next (s.takeError op .notConfigured)) ∨
    (s.cfgValid = true ∧ s.byteCount ≤ addr.toNat ∧ withByte s op addr f = .next (s.takeError op .addrRange)) ∨
    (s.cfgValid = true ∧ addr.toNat < s.byteCount ∧ withByte s op addr f = f s) := by
  unfold withByte
  rcases withConfig_cases s op (fun s => if s.byteCount ≤ addr.toNat then raise s op .addrRange else f s) with
    ⟨hc, h⟩ | ⟨hc, h⟩
  · exact .inl ⟨hc, h⟩
  · by_cases hr : s.byteCount ≤ addr.toNat
    · exact .inr (.inl ⟨hc, hr, by rw [h, if_pos hr, raise]⟩)
    · exact .inr (.inr ⟨hc, Nat.lt_of_not_le hr, by rw [h, if_neg hr]⟩)

/-- Everything setting the valid lanes can answer (R115). -/
theorem setValidLanes_cases (s : State) :
    (s.lanesInRange = true ∧ setValidLanes s = .next (s.setLanes.respond ⟨0#8, 0#64⟩)) ∨
    (s.lanesInRange = false ∧ setValidLanes s = .fault .laneIndexOutOfRange) := by
  cases h : s.lanesInRange <;> simp [setValidLanes, h, reply]

/-- Everything testing the valid lanes can answer (R116). -/
theorem testValidLanes_cases (s : State) :
    (s.lanesInRange = true ∧ testValidLanes s = .next (s.recordTest.respond ⟨0#8, resultData s.testedAll⟩)) ∨
    (s.lanesInRange = false ∧ testValidLanes s = .fault .laneIndexOutOfRange) := by
  cases h : s.lanesInRange <;> simp [testValidLanes, h, reply]

/-! ### The bits B_SET sets, the probes' range -/

/-- B_SET's array, byte by byte and bit by bit (R115). -/
theorem getLsbD_read_setLanes (s : State) (a i : Nat) (hi : i < 8) :
    (s.setLanes.mem.read a).getLsbD i = true ↔
      (s.mem.read a).getLsbD i = true ∨ ∃ j : Lane, s.laneValid j = true ∧ (s.idxAt j).toNat = 8 * a + i := by
  rw [State.setLanes_mem, Memory.getLsbD_read_setBits _ _ _ _ hi]
  simp [mem_validLanes]

theorem toNat_bitCountWord (exp : BitVec 6) : (bitCountWord exp).toNat = 2 ^ exp.toNat := by
  have h : exp.toNat < 64 := exp.isLt
  have h2 : 2 ^ exp.toNat < 2 ^ 64 := Nat.pow_lt_pow_right (by decide) h
  rw [bitCountWord, BitVec.toNat_shiftLeft, Nat.shiftLeft_eq]
  simp only [BitVec.toNat_ofNat]
  rw [show (1 % 2 ^ 64) * 2 ^ exp.toNat = 2 ^ exp.toNat by simp]
  exact Nat.mod_eq_of_lt h2

/-- The index mask `BITCOUNT - 1` (10_state.md R34). -/
theorem toNat_indexMask (exp : BitVec 6) : (bitCountWord exp - 1#64).toNat = 2 ^ exp.toNat - 1 := by
  have h := toNat_bitCountWord exp
  have hp : 0 < 2 ^ exp.toNat := Nat.two_pow_pos _
  rw [BitVec.toNat_sub_of_le]
  · rw [h]; simp
  · rw [BitVec.le_def, h]; exact hp

/-- Masking with `BITCOUNT - 1` is reduction modulo BITCOUNT (42_probe_engine.md R131). -/
theorem toNat_and_indexMask (x : Word) (exp : BitVec 6) :
    (x &&& (bitCountWord exp - 1#64)).toNat = x.toNat % 2 ^ exp.toNat := by
  rw [BitVec.toNat_and, toNat_indexMask, Nat.and_two_pow_sub_one_eq_mod]

/-- Every probe is below BITCOUNT (42_probe_engine.md R128). -/
theorem probe_lt (i : Nat) (low high : Word) (exp : BitVec 6) : (probe i low high exp).toNat < 2 ^ exp.toNat := by
  rw [probe, toNat_and_indexMask]; exact Nat.mod_lt _ (Nat.two_pow_pos _)

theorem laneValid_genLanes (s : State) (j : Lane) :
    s.genLanes.laneValid j = (decide (j.toNat < s.params.kMax) && decide (j.toNat < s.k.toNat)) :=
  laneValid_loadLanes s _ _ j

theorem getLsbD_genLanes (s : State) (j : Lane) :
    s.genLanes.laneMask.getLsbD j.toNat = (decide (j.toNat < s.params.kMax) && decide (j.toNat < s.k.toNat)) :=
  getLsbD_loadLanes s _ _ j

theorem idxAt_genLanes (s : State) (j : Lane) (h : j.toNat < s.params.kMax) (hk : j.toNat < s.k.toNat) :
    s.genLanes.idxAt j = s.probeAt j := by
  rw [State.genLanes, idxAt_loadLanes]; simp [laneExists, h, hk]

/-- After P_GEN no valid lane is out of range (20_memory.md R56). -/
theorem lanesInRange_genLanes (s : State) : s.genLanes.lanesInRange = true := by
  rw [lanesInRange_iff]
  intro j hj
  rw [laneValid_genLanes] at hj
  simp only [Bool.and_eq_true, decide_eq_true_eq] at hj
  rw [idxAt_genLanes s j hj.1 hj.2]
  exact probe_lt _ _ _ _

/-- The reset state's memory is canonical. -/
theorem reset_memWf (p : Params) (n : Nat) : (State.resetOf p n).mem.wf := Memory.wf_lost n

/-! ### Hashing a message -/

/-- The H_ABSORBs of a list of blocks, from phase ABSORB: all complete (40_hash_mixer.md R96). -/
theorem absorbBlocks_eq (ms : List Word) (s : State) (h : s.hphase = .absorb) :
    absorbBlocks ms s = .next { s with
      v := ms.foldl (absorbWord s.params) s.v
      len := s.len + 8#8 * BitVec.ofNat 8 ms.length
      rsps := List.replicate ms.length ⟨0#8, 0#64⟩ ++ s.rsps } := by
  induction ms generalizing s with
  | nil => simp [absorbBlocks]
  | cons m ms ih =>
    have h1 : execHAbsorb m s = .next ((s.hashAbsorb m).respond ⟨0#8, 0#64⟩) := by
      simp [execHAbsorb, h, reply]
    rw [absorbBlocks, h1, andThen_next, ih _ (by simpa using h)]
    simp only [Host.Outcome.next.injEq]
    have hlen : s.len + 8#8 + 8#8 * BitVec.ofNat 8 ms.length = s.len + 8#8 * BitVec.ofNat 8 (ms.length + 1) := by
      rw [show BitVec.ofNat 8 (ms.length + 1) = BitVec.ofNat 8 ms.length + 1#8 from BitVec.ofNat_add ..]
      generalize BitVec.ofNat 8 ms.length = n
      rw [BitVec.mul_add]; simp only [BitVec.mul_one]
      rw [BitVec.add_assoc, BitVec.add_comm (8#8)]
    simp [State.hashAbsorb, State.respond, hlen, List.replicate_succ']

theorem messageBlocks_length (p : List Byte) : (messageBlocks p).length = p.length / 8 := by
  induction p using messageBlocks.induct with
  | case1 b0 b1 b2 b3 b4 b5 b6 b7 rest ih => simp only [messageBlocks, List.length_cons, ih]; omega
  | case2 p h =>
    have : p.length < 8 := by
      by_contra hc
      match p, hc with
      | b0 :: b1 :: b2 :: b3 :: b4 :: b5 :: b6 :: b7 :: rest, _ => exact h b0 b1 b2 b3 b4 b5 b6 b7 rest rfl
      | [], hc | [_], hc | [_, _], hc | [_, _, _], hc | [_, _, _, _], hc | [_, _, _, _, _], hc
      | [_, _, _, _, _, _], hc | [_, _, _, _, _, _, _], hc => simp at hc
    have h0 : messageBlocks p = [] := by
      unfold messageBlocks
      split
      · next b0 b1 b2 b3 b4 b5 b6 b7 rest => exact absurd rfl (h b0 b1 b2 b3 b4 b5 b6 b7 rest)
      · rfl
    rw [h0, List.length_nil]; omega

theorem trailingBytes_length (p : List Byte) : (trailingBytes p).length = p.length % 8 := by
  induction p using trailingBytes.induct with
  | case1 _ _ _ _ _ _ _ _ rest ih => simp only [trailingBytes, List.length_cons, ih]; omega
  | case2 p h =>
    have hlt : p.length < 8 := by
      by_contra hc
      match p, hc with
      | b0 :: b1 :: b2 :: b3 :: b4 :: b5 :: b6 :: b7 :: rest, _ => exact h b0 b1 b2 b3 b4 b5 b6 b7 rest rfl
      | [], hc | [_], hc | [_, _], hc | [_, _, _], hc | [_, _, _, _], hc | [_, _, _, _, _], hc
      | [_, _, _, _, _, _], hc | [_, _, _, _, _, _, _], hc => simp at hc
    have h0 : trailingBytes p = p := by
      unfold trailingBytes
      split
      · next b0 b1 b2 b3 b4 b5 b6 b7 rest => exact absurd rfl (h b0 b1 b2 b3 b4 b5 b6 b7 rest)
      · rfl
    rw [h0, Nat.mod_eq_of_lt hlt]

/-- `LE64` of `n <= 8` bytes lies in the low `8n` bits (20_memory.md R51). -/
theorem le64_lt (bs : List Byte) (h : bs.length ≤ 8) : (le64 bs).toNat < 2 ^ (8 * bs.length) := by
  induction bs with
  | nil => simp [le64]
  | cons b bs ih =>
    have hl : bs.length ≤ 7 := by rw [List.length_cons] at h; omega
    have hi := ih (by omega)
    have hb : b.toNat < 256 := b.isLt
    have hpow : 8 * (b :: bs).length = 8 * bs.length + 8 := by rw [List.length_cons]; omega
    rw [le64, BitVec.toNat_or, hpow]
    apply Nat.or_lt_two_pow
    · rw [BitVec.toNat_setWidth, Nat.mod_eq_of_lt (by omega)]
      calc b.toNat < 2 ^ 8 := hb
        _ ≤ 2 ^ (8 * bs.length + 8) := Nat.pow_le_pow_right (by decide) (by omega)
    · rw [BitVec.toNat_shiftLeft, Nat.shiftLeft_eq]
      refine Nat.lt_of_le_of_lt (Nat.mod_le _ _) ?_
      rw [Nat.pow_add]
      exact Nat.mul_lt_mul_of_pos_right hi (by decide)

/-- The tail operand of a message's H_FINAL fits its count, so the command is well-formed (30_encoding.md R74). -/
theorem tailOperand_fits (p : List Byte) : tailFits (tailCount p) (tailOperand p) = true := by
  have hl := trailingBytes_length p
  have hm : p.length % 8 < 8 := Nat.mod_lt _ (by decide)
  have h := le64_lt (trailingBytes p) (by omega)
  rw [hl] at h
  have hc : (tailCount p).toNat = p.length % 8 := by
    rw [tailCount, BitVec.toNat_ofNat]; exact Nat.mod_eq_of_lt hm
  rw [tailFits, hc, beq_iff_eq]
  apply BitVec.eq_of_toNat_eq
  rw [BitVec.toNat_ushiftRight, Nat.shiftRight_eq_div_pow, tailOperand, Nat.div_eq_of_lt h]
  rfl

/-- H_FINAL in phase ABSORB with operands that fit completes (40_hash_mixer.md R97). -/
theorem execHFinal_eq (n : BitVec 3) (tail : Word) (s : State) (hf : tailFits n tail = true) (h : s.hphase = .absorb) :
    execHFinal n tail s = .next ((s.hashFinal n tail).respond ⟨0#8, (s.hashFinal n tail).digest⟩) := by
  simp [execHFinal, hf, h, reply]

/-- A whole message, from any state: H_INIT, the blocks, H_FINAL all complete (30_encoding.md R82). -/
theorem hashMessage_eq (p : List Byte) (s : State) :
    ∃ u : State, hashMessage p s = .next ((u.hashFinal (tailCount p) (tailOperand p)).respond
        ⟨0#8, (u.hashFinal (tailCount p) (tailOperand p)).digest⟩) ∧
      u = { s.hashInit with
        v := (messageBlocks p).foldl (absorbWord s.params) (initialWords s.params)
        len := 8#8 * BitVec.ofNat 8 (p.length / 8)
        rsps := List.replicate (p.length / 8 + 1) ⟨0#8, 0#64⟩ ++ s.rsps } := by
  refine ⟨_, ?_, rfl⟩
  have h1 : execHInit s = .next (s.hashInit.respond ⟨0#8, 0#64⟩) := rfl
  rw [hashMessage, h1, andThen_next, absorbBlocks_eq _ _ (by simp), andThen_next,
    execHFinal_eq _ _ _ (tailOperand_fits p) (by simp)]
  have hw : s.hashInit.respond ⟨0#8, 0#64⟩ = { s.hashInit with rsps := ⟨0#8, 0#64⟩ :: s.rsps } := rfl
  rw [hw]
  simp [messageBlocks_length, List.replicate_succ']

end Sys2Proof.Machine
end

