-- ==== Sys2Proof/Laws/Exec.lean ====
section
/-! SUPPORT. What one command can do, said once: it raises an error, or it completes with its own effect, or it meets the
source's undefined lane index. Statements over all instructions follow from exec_command and the pseudo-commands' sequences. -/

namespace Sys2Proof.Machine

/-- `Effect i s u d`: command `i`, completing without error in state `s`, leaves `u` (before its response) and answers
`d`. The premises are the checks it passed. -/
inductive Effect : Instr → State → State → Word → Prop where
  | nop (s : State) : Effect .nop s s 0#64
  | reset (s : State) : Effect .reset s s.toReset 0#64
  | cfg (s : State) (e : BitVec 6) (n : BitVec 7) (h : configLegal s.params e n = true) :
      Effect (.cfg e n) s (s.configure e n) 0#64
  | csrRd (s : State) (c : Csr) : Effect (.csrRd c) s s (s.csrValue c)
  | errClr (s : State) : Effect .errClr s s.clearError 0#64
  | hInit (s : State) : Effect .hInit s s.hashInit 0#64
  | hAbsorb (s : State) (m : Word) (h : s.hphase = .absorb) : Effect (.hAbsorb m) s (s.hashAbsorb m) 0#64
  | hFinal (s : State) (n : BitVec 3) (d : Word) (h : s.hphase = .absorb) :
      Effect (.hFinal n d) s (s.hashFinal n d) (s.hashFinal n d).digest
  | pGen (s : State) (hc : s.cfgValid = true) (h : s.hphase = .done) : Effect .pGen s s.genLanes 0#64
  | idxWr (s : State) (j : Lane) (x : Word) (hj : j.toNat < s.params.kMax) (hc : s.cfgValid = true)
      (hx : x.toNat < 2 ^ s.exp.toNat) : Effect (.idxWr j x) s (s.writeLane j x) 0#64
  | idxClr (s : State) : Effect .idxClr s s.dropLanes 0#64
  | bSet (s : State) (hc : s.cfgValid = true) (hl : s.lanesInRange = true) : Effect .bSet s s.setLanes 0#64
  | bTest (s : State) (hc : s.cfgValid = true) (hl : s.lanesInRange = true) :
      Effect .bTest s s.recordTest (resultData s.testedAll)
  | bClear (s : State) (hc : s.cfgValid = true) : Effect .bClear s s.clearArray 0#64
  | mRd (s : State) (a : Word) (hc : s.cfgValid = true) (ha : a.toNat < s.byteCount) :
      Effect (.mRd a) s s ((s.mem.read a.toNat).setWidth 64)
  | mWr (s : State) (a : Word) (v : Byte) (hc : s.cfgValid = true) (ha : a.toNat < s.byteCount) :
      Effect (.mWr a v) s { s with mem := s.mem.write a.toNat v } 0#64
  | fAdd (s : State) (hc : s.cfgValid = true) (h : s.hphase = .done) : Effect .fAdd s s.genLanes.setLanes 0#64
  | fHas (s : State) (hc : s.cfgValid = true) (h : s.hphase = .done) :
      Effect .fHas s s.genLanes.recordTest (resultData s.genLanes.testedAll)

/-- Everything one of the 18 commands can answer. -/
theorem exec_command (i : Instr) (s : State) (hi : i.isPseudo = false) :
    (∃ e : ErrCode, exec i s = .next (s.takeError i.opcode e)) ∨
    (∃ (u : State) (d : Word), Effect i s u d ∧ exec i s = .next (u.respond ⟨0#8, d⟩)) ∨
    (exec i s = .fault .laneIndexOutOfRange ∧ s.lanesInRange = false) := by
  cases i with
  | nop => exact .inr (.inl ⟨_, _, .nop s, rfl⟩)
  | reset => exact .inr (.inl ⟨_, _, .reset s, rfl⟩)
  | cfg e n =>
    cases h : configLegal s.params e n
    · exact .inl ⟨.invalidConfiguration, by simp [exec, execCfg, h, raise, Instr.opcode]⟩
    · exact .inr (.inl ⟨_, _, .cfg s e n h, by simp [exec, execCfg, h, reply]⟩)
  | csrRd c =>
    simp only [exec, execCsrRd]
    split
    · exact .inl ⟨.illegalCommand, rfl⟩
    · split
      · exact .inl ⟨.notConfigured, rfl⟩
      · split
        · exact .inl ⟨.protocol, rfl⟩
        · exact .inr (.inl ⟨_, _, .csrRd s c, rfl⟩)
  | errClr => exact .inr (.inl ⟨_, _, .errClr s, rfl⟩)
  | hInit => exact .inr (.inl ⟨_, _, .hInit s, rfl⟩)
  | hAbsorb m =>
    by_cases h : s.hphase = .absorb
    · exact .inr (.inl ⟨_, _, .hAbsorb s m h, by simp [exec, execHAbsorb, h, reply]⟩)
    · exact .inl ⟨.protocol, by simp [exec, execHAbsorb, h, raise, Instr.opcode]⟩
  | hFinal n d =>
    cases hf : tailFits n d
    · exact .inl ⟨.illegalCommand, by simp [exec, execHFinal, hf, raise, Instr.opcode]⟩
    · by_cases h : s.hphase = .absorb
      · exact .inr (.inl ⟨_, _, .hFinal s n d h, execHFinal_eq n d s hf h⟩)
      · exact .inl ⟨.protocol, by simp [exec, execHFinal, hf, h, raise, Instr.opcode]⟩
  | pGen =>
    rcases withDigest_cases s opPGen (fun s => reply s.genLanes 0#64) with ⟨_, h⟩ | ⟨_, _, h⟩ | ⟨hc, hp, h⟩
    · exact .inl ⟨_, h⟩
    · exact .inl ⟨_, h⟩
    · exact .inr (.inl ⟨_, _, .pGen s hc hp, h⟩)
  | idxWr j x =>
    by_cases hj : j.toNat < s.params.kMax
    · have hl : laneExists s.params j = true := by simpa [laneExists] using hj
      rcases withConfig_cases s opIdxWr (fun s =>
          if s.bitCount ≤ x.toNat then raise s opIdxWr .indexRange else reply (s.writeLane j x) 0#64) with
        ⟨_, h⟩ | ⟨hc, h⟩
      · exact .inl ⟨.notConfigured, by simp only [exec, execIdxWr, hl, Bool.not_true, Bool.false_eq_true, if_false]; exact h⟩
      · by_cases hx : s.bitCount ≤ x.toNat
        · refine .inl ⟨.indexRange, ?_⟩
          simp only [exec, execIdxWr, hl, Bool.not_true, Bool.false_eq_true, if_false]
          rw [h, if_pos hx]; rfl
        · refine .inr (.inl ⟨_, _, .idxWr s j x hj hc (Nat.lt_of_not_le hx), ?_⟩)
          simp only [exec, execIdxWr, hl, Bool.not_true, Bool.false_eq_true, if_false]
          rw [h, if_neg hx]; rfl
    · exact .inl ⟨.illegalCommand, by simp [exec, execIdxWr, laneExists, hj, raise, Instr.opcode]⟩
  | idxClr => exact .inr (.inl ⟨_, _, .idxClr s, rfl⟩)
  | bSet =>
    rcases withConfig_cases s opBSet setValidLanes with ⟨_, h⟩ | ⟨hc, h⟩
    · exact .inl ⟨_, h⟩
    · rcases setValidLanes_cases s with ⟨hl, h'⟩ | ⟨hl, h'⟩
      · exact .inr (.inl ⟨_, _, .bSet s hc hl, h.trans h'⟩)
      · exact .inr (.inr ⟨h.trans h', hl⟩)
  | bTest =>
    rcases withConfig_cases s opBTest testValidLanes with ⟨_, h⟩ | ⟨hc, h⟩
    · exact .inl ⟨_, h⟩
    · rcases testValidLanes_cases s with ⟨hl, h'⟩ | ⟨hl, h'⟩
      · exact .inr (.inl ⟨_, _, .bTest s hc hl, h.trans h'⟩)
      · exact .inr (.inr ⟨h.trans h', hl⟩)
  | bClear =>
    rcases withConfig_cases s opBClear (fun s => reply s.clearArray 0#64) with ⟨_, h⟩ | ⟨hc, h⟩
    · exact .inl ⟨_, h⟩
    · exact .inr (.inl ⟨_, _, .bClear s hc, h⟩)
  | mRd a =>
    rcases withByte_cases s opMRd a (fun s => reply s ((s.mem.read a.toNat).setWidth 64)) with
      ⟨_, h⟩ | ⟨_, _, h⟩ | ⟨hc, ha, h⟩
    · exact .inl ⟨_, h⟩
    · exact .inl ⟨_, h⟩
    · exact .inr (.inl ⟨_, _, .mRd s a hc ha, h⟩)
  | mWr a v =>
    rcases withByte_cases s opMWr a (fun s => reply { s with mem := s.mem.write a.toNat v } 0#64) with
      ⟨_, h⟩ | ⟨_, _, h⟩ | ⟨hc, ha, h⟩
    · exact .inl ⟨_, h⟩
    · exact .inl ⟨_, h⟩
    · exact .inr (.inl ⟨_, _, .mWr s a v hc ha, h⟩)
  | fAdd =>
    rcases withDigest_cases s opFAdd (fun s => setValidLanes s.genLanes) with ⟨_, h⟩ | ⟨_, _, h⟩ | ⟨hc, hp, h⟩
    · exact .inl ⟨_, h⟩
    · exact .inl ⟨_, h⟩
    · rcases setValidLanes_cases s.genLanes with ⟨_, h'⟩ | ⟨hl, _⟩
      · exact .inr (.inl ⟨_, _, .fAdd s hc hp, h.trans h'⟩)
      · rw [lanesInRange_genLanes] at hl; cases hl
  | fHas =>
    rcases withDigest_cases s opFHas (fun s => testValidLanes s.genLanes) with ⟨_, h⟩ | ⟨_, _, h⟩ | ⟨hc, hp, h⟩
    · exact .inl ⟨_, h⟩
    · exact .inl ⟨_, h⟩
    · rcases testValidLanes_cases s.genLanes with ⟨_, h'⟩ | ⟨hl, _⟩
      · exact .inr (.inl ⟨_, _, .fHas s hc hp, h.trans h'⟩)
      · rw [lanesInRange_genLanes] at hl; cases hl
  | new _ _ => cases hi
  | hash _ => cases hi
  | add _ => cases hi
  | has _ => cases hi
  | clear => cases hi

theorem ErrCode.code_ne_zero (e : ErrCode) : e.code ≠ 0#8 := by cases e <;> decide

/-- A pseudo-command's meaning is the run of its expansion's commands (30_encoding.md R81 to R85). -/
theorem exec_pseudo (i : Instr) (s : State) (hi : i.isPseudo = true) : exec i s = runAll (expand i) s := by
  have hb : ∀ (ms : List Word) (tl : List Instr) (s : State),
      runAll (ms.map .hAbsorb ++ tl) s = andThen (absorbBlocks ms s) (runAll tl) := by
    intro ms
    induction ms with
    | nil => intro tl s; rfl
    | cons m ms ih =>
      intro tl s
      show andThen (exec (.hAbsorb m) s) (runAll (ms.map .hAbsorb ++ tl)) = andThen (absorbBlocks (m :: ms) s) (runAll tl)
      rw [absorbBlocks]
      cases h : execHAbsorb m s with
      | next u => simp [exec, h, andThen, ih]
      | fault r => simp [exec, h, andThen]
      | refused r => simp [exec, h, andThen]
  have hm : ∀ (m : List Byte) (tl : List Instr) (s : State),
      runAll (hashCommands m ++ tl) s = andThen (hashMessage m s) (runAll tl) := by
    intro m tl s
    have h1 : execHInit s = .next (s.hashInit.respond ⟨0#8, 0#64⟩) := rfl
    have : hashCommands m ++ tl = .hInit :: ((messageBlocks m).map .hAbsorb ++ (.hFinal (tailCount m) (tailOperand m) :: tl)) := by
      simp [hashCommands]
    rw [this, runAll, exec, h1, andThen_next, hb, hashMessage, h1, andThen_next]
    cases h : absorbBlocks (messageBlocks m) (s.hashInit.respond ⟨0#8, 0#64⟩) <;> simp [andThen, runAll, exec]
  have ht : ∀ (f : Instr) (s : State), runAll [f] s = exec f s := by
    intro f s; simp only [runAll, andThen]; cases exec f s <;> rfl
  cases i with
  | new e n => rw [expand, ht]; rfl
  | hash m => 
    have := hm m [] s
    rw [List.append_nil] at this
    rw [expand, this, exec, execHash]
    cases hashMessage m s <;> rfl
  | add m => 
    rw [expand, hm, exec, execAdd]
    cases hashMessage m s <;> simp [andThen, ht, exec]
  | has m => 
    rw [expand, hm, exec, execHas]
    cases hashMessage m s <;> simp [andThen, ht, exec]
  | clear => rw [expand, ht]; rfl
  | _ => cases hi

/-! ### The host's stream -/

/-- The outcome with the host's stream replaced. -/
def withHost (h : List HostInput) : Outcome → Outcome
  | .next s => .next { s with host := h }
  | .fault r => .fault r
  | .refused r => .refused r

theorem withHost_ite (h) (c : Prop) [Decidable c] (a b : Outcome) : withHost h (if c then a else b) = if c then withHost h a else withHost h b := by split <;> rfl

theorem genLanes_host (s : State) (h : List HostInput) :
    ({ s with host := h } : State).genLanes = { s.genLanes with host := h } := by
  unfold State.genLanes State.loadLanes
  have : ({ s with host := h } : State).probeAt = s.probeAt := rfl
  rw [this]
theorem lanesInRange_host (s : State) (h : List HostInput) :
    ({ s with host := h } : State).lanesInRange = s.lanesInRange := rfl

theorem setValidLanes_host (s : State) (h : List HostInput) : setValidLanes { s with host := h } = withHost h (setValidLanes s) := by
  unfold setValidLanes; rw [withHost_ite]; rfl
theorem testValidLanes_host (s : State) (h : List HostInput) : testValidLanes { s with host := h } = withHost h (testValidLanes s) := by
  unfold testValidLanes State.recordTest reply State.respond; rw [withHost_ite, lanesInRange_host]
  have h1 : ({ s with host := h } : State).testedAll = s.testedAll := rfl
  have h2 : ({ s with host := h } : State).testedBits = s.testedBits := rfl
  rw [h1, h2]; rfl

/-- No command reads or changes the host's stream (70_reset_and_hazards.md R198). -/
theorem exec_host (i : Instr) (s : State) (h : List HostInput) (hi : i.isPseudo = false) :
    exec i { s with host := h } = withHost h (exec i s) := by
  cases i with
  | cfg e n => simp only [exec, execCfg]; rw [withHost_ite]; rfl
  | csrRd c => simp only [exec, execCsrRd]; rw [withHost_ite, withHost_ite, withHost_ite]; cases c <;> rfl
  | hAbsorb => simp only [exec, execHAbsorb]; rw [withHost_ite]; rfl
  | hFinal => simp only [exec, execHFinal]; rw [withHost_ite, withHost_ite]; rfl
  | idxWr => simp only [exec, execIdxWr, withConfig]; rw [withHost_ite, withHost_ite, withHost_ite]; rfl
  | pGen => simp only [exec, execPGen, withDigest]; rw [withHost_ite, withHost_ite, genLanes_host]; rfl
  | fAdd => simp only [exec, execFAdd, withDigest]; rw [withHost_ite, withHost_ite, genLanes_host, setValidLanes_host]; rfl
  | fHas => simp only [exec, execFHas, withDigest]; rw [withHost_ite, withHost_ite, genLanes_host, testValidLanes_host]; rfl
  | bSet => simp only [exec, execBSet, withConfig]; rw [withHost_ite, setValidLanes_host]; rfl
  | bTest => simp only [exec, execBTest, withConfig]; rw [withHost_ite, testValidLanes_host]; rfl
  | bClear => simp only [exec, execBClear, withConfig]; rw [withHost_ite]; rfl
  | mRd => simp only [exec, execMRd, withByte, withConfig]; rw [withHost_ite, withHost_ite]; rfl
  | mWr => simp only [exec, execMWr, withByte, withConfig]; rw [withHost_ite, withHost_ite]; rfl
  | new _ _ => cases hi
  | hash _ => cases hi
  | add _ => cases hi
  | has _ => cases hi
  | clear => cases hi
  | _ => rfl

end Sys2Proof.Machine
end

