-- ==== Sys2Proof/Laws/F64.lean ====
section
/-! SUPPORT. Rounding to `f64`: every exact result has one rounded result, within half a unit in the last place, and a
number of `f64` is its own. -/

namespace Sys2Proof.Machine

theorem two_zpow_pos (e : ℤ) : (0 : ℝ) < 2 ^ e := zpow_pos (by norm_num) e

/-! ### The operations on finite numbers -/

@[simp] theorem F64.lt_fin (x c : ℝ) : (F64.fin x).lt c ↔ x < c := Iff.rfl
@[simp] theorem F64.le_fin (x c : ℝ) : (F64.fin x).le c ↔ x ≤ c := Iff.rfl
@[simp] theorem F64.not_lt_nan (c : ℝ) : ¬ F64.nan.lt c := id
@[simp] theorem F64.not_le_nan (c : ℝ) : ¬ F64.nan.le c := id
@[simp] theorem F64.lt_inf (s : Bool) (c : ℝ) : (F64.inf s).lt c ↔ s = true := Iff.rfl
@[simp] theorem F64.le_inf (s : Bool) (c : ℝ) : (F64.inf s).le c ↔ s = true := Iff.rfl

theorem negatesTo_fin (x : ℝ) (b : F64) : NegatesTo (.fin x) b ↔ b = .fin (-x) := Iff.rfl
theorem multipliesTo_fin (x y : ℝ) (c : F64) : MultipliesTo (.fin x) (.fin y) c ↔ RoundsTo (x * y) c := Iff.rfl
theorem dividesTo_fin (x y : ℝ) (c : F64) : DividesTo (.fin x) (.fin y) c ↔ y ≠ 0 ∧ RoundsTo (x / y) c := Iff.rfl

/-! ### The last place -/

theorem exists_isScale (x : ℝ) : ∃ e : ℤ, IsScale x e := by
  by_cases hs : |x| < 2 ^ 53 * (2 : ℝ) ^ (-1074 : ℤ)
  · exact ⟨-1074, le_refl _, hs, .inr rfl⟩
  · have hx : 0 < |x| := lt_of_lt_of_le (by positivity) (not_lt.mp hs)
    obtain ⟨n, h1, h2⟩ := exists_mem_Ico_zpow hx (by norm_num : (1 : ℝ) < 2)
    have hlo : 2 ^ 52 * (2 : ℝ) ^ (n - 52) = 2 ^ n := by
      rw [show (2 : ℝ) ^ 52 = (2 : ℝ) ^ (52 : ℤ) by norm_num, ← zpow_add₀ (by norm_num)]; congr 1; ring
    have hhi : 2 ^ 53 * (2 : ℝ) ^ (n - 52) = 2 ^ (n + 1) := by
      rw [show (2 : ℝ) ^ 53 = (2 : ℝ) ^ (53 : ℤ) by norm_num, ← zpow_add₀ (by norm_num)]; congr 1; ring
    refine ⟨n - 52, ?_, hhi ▸ h2, .inl (hlo ▸ h1)⟩
    by_contra hc
    refine hs (lt_of_lt_of_le h2 ?_)
    rw [← hhi]
    exact mul_le_mul_of_nonneg_left (zpow_le_zpow_right₀ (by norm_num) (by omega)) (by norm_num)

/-- A number below the last place's 53 bits has no larger last place. -/
theorem IsScale.le {x : ℝ} {e d : ℤ} (h : IsScale x e) (hd : -1074 ≤ d) (hx : |x| < 2 ^ 53 * (2 : ℝ) ^ d) : e ≤ d := by
  rcases h.2.2 with hlo | he
  · by_contra hc
    have h1 : (2 : ℝ) ^ (d + 1) ≤ 2 ^ e := zpow_le_zpow_right₀ (by norm_num) (by omega)
    rw [zpow_add_one₀ (by norm_num)] at h1
    linarith
  · omega

theorem IsScale.unique {x : ℝ} {e d : ℤ} (h : IsScale x e) (h' : IsScale x d) : e = d :=
  le_antisymm (h.le h'.1 h'.2.1) (h'.le h.1 h.2.1)

/-! ### The nearest integer -/

theorem exists_nearestEven (q : ℝ) : ∃ m : ℤ, NearestEven q m := by
  have h0 := Int.floor_le q
  have h1 := Int.lt_floor_add_one q
  rcases lt_trichotomy (q - ⌊q⌋) (1 / 2) with h | h | h
  · have : |q - ⌊q⌋| < 1 / 2 := abs_lt.mpr ⟨by linarith, h⟩
    exact ⟨⌊q⌋, this.le, fun he => absurd he this.ne⟩
  · rcases Int.even_or_odd ⌊q⌋ with he | ho
    · exact ⟨⌊q⌋, by rw [h]; norm_num, fun _ => he⟩
    · refine ⟨⌊q⌋ + 1, ?_, fun _ => ho.add_odd odd_one⟩
      rw [show q - ((⌊q⌋ + 1 : ℤ) : ℝ) = -(1 / 2) by push_cast; linarith]
      norm_num
  · have : |q - ((⌊q⌋ + 1 : ℤ) : ℝ)| < 1 / 2 := by push_cast; exact abs_lt.mpr ⟨by linarith, by linarith⟩
    exact ⟨⌊q⌋ + 1, this.le, fun he => absurd he this.ne⟩

theorem NearestEven.unique {q : ℝ} {m n : ℤ} (h : NearestEven q m) (h' : NearestEven q n) : m = n := by
  wlog hmn : m < n generalizing m n
  · by_contra hne
    exact hne (this h' h (by omega)).symm
  exfalso
  have h1 := abs_le.mp h.1
  have h2 := abs_le.mp h'.1
  have h3 : (m : ℝ) + 1 ≤ n := by exact_mod_cast hmn
  have e1 := h.2 (by rw [abs_of_nonneg] <;> linarith)
  have e2 := h'.2 (by rw [abs_of_nonpos] <;> linarith)
  have h4 : n = m + 1 := by
    have : (n : ℝ) = m + 1 := by linarith
    exact_mod_cast this
  rw [h4, Int.even_add_one] at e2
  exact e2 e1

/-! ### Rounding -/

theorem exists_roundsTo (x : ℝ) : ∃ y : F64, RoundsTo x y := by
  obtain ⟨e, he⟩ := exists_isScale x
  obtain ⟨m, hm⟩ := exists_nearestEven (x / 2 ^ e)
  by_cases h : |m * (2 : ℝ) ^ e| < 2 ^ 1024
  · exact ⟨_, e, m, he, hm, .inl ⟨h, rfl⟩⟩
  · exact ⟨_, e, m, he, hm, .inr ⟨not_lt.mp h, rfl⟩⟩

theorem RoundsTo.unique {x : ℝ} {y z : F64} (h : RoundsTo x y) (h' : RoundsTo x z) : y = z := by
  obtain ⟨e, m, he, hm, h⟩ := h
  obtain ⟨d, n, hd, hn, h'⟩ := h'
  obtain rfl := he.unique hd
  obtain rfl := hm.unique hn
  rcases h with ⟨hl, rfl⟩ | ⟨hl, rfl⟩ <;> rcases h' with ⟨hl', rfl⟩ | ⟨hl', rfl⟩
  · rfl
  · exact absurd hl (not_lt.mpr hl')
  · exact absurd hl' (not_lt.mpr hl)
  · rfl

/-- A number of `f64` rounds to itself. -/
theorem roundsTo_self {x : ℝ} (h : IsBinary64 x) : RoundsTo x (.fin x) := by
  obtain ⟨m, e, hm, he, he', rfl⟩ := h
  have hm' : |(m : ℝ)| < 2 ^ 53 := by rw [← Int.cast_abs]; exact_mod_cast hm
  have hx : |(m : ℝ) * 2 ^ e| < 2 ^ 53 * (2 : ℝ) ^ e := by
    rw [abs_mul, abs_of_pos (two_zpow_pos e)]
    exact mul_lt_mul_of_pos_right hm' (two_zpow_pos e)
  obtain ⟨d, hd⟩ := exists_isScale ((m : ℝ) * 2 ^ e)
  obtain ⟨n, rfl⟩ := Int.le.dest (hd.le he hx)
  have hq : (m : ℝ) * 2 ^ (d + n : ℤ) = ((m * 2 ^ n : ℤ) : ℝ) * 2 ^ d := by
    rw [zpow_add₀ (by norm_num)]; push_cast; rw [zpow_natCast]; ring
  refine ⟨d, m * 2 ^ n, hd, ?_, .inl ⟨?_, by rw [hq]⟩⟩
  · rw [hq, mul_div_cancel_right₀ _ (two_zpow_pos d).ne', NearestEven, sub_self, abs_zero]
    norm_num
  · rw [← hq]
    refine hx.trans_le ?_
    have h971 : (2 : ℝ) ^ (d + n : ℤ) ≤ 2 ^ (971 : ℤ) := zpow_le_zpow_right₀ (by norm_num) he'
    calc (2 : ℝ) ^ 53 * 2 ^ (d + n : ℤ) ≤ 2 ^ 53 * 2 ^ (971 : ℤ) := mul_le_mul_of_nonneg_left h971 (by norm_num)
      _ = 2 ^ 1024 := by rw [show (2 : ℝ) ^ (971 : ℤ) = 2 ^ (971 : ℕ) from zpow_natCast 2 971, ← pow_add]

/-- Every result of an operation is a value of `f64`. -/
theorem RoundsTo.wf {x : ℝ} {y : F64} (h : RoundsTo x y) : y.wf := by
  obtain ⟨e, m, he, hm, ⟨hl, rfl⟩ | ⟨-, rfl⟩⟩ := h
  · have hq : |x / 2 ^ e| < 2 ^ 53 := by
      rw [abs_div, abs_of_pos (two_zpow_pos e), div_lt_iff₀ (two_zpow_pos e)]; exact he.2.1
    have hm53 : |m| ≤ 2 ^ 53 := by
      have h1 := abs_sub_abs_le_abs_sub (m : ℝ) (x / 2 ^ e)
      rw [abs_sub_comm] at h1
      have h2 : |(m : ℝ)| < 2 ^ 53 + 1 := by linarith [hm.1]
      have h3 : |m| < 2 ^ 53 + 1 := by exact_mod_cast h2
      omega
    have lt971 : ∀ d k : ℤ, 2 ^ 52 ≤ |k| → |(k : ℝ) * 2 ^ d| < 2 ^ 1024 → d ≤ 971 := by
      intro d k hk hl
      by_contra hc
      have h1 : (2 : ℝ) ^ (972 : ℤ) ≤ 2 ^ d := zpow_le_zpow_right₀ (by norm_num) (by omega)
      have h2 : (2 : ℝ) ^ 52 ≤ |(k : ℝ)| := by rw [← Int.cast_abs]; exact_mod_cast hk
      rw [abs_mul, abs_of_pos (two_zpow_pos d)] at hl
      have h3 : (2 : ℝ) ^ 1024 ≤ |(k : ℝ)| * 2 ^ d :=
        calc (2 : ℝ) ^ 1024 = 2 ^ 52 * 2 ^ (972 : ℤ) := by
              rw [show (2 : ℝ) ^ (972 : ℤ) = 2 ^ (972 : ℕ) from zpow_natCast 2 972, ← pow_add]
          _ ≤ |(k : ℝ)| * 2 ^ d := mul_le_mul h2 h1 (two_zpow_pos _).le (abs_nonneg _)
      exact absurd hl (not_lt.mpr h3)
    by_cases h53 : |m| < 2 ^ 53
    · refine ⟨m, e, h53, he.1, ?_, rfl⟩
      rcases he.2.2 with hlo | rfl
      · refine lt971 e m ?_ hl
        have h1 : (2 : ℝ) ^ 52 ≤ |x / 2 ^ e| := by
          rw [abs_div, abs_of_pos (two_zpow_pos e), le_div_iff₀ (two_zpow_pos e)]; exact hlo
        have h2 := abs_sub_abs_le_abs_sub (x / 2 ^ e) (m : ℝ)
        have h3 : (2 : ℝ) ^ 52 - 1 < |(m : ℝ)| := by linarith [hm.1]
        have h4 : 2 ^ 52 - 1 < |m| := by rw [← Int.cast_abs] at h3; exact_mod_cast h3
        omega
      · norm_num
    · have hm' : |m| = 2 ^ 53 := le_antisymm hm53 (not_lt.mp h53)
      obtain ⟨k, rfl, hk⟩ : ∃ k, m = 2 * k ∧ |k| = 2 ^ 52 := by
        rcases (abs_eq (by norm_num)).mp hm' with rfl | rfl
        · exact ⟨2 ^ 52, by norm_num, by norm_num⟩
        · exact ⟨-2 ^ 52, by norm_num, by norm_num⟩
      have hv : ((2 * k : ℤ) : ℝ) * 2 ^ e = k * 2 ^ (e + 1) := by
        rw [zpow_add_one₀ (by norm_num)]; push_cast; ring
      refine ⟨k, e + 1, by rw [hk]; norm_num, by have := he.1; omega, ?_, hv⟩
      exact lt971 (e + 1) k hk.ge (by rw [← hv]; exact hl)
  · trivial

/-- Everything one rounding can answer below the largest numbers: a finite number within half a unit in the last place,
`2^-53` of the exact result, or half the least number under the normal range. -/
theorem RoundsTo.error {x : ℝ} {y : F64} (h : RoundsTo x y) (hx : |x| ≤ 2 ^ 1023) :
    ∃ v : ℝ, y = .fin v ∧ |v - x| ≤ |x| / 2 ^ 53 + 2 ^ (-1075 : ℤ) ∧
      ((2 : ℝ) ^ (-1022 : ℤ) ≤ |x| → |v - x| ≤ |x| / 2 ^ 53) := by
  obtain ⟨e, m, he, hm, h⟩ := h
  have hp := two_zpow_pos e
  have herr : |(m : ℝ) * 2 ^ e - x| ≤ 2 ^ e / 2 := by
    have h1 : (m : ℝ) * 2 ^ e - x = -(x / 2 ^ e - m) * 2 ^ e := by field_simp; ring
    rw [h1, abs_mul, abs_neg, abs_of_pos hp]
    linarith [mul_le_mul_of_nonneg_right hm.1 hp.le]
  have hrel : 2 ^ 52 * (2 : ℝ) ^ e ≤ |x| → |(m : ℝ) * 2 ^ e - x| ≤ |x| / 2 ^ 53 := fun hlo => by
    rw [le_div_iff₀ (by norm_num)]; linarith
  have hfin : |(m : ℝ) * 2 ^ e| < 2 ^ 1024 := by
    have h1 := abs_sub_abs_le_abs_sub ((m : ℝ) * 2 ^ e) x
    have h2 : (2 : ℝ) ^ 1024 = 2 * 2 ^ 1023 := by rw [← pow_succ']
    have h3 : (1 : ℝ) ≤ 2 ^ 1023 := one_le_pow₀ (by norm_num)
    rw [h2]
    generalize (2 : ℝ) ^ 1023 = limit at hx h3
    rcases he.2.2 with hlo | rfl
    · have := hrel hlo
      have h4 : |x| / 2 ^ 53 ≤ |x| / 2 := div_le_div_of_nonneg_left (abs_nonneg _) (by norm_num) (by norm_num)
      linarith
    · have h4 : (2 : ℝ) ^ (-1074 : ℤ) ≤ 1 := zpow_le_one_of_nonpos₀ (by norm_num) (by norm_num)
      linarith
  rcases h with ⟨-, rfl⟩ | ⟨hl, -⟩
  · refine ⟨_, rfl, ?_, fun hn => hrel ?_⟩
    · have h75 := (two_zpow_pos (-1075)).le
      have hx0 : 0 ≤ |x| / 2 ^ 53 := by positivity
      rcases he.2.2 with hlo | rfl
      · linarith [hrel hlo]
      · have : (2 : ℝ) ^ (-1074 : ℤ) / 2 = 2 ^ (-1075 : ℤ) := by
          rw [show (-1074 : ℤ) = -1075 + 1 by norm_num, zpow_add_one₀ (by norm_num)]; ring
        rw [this] at herr
        linarith
    · rcases he.2.2 with hlo | rfl
      · exact hlo
      · have : (2 : ℝ) ^ 52 * 2 ^ (-1074 : ℤ) = 2 ^ (-1022 : ℤ) := by
          rw [show (2 : ℝ) ^ 52 = (2 : ℝ) ^ (52 : ℤ) by norm_num, ← zpow_add₀ (by norm_num)]; norm_num
        rwa [this]
  · exact absurd hfin (not_lt.mpr hl)

end Sys2Proof.Machine
end

