-- ==== Sys2Proof/Laws/PerInstr.lean ====
section
/-! SUPPORT. The per-instruction family TableRow: every word of a well-formed instruction's encoding matches a row of the
opcode table (30_encoding.md R89). One lemma per constructor of Instr. -/

namespace Sys2Proof

/-- Masking is field by field. -/
theorem cmdWord_and (o o' a a' : Byte) (d d' : Word) :
    cmdWord o a d &&& cmdWord o' a' d' = cmdWord (o &&& o') (a &&& a') (d &&& d') := by
  unfold cmdWord
  apply BitVec.eq_of_getLsbD_eq
  intro i _
  simp only [BitVec.getLsbD_and, BitVec.getLsbD_append]
  split
  · rfl
  · split <;> rfl

/-- A word matches the row of three masks and three values if each field does. -/
theorem selectsRow_fields (o a : Byte) (d : Word) (om am : Byte) (dm : Word) (ov av : Byte) (dv : Word)
    (h : o &&& om = ov) (h' : a &&& am = av) (h'' : d &&& dm = dv) :
    selectsRow (cmdWord o a d) (cmdWord ov av dv, cmdWord om am dm) = true := by
  simp only [selectsRow, cmdWord_and, h, h', h'', beq_self_eq_true]

/-- A tail operand of at most seven bytes has a zero top byte (30_encoding.md R74). -/
theorem tail_top_zero (n : BitVec 3) (d : Word) (h : d.toNat < 2 ^ (8 * n.toNat)) : d &&& 0xff00000000000000#64 = 0#64 := by
  have hn := n.isLt
  have hd : d.toNat < 2 ^ 56 := Nat.lt_of_lt_of_le h (Nat.pow_le_pow_right (by decide) (by omega))
  rw [show (0xff00000000000000#64 : Word) = 0xff#64 <<< 56 by decide]
  apply BitVec.eq_of_getLsbD_eq
  intro i _
  rw [BitVec.getLsbD_and, BitVec.getLsbD_shiftLeft]
  by_cases hi : i < 56
  · simp [hi]
  · have : d.getLsbD i = false := by
      rw [BitVec.getLsbD]
      exact Nat.testBit_lt_two_pow (Nat.lt_of_lt_of_le hd (Nat.pow_le_pow_right (by decide) (by omega)))
    simp [this]

namespace Laws.TableRow

/-- Every word of the instruction's encoding matches a row of the opcode table. -/
def Statement (i : Instr) : Prop :=
  ∀ p : Params, i.wf p = true → ∀ w ∈ encode i, ∃ row ∈ opcodeTable, selectsRow w row = true

/-- A command's one word. -/
theorem of_word (i : Instr) (w : Cmd) (he : encode i = [w]) (row : Cmd × Cmd) (hr : row ∈ opcodeTable)
    (h : selectsRow w row = true) : Statement i := by
  intro p _ w' hw'
  rw [he, List.mem_singleton] at hw'
  subst hw'
  exact ⟨row, hr, h⟩

theorem nop : Statement .nop := of_word _ _ rfl (0x00000000000000000000#80, 0xffffffffffffffffffff#80) (by decide) (by decide)
theorem reset : Statement .reset := of_word _ _ rfl (0x01000000000000000000#80, 0xffffffffffffffffffff#80) (by decide) (by decide)
theorem errClr : Statement .errClr := of_word _ _ rfl (0x04000000000000000000#80, 0xffffffffffffffffffff#80) (by decide) (by decide)
theorem hInit : Statement .hInit := of_word _ _ rfl (0x10000000000000000000#80, 0xffffffffffffffffffff#80) (by decide) (by decide)
theorem pGen : Statement .pGen := of_word _ _ rfl (0x20000000000000000000#80, 0xffffffffffffffffffff#80) (by decide) (by decide)
theorem idxClr : Statement .idxClr := of_word _ _ rfl (0x22000000000000000000#80, 0xffffffffffffffffffff#80) (by decide) (by decide)
theorem bSet : Statement .bSet := of_word _ _ rfl (0x30000000000000000000#80, 0xffffffffffffffffffff#80) (by decide) (by decide)
theorem bTest : Statement .bTest := of_word _ _ rfl (0x31000000000000000000#80, 0xffffffffffffffffffff#80) (by decide) (by decide)
theorem bClear : Statement .bClear := of_word _ _ rfl (0x32000000000000000000#80, 0xffffffffffffffffffff#80) (by decide) (by decide)
theorem fAdd : Statement .fAdd := of_word _ _ rfl (0x40000000000000000000#80, 0xffffffffffffffffffff#80) (by decide) (by decide)
theorem fHas : Statement .fHas := of_word _ _ rfl (0x41000000000000000000#80, 0xffffffffffffffffffff#80) (by decide) (by decide)

theorem cfg (exp : BitVec 6) (k : BitVec 7) : Statement (.cfg exp k) :=
  of_word _ _ rfl (0x02000000000000000000#80, 0xff80ffffffffffffffc0#80) (by decide)
    (selectsRow_fields _ _ _ 0xff#8 0x80#8 0xffffffffffffffc0#64 0x02#8 0#8 0#64 (by decide) (by revert k; decide)
      (by revert exp; decide))

theorem csrRd (c : Csr) : Statement (.csrRd c) :=
  of_word _ _ rfl (0x03000000000000000000#80, 0xff00ffffffffffffffff#80) (by decide)
    (selectsRow_fields _ _ _ 0xff#8 0x00#8 0xffffffffffffffff#64 0x03#8 0#8 0#64 (by decide) (by simp) (by decide))

theorem hAbsorb (m : Word) : Statement (.hAbsorb m) :=
  of_word _ _ rfl (0x11000000000000000000#80, 0xffff0000000000000000#80) (by decide)
    (selectsRow_fields _ _ _ 0xff#8 0xff#8 0#64 0x11#8 0#8 0#64 (by decide) (by decide) (by simp))

theorem hFinal (n : BitVec 3) (d : Word) : Statement (.hFinal n d) := by
  intro p hw
  have hd : d.toNat < 2 ^ (8 * n.toNat) := by simpa [Instr.wf] using hw
  exact of_word _ _ rfl (0x12000000000000000000#80, 0xfff8ff00000000000000#80) (by decide)
    (selectsRow_fields _ _ _ 0xff#8 0xf8#8 0xff00000000000000#64 0x12#8 0#8 0#64 (by decide)
      (by clear hw hd; revert n; decide) (tail_top_zero n d hd)) p hw

theorem idxWr (j : Lane) (x : Word) : Statement (.idxWr j x) :=
  of_word _ _ rfl (0x21000000000000000000#80, 0xffc00000000000000000#80) (by decide)
    (selectsRow_fields _ _ _ 0xff#8 0xc0#8 0#64 0x21#8 0#8 0#64 (by decide) (by revert j; decide) (by simp))

theorem mRd (addr : Word) : Statement (.mRd addr) :=
  of_word _ _ rfl (0x33000000000000000000#80, 0xffff0000000000000000#80) (by decide)
    (selectsRow_fields _ _ _ 0xff#8 0xff#8 0#64 0x33#8 0#8 0#64 (by decide) (by decide) (by simp))

theorem mWr (addr : Word) (v : Byte) : Statement (.mWr addr v) :=
  of_word _ _ rfl (0x34000000000000000000#80, 0xff000000000000000000#80) (by decide)
    (selectsRow_fields _ _ _ 0xff#8 0#8 0#64 0x34#8 0#8 0#64 (by decide) (by simp) (by simp))

theorem new (exp : BitVec 6) (k : BitVec 7) : Statement (.new exp k) := cfg exp k

theorem clear : Statement .clear := bClear

/-- A word of a message's commands. -/
theorem of_hash (bytes : List Byte) (tl : List Instr) (i : Instr) (he : expand i = hashCommands bytes ++ tl)
    (ht : ∀ f ∈ tl, f = .fAdd ∨ f = .fHas) : Statement i := by
  intro p _ w hw
  rw [encode, List.mem_filterMap] at hw
  obtain ⟨c, hc, hw⟩ := hw
  have key : ∀ c : Instr, encode c = (encodeCommand c).toList → c.wf p = true → Statement c →
      encodeCommand c = some w → ∃ row ∈ opcodeTable, selectsRow w row = true := by
    intro c h hwf hs hw
    exact hs p hwf w (by rw [h, hw]; simp)
  rw [he, hashCommands] at hc
  simp only [List.cons_append, List.mem_cons, List.append_assoc, List.mem_append, List.mem_map,
    List.not_mem_nil, false_or] at hc
  rcases hc with rfl | ⟨m, _, rfl⟩ | rfl | hc
  · exact key _ rfl rfl hInit hw
  · exact key _ rfl rfl (hAbsorb m) hw
  · refine key _ rfl ?_ (hFinal _ _) hw
    simpa [Instr.wf] using (tailFits_iff _ _).mp (Machine.tailOperand_fits bytes)
  · rcases ht c hc with rfl | rfl
    · exact key _ rfl rfl fAdd hw
    · exact key _ rfl rfl fHas hw

theorem hash (bytes : List Byte) : Statement (.hash bytes) :=
  of_hash bytes [] _ (by simp [expand]) (by simp)

theorem add (bytes : List Byte) : Statement (.add bytes) :=
  of_hash bytes [.fAdd] _ rfl (by simp)

theorem has (bytes : List Byte) : Statement (.has bytes) :=
  of_hash bytes [.fHas] _ rfl (by simp)

end Laws.TableRow

end Sys2Proof
end

