-- ==== Sys2Proof/Laws/Sizing.lean ====
section
/-! SUPPORT. The host's sizing: every formula has one answer, near the exact one, and every wanted size is rounded to one
power of two. -/

namespace Sys2Proof.Machine

/-! ### Results near the exact one -/

/-- An operation whose exact result is a count `n` times a factor far from the ends of the exponent range answers a finite
number, the exact result times a factor near 1. -/
theorem RoundsTo.factor {n c : ℝ} {y : F64} (h : RoundsTo (n * c) y) (hlo : (2 : ℝ) ^ (-900 : ℤ) ≤ n) (hhi : n ≤ 2 ^ 1000)
    (hc : 1 / 2 ^ 100 ≤ c) (hc' : c ≤ 2 ^ 22) :
    ∃ z : ℝ, (1 - 1 / 2 ^ 52 ≤ z ∧ z ≤ 1 + 1 / 2 ^ 52) ∧ y = .fin (n * (c * z)) := by
  have hn : 0 < n := (two_zpow_pos _).trans_le hlo
  have hc0 : 0 < c := lt_of_lt_of_le (by norm_num) hc
  have hx := mul_pos hn hc0
  have hmax : |n * c| ≤ 2 ^ 1023 := by
    rw [abs_of_pos hx]
    calc n * c ≤ 2 ^ 1000 * 2 ^ 22 := mul_le_mul hhi hc' hc0.le (by positivity)
      _ = 2 ^ 1022 := by rw [← pow_add]
      _ ≤ 2 ^ 1023 := pow_le_pow_right₀ (by norm_num) (by norm_num)
  have hmin : (2 : ℝ) ^ (-1022 : ℤ) ≤ |n * c| := by
    rw [abs_of_pos hx]
    calc (2 : ℝ) ^ (-1022 : ℤ) ≤ 2 ^ (-900 + -100 : ℤ) := zpow_le_zpow_right₀ (by norm_num) (by norm_num)
      _ = 2 ^ (-900 : ℤ) * (1 / 2 ^ 100) := by rw [zpow_add₀ (by norm_num), zpow_neg, zpow_neg]; norm_num
      _ ≤ n * c := mul_le_mul hlo hc (by positivity) hn.le
  obtain ⟨v, rfl, -, hv⟩ := h.error hmax
  have hv := abs_le.mp (hv hmin)
  rw [abs_of_pos hx] at hv
  refine ⟨v / (n * c), ⟨?_, ?_⟩, by rw [← mul_assoc, mul_div_cancel₀ _ hx.ne']⟩
  · rw [le_div_iff₀ hx]; linarith [hv.1]
  · rw [div_le_iff₀ hx]; linarith [hv.2]

/-- The same for an exact result that is no count. -/
theorem RoundsTo.factor_one {c : ℝ} {y : F64} (h : RoundsTo c y) (hc : 1 / 2 ^ 100 ≤ c) (hc' : c ≤ 2 ^ 22) :
    ∃ z : ℝ, (1 - 1 / 2 ^ 52 ≤ z ∧ z ≤ 1 + 1 / 2 ^ 52) ∧ y = .fin (c * z) := by
  have h1 : RoundsTo (1 * c) y := by rwa [one_mul]
  obtain ⟨z, hz, hy⟩ := h1.factor (zpow_le_one_of_nonpos₀ (by norm_num) (by norm_num)) (one_le_pow₀ (by norm_num)) hc hc'
  exact ⟨z, hz, by rwa [one_mul] at hy⟩

/-- The opposite of an exact result rounds to the opposite number. -/
theorem RoundsTo.neg {x : ℝ} {v : ℝ} (h : RoundsTo x (.fin v)) : RoundsTo (-x) (.fin (-v)) := by
  obtain ⟨e, m, he, hm, ⟨hl, h⟩ | ⟨-, h⟩⟩ := h
  · cases h
    refine ⟨e, -m, ?_, ?_, .inl ?_⟩
    · rw [IsScale, abs_neg]; exact he
    · rw [NearestEven, neg_div, Int.cast_neg, ← neg_sub', abs_neg, even_neg]
      exact hm
    · rw [Int.cast_neg, neg_mul, abs_neg]
      exact ⟨hl, rfl⟩
  · cases h

/-- A rounding to a number below 2^53, by its significand and exponent. -/
theorem roundsTo_of_near {x : ℝ} (m : ℤ) (e : ℤ) (he : IsScale x e) (hm : |x / 2 ^ e - m| < 1 / 2) (hx : |x| ≤ 2 ^ 53) :
    RoundsTo x (.fin (m * (2 : ℝ) ^ e)) := by
  obtain ⟨y, d, n, hd, hn, hy⟩ := exists_roundsTo x
  obtain rfl := he.unique hd
  obtain rfl : m = n := NearestEven.unique ⟨hm.le, fun h => absurd h hm.ne⟩ hn
  have hr : RoundsTo x y := ⟨e, m, hd, hn, hy⟩
  obtain ⟨v, rfl, -, -⟩ := hr.error (hx.trans (pow_le_pow_right₀ (by norm_num) (by norm_num)))
  rcases hy with ⟨-, h⟩ | ⟨-, h⟩
  · rwa [h] at hr
  · cases h

/-! ### The logarithm of 2 -/

/-- `ln(2)` to 58 binary places. -/
theorem log_two_near : |Real.log 2 - 6243314768165359 / 2 ^ 53| < 1 / 2 ^ 55 := by
  have h := Real.abs_log_sub_add_sum_range_le (x := 1 / 2) (by norm_num [abs_lt]) 60
  rw [show Real.log (1 - 1 / 2) = -Real.log 2 by rw [← Real.log_inv]; norm_num] at h
  rw [abs_le] at h
  rw [abs_lt]
  norm_num [Finset.sum_range_succ] at h ⊢
  constructor <;> linarith [h.1, h.2]

/-- `ln(2)` in `f64`. -/
theorem logsTo_two : LogsTo 2 (.fin ((6243314768165359 : ℤ) * (2 : ℝ) ^ (-53 : ℤ))) := by
  have h := abs_lt.mp log_two_near
  have h0 : 0 < Real.log 2 := Real.log_pos (by norm_num)
  refine roundsTo_of_near _ _ ⟨by norm_num, ?_, .inl ?_⟩ ?_ ?_
  · rw [abs_of_pos h0]; norm_num at h ⊢; linarith [h.2]
  · rw [abs_of_pos h0]; norm_num at h ⊢; linarith [h.1]
  · rw [abs_lt]; norm_num at h ⊢; constructor <;> linarith [h.1, h.2]
  · rw [abs_of_pos h0]; norm_num at h ⊢; linarith [h.2]

/-- `ln(1/2)` in `f64` is the opposite of `ln(2)`. -/
theorem logsTo_half : LogsTo (1 / 2) (.fin (-((6243314768165359 : ℤ) * (2 : ℝ) ^ (-53 : ℤ)))) := by
  rw [LogsTo, one_div, Real.log_inv]
  exact RoundsTo.neg logsTo_two

/-- `ln(1/4)` in `f64`. -/
theorem logsTo_quarter : LogsTo (1 / 4) (.fin (-((6243314768165359 : ℤ) * (2 : ℝ) ^ (-52 : ℤ)))) := by
  rw [LogsTo, one_div, Real.log_inv, show (4 : ℝ) = 2 ^ 2 by norm_num, Real.log_pow]
  refine RoundsTo.neg ?_
  have h := abs_lt.mp log_two_near
  have h0 : 0 < ((2 : ℕ) : ℝ) * Real.log 2 := mul_pos (by norm_num) (Real.log_pos (by norm_num))
  refine roundsTo_of_near _ _ ⟨by norm_num, ?_, .inl ?_⟩ ?_ ?_
  · rw [abs_of_pos h0]; norm_num at h ⊢; linarith [h.2]
  · rw [abs_of_pos h0]; norm_num at h ⊢; linarith [h.1]
  · rw [abs_lt]; norm_num at h ⊢; constructor <;> linarith [h.1, h.2]
  · rw [abs_of_pos h0]; norm_num at h ⊢; linarith [h.2]

/-- `ln(2)^2` in `f64`. -/
theorem square_log_two : RoundsTo (((6243314768165359 : ℤ) * (2 : ℝ) ^ (-53 : ℤ)) * ((6243314768165359 : ℤ) * (2 : ℝ) ^ (-53 : ℤ)))
    (.fin ((8655072057804174 : ℤ) * (2 : ℝ) ^ (-54 : ℤ))) := by
  refine roundsTo_of_near _ _ ⟨by norm_num, ?_, .inl ?_⟩ ?_ ?_ <;> norm_num [abs_lt]

/-! ### Every formula has one answer (R167) -/

theorem exists_negatesTo (a : F64) : ∃ b : F64, NegatesTo a b := by cases a <;> exact ⟨_, rfl⟩

theorem exists_multipliesTo (a b : F64) : ∃ c : F64, MultipliesTo a b c := by
  have special : ∀ (x : ℝ) (s : Bool),
      ∃ c : F64, (x = 0 ∧ c = .nan) ∨ (0 < x ∧ c = .inf s) ∨ (x < 0 ∧ c = .inf (!s)) := fun x s => by
    rcases lt_trichotomy x 0 with h | h | h
    · exact ⟨_, .inr (.inr ⟨h, rfl⟩)⟩
    · exact ⟨_, .inl ⟨h, rfl⟩⟩
    · exact ⟨_, .inr (.inl ⟨h, rfl⟩)⟩
  rcases a with _ | s | x <;> rcases b with _ | t | y
  case fin.fin => exact exists_roundsTo (x * y)
  case inf.fin => exact special y s
  case fin.inf => exact special x t
  all_goals exact ⟨_, rfl⟩

theorem exists_dividesTo (a b : F64) (h : b ≠ .fin 0) : ∃ c : F64, DividesTo a b c := by
  rcases a with _ | s | x <;> rcases b with _ | t | y
  case fin.fin => exact (exists_roundsTo (x / y)).imp fun _ hz => ⟨fun h0 => h (by rw [h0]), hz⟩
  case inf.fin =>
    rcases lt_or_gt_of_ne (show y ≠ 0 from fun h0 => h (by rw [h0])) with hy | hy
    · exact ⟨_, .inr ⟨hy, rfl⟩⟩
    · exact ⟨_, .inl ⟨hy, rfl⟩⟩
  all_goals exact ⟨_, rfl⟩

theorem NegatesTo.unique {a b b' : F64} (h : NegatesTo a b) (h' : NegatesTo a b') : b = b' := by
  cases a <;> exact h.trans h'.symm

theorem MultipliesTo.unique {a b c c' : F64} (h : MultipliesTo a b c) (h' : MultipliesTo a b c') : c = c' := by
  have special : ∀ {x : ℝ} {s : Bool}, ((x = 0 ∧ c = .nan) ∨ (0 < x ∧ c = .inf s) ∨ (x < 0 ∧ c = .inf (!s))) →
      ((x = 0 ∧ c' = .nan) ∨ (0 < x ∧ c' = .inf s) ∨ (x < 0 ∧ c' = .inf (!s))) → c = c' := by
    rintro x s (⟨h, rfl⟩ | ⟨h, rfl⟩ | ⟨h, rfl⟩) (⟨h', rfl⟩ | ⟨h', rfl⟩ | ⟨h', rfl⟩) <;> first | rfl | (exfalso; linarith)
  rcases a with _ | s | x <;> rcases b with _ | t | y
  case fin.fin => exact RoundsTo.unique h h'
  case inf.fin => exact special h h'
  case fin.inf => exact special h h'
  all_goals exact Eq.trans h (Eq.symm h')

theorem DividesTo.unique {a b c c' : F64} (h : DividesTo a b c) (h' : DividesTo a b c') : c = c' := by
  rcases a with _ | s | x <;> rcases b with _ | t | y
  case fin.fin => exact RoundsTo.unique h.2 h'.2
  case inf.fin =>
    rcases h with ⟨h, rfl⟩ | ⟨h, rfl⟩ <;> rcases h' with ⟨h', rfl⟩ | ⟨h', rfl⟩ <;> first | rfl | (exfalso; linarith)
  all_goals exact Eq.trans h (Eq.symm h')

/-- Derived mode's formula has an answer for every entry count that is not zero. -/
theorem exists_derivedNumbers (n : F64) (rate : ℝ) (hn : n ≠ .fin 0) :
    ∃ rawBits probes : F64, DerivedNumbers n rate rawBits probes := by
  obtain ⟨l, hl⟩ := exists_roundsTo (Real.log rate)
  obtain ⟨neg, hneg⟩ := exists_negatesTo n
  obtain ⟨product, hp⟩ := exists_multipliesTo neg l
  obtain ⟨raw, hr⟩ := exists_dividesTo product (.fin ((8655072057804174 : ℤ) * (2 : ℝ) ^ (-54 : ℤ))) (by
    rw [ne_eq, F64.fin.injEq]; norm_num)
  obtain ⟨scaled, hs⟩ := exists_multipliesTo (.fin ((6243314768165359 : ℤ) * (2 : ℝ) ^ (-53 : ℤ))) raw
  obtain ⟨probes, hd⟩ := exists_dividesTo scaled n hn
  exact ⟨raw, probes, l, _, neg, product, _, scaled, hl, logsTo_two, hneg, hp, square_log_two, hr, hs, hd⟩

/-- Derived mode's formula has one answer. -/
theorem DerivedNumbers.unique {n raw probes raw' probes' : F64} {rate : ℝ} (h : DerivedNumbers n rate raw probes)
    (h' : DerivedNumbers n rate raw' probes') : raw = raw' ∧ probes = probes' := by
  obtain ⟨l, l2, neg, product, square, scaled, hl, hl2, hneg, hp, hs, hr, hc, hd⟩ := h
  obtain ⟨l', l2', neg', product', square', scaled', hl', hl2', hneg', hp', hs', hr', hc', hd'⟩ := h'
  obtain rfl := RoundsTo.unique hl hl'
  obtain rfl := RoundsTo.unique hl2 hl2'
  obtain rfl := hneg.unique hneg'
  obtain rfl := hp.unique hp'
  obtain rfl := hs.unique hs'
  obtain rfl := hr.unique hr'
  obtain rfl := hc.unique hc'
  exact ⟨rfl, hd.unique hd'⟩

/-- Everything derived mode's formula is made of for a finite entry count, with `ln(2)` and its square as they are. -/
theorem DerivedNumbers.steps {n rate : ℝ} {raw probes : F64} (h : DerivedNumbers (.fin n) rate raw probes) :
    ∃ l product scaled : F64, LogsTo rate l ∧ MultipliesTo (.fin (-n)) l product ∧
      DividesTo product (.fin ((8655072057804174 : ℤ) * (2 : ℝ) ^ (-54 : ℤ))) raw ∧
      MultipliesTo (.fin ((6243314768165359 : ℤ) * (2 : ℝ) ^ (-53 : ℤ))) raw scaled ∧ DividesTo scaled (.fin n) probes := by
  obtain ⟨l, l2, neg, product, square, scaled, hl, hl2, hneg, hp, hs, hr, hc, hd⟩ := h
  obtain rfl := RoundsTo.unique hl2 logsTo_two
  obtain rfl : neg = .fin (-n) := hneg
  obtain rfl := RoundsTo.unique hs square_log_two
  exact ⟨l, product, scaled, hl, hp, hr, hc, hd⟩

/-! ### The range of the rate -/

/-- A rate of `f64` in (0,1) keeps a distance from both ends, so its logarithm is neither tiny nor large. -/
theorem log_rate_bounds {rate : ℝ} (hf : IsBinary64 rate) (h0 : 0 < rate) (h1 : rate < 1) :
    1 / 2 ^ 53 ≤ -Real.log rate ∧ -Real.log rate ≤ 2 ^ 11 := by
  obtain ⟨m, e, hm, he, -, hr⟩ := hf
  have hp := two_zpow_pos e
  have hm0 : 0 < m := by
    have : (0 : ℝ) < m := by
      by_contra hc
      rw [hr] at h0
      exact absurd h0 (not_lt.mpr (mul_nonpos_of_nonpos_of_nonneg (not_lt.mp hc) hp.le))
    exact_mod_cast this
  have hm1 : (1 : ℝ) ≤ m := by exact_mod_cast hm0
  constructor
  · have hup : rate ≤ 1 - 1 / 2 ^ 53 := by
      by_cases he0 : 0 ≤ e
      · have : (1 : ℝ) ≤ 2 ^ e := one_le_zpow₀ (by norm_num) he0
        rw [hr] at h1
        nlinarith
      · by_cases h53 : -53 ≤ e
        · obtain ⟨k, rfl⟩ : ∃ k : ℕ, e = -(k : ℤ) := ⟨(-e).toNat, by omega⟩
          have hk : k ≤ 53 := by omega
          have hlt : m < 2 ^ k := by
            have : (m : ℝ) < 2 ^ k := by
              rw [hr, zpow_neg, zpow_natCast, ← div_eq_mul_inv, div_lt_one (by positivity)] at h1
              exact h1
            exact_mod_cast this
          have hle : (m : ℝ) ≤ 2 ^ k - 1 := by
            have : m ≤ 2 ^ k - 1 := by omega
            exact_mod_cast this
          have hk' : (2 : ℝ) ^ k ≤ 2 ^ 53 := pow_le_pow_right₀ (by norm_num) hk
          have hinv : 1 / (2 : ℝ) ^ 53 ≤ 1 / 2 ^ k := one_div_le_one_div_of_le (by positivity) hk'
          rw [hr, zpow_neg, zpow_natCast, ← div_eq_mul_inv]
          calc (m : ℝ) / 2 ^ k ≤ (2 ^ k - 1) / 2 ^ k := by gcongr
            _ = 1 - 1 / 2 ^ k := by field_simp
            _ ≤ 1 - 1 / 2 ^ 53 := by linarith
        · have h54 : (2 : ℝ) ^ e ≤ 2 ^ (-54 : ℤ) := zpow_le_zpow_right₀ (by norm_num) (by omega)
          have hm53 : (m : ℝ) ≤ 2 ^ 53 := by
            have : m ≤ 2 ^ 53 := by rw [abs_of_pos hm0] at hm; exact hm.le
            exact_mod_cast this
          rw [hr]
          refine (mul_le_mul hm53 h54 hp.le (by norm_num)).trans ?_
          norm_num
    have := Real.log_le_sub_one_of_pos h0
    linarith
  · have hlow : (2 : ℝ) ^ (-1074 : ℤ) ≤ rate := by
      rw [hr]
      calc (2 : ℝ) ^ (-1074 : ℤ) ≤ 2 ^ e := zpow_le_zpow_right₀ (by norm_num) he
        _ ≤ m * 2 ^ e := le_mul_of_one_le_left hp.le hm1
    have h2 := Real.log_le_log (two_zpow_pos _) hlow
    rw [Real.log_zpow] at h2
    have h3 : Real.log 2 < 1 := by have := Real.log_two_lt_d9; linarith
    push_cast at h2
    linarith

/-! ### The error of derived mode's formula -/

/-- The factors of the rounded operations multiply to nearly 1. -/
theorem factors_bounds {x1 x2 x3 x4 x5 y1 y2 : ℝ}
    (h : ∀ z ∈ [x1, x2, x3, x4, x5, y1, y2], 1 - 1 / 2 ^ 52 ≤ z ∧ z ≤ 1 + 1 / 2 ^ 52) :
    (1 - 1 / 2 ^ 49 ≤ x1 * x2 * x3 / (y1 * y1 * y2) ∧ x1 * x2 * x3 / (y1 * y1 * y2) ≤ 1 + 1 / 2 ^ 49) ∧
    (1 - 1 / 2 ^ 49 ≤ x1 * x2 * x3 * (x4 * x5) / (y1 * y2) ∧ x1 * x2 * x3 * (x4 * x5) / (y1 * y2) ≤ 1 + 1 / 2 ^ 49) := by
  simp only [List.mem_cons, List.not_mem_nil, or_false, forall_eq_or_imp, forall_eq] at h
  obtain ⟨h1, h2, h3, h4, h5, g1, g2⟩ := h
  have mul : ∀ {a b c d x y : ℝ}, 0 < a → 0 < c → (a ≤ x ∧ x ≤ b) → (c ≤ y ∧ y ≤ d) → a * c ≤ x * y ∧ x * y ≤ b * d :=
    fun ha hc hx hy => ⟨mul_le_mul hx.1 hy.1 hc.le (ha.le.trans hx.1),
      mul_le_mul hx.2 hy.2 (hc.le.trans hy.1) (ha.le.trans (hx.1.trans hx.2))⟩
  have div : ∀ {a b c d x y u v : ℝ}, 0 < c → 0 ≤ u → 0 ≤ v → u * d ≤ a → b ≤ v * c → (a ≤ x ∧ x ≤ b) → (c ≤ y ∧ y ≤ d) →
      u ≤ x / y ∧ x / y ≤ v := by
    intro a b c d x y u v hc hu hv hl hh hx hy
    have hy0 := hc.trans_le hy.1
    exact ⟨(le_div_iff₀ hy0).mpr ((mul_le_mul_of_nonneg_left hy.2 hu).trans (hl.trans hx.1)),
      (div_le_iff₀ hy0).mpr (hx.2.trans (hh.trans (mul_le_mul_of_nonneg_left hy.1 hv)))⟩
  have p1 : (0 : ℝ) < 1 - 1 / 2 ^ 52 := by norm_num
  have p2 := mul_pos p1 p1
  have p3 := mul_pos p2 p1
  have n3 := mul p2 p1 (mul p1 p1 h1 h2) h3
  have n2 := mul p1 p1 h4 h5
  exact ⟨div p3 (by norm_num) (by norm_num) (by norm_num) (by norm_num) n3 (mul p2 p1 (mul p1 p1 g1 g1) g2),
    div p2 (by norm_num) (by norm_num) (by norm_num) (by norm_num) (mul p3 p2 n3 n2) (mul p1 p1 g1 g2)⟩

/-- Two numbers in ranges above zero, multiplied. -/
theorem mul_range {a b c d x y : ℝ} (ha : 0 < a) (hc : 0 < c) (hx : a ≤ x ∧ x ≤ b) (hy : c ≤ y ∧ y ≤ d) :
    a * c ≤ x * y ∧ x * y ≤ b * d :=
  ⟨mul_le_mul hx.1 hy.1 hc.le (ha.le.trans hx.1), mul_le_mul hx.2 hy.2 (hc.le.trans hy.1) (ha.le.trans (hx.1.trans hx.2))⟩

/-- Everything derived mode's formula can answer for an entry count far from the ends of the exponent range and a rate of
`f64` in (0,1): finite numbers, the exact values of R167 up to a relative error of `2^-49`. -/
theorem DerivedNumbers.bounds {n rate : ℝ} {rawBits probes : F64} (hlo : (2 : ℝ) ^ (-900 : ℤ) ≤ n) (hhi : n ≤ 2 ^ 1000)
    (hf : IsBinary64 rate) (h0 : 0 < rate) (h1 : rate < 1) (h : DerivedNumbers (.fin n) rate rawBits probes) :
    ∃ raw p : ℝ, rawBits = .fin raw ∧ probes = .fin p ∧
      (-n * Real.log rate / Real.log 2 ^ 2 * (1 - 1 / 2 ^ 49) ≤ raw ∧
        raw ≤ -n * Real.log rate / Real.log 2 ^ 2 * (1 + 1 / 2 ^ 49)) ∧
      (-Real.log rate / Real.log 2 * (1 - 1 / 2 ^ 49) ≤ p ∧ p ≤ -Real.log rate / Real.log 2 * (1 + 1 / 2 ^ 49)) := by
  have hn : 0 < n := (two_zpow_pos _).trans_le hlo
  obtain ⟨l, l2, neg, product, square, scaled, hl, hl2, hneg, hp, hs, hr, hc, hd⟩ := h
  obtain rfl : neg = .fin (-n) := hneg
  have hL := log_rate_bounds hf h0 h1
  have hM : 1 / 2 ≤ Real.log 2 ∧ Real.log 2 ≤ 1 :=
    ⟨by have := Real.log_two_gt_d9; linarith, by have := Real.log_two_lt_d9; linarith⟩
  generalize hLe : -Real.log rate = L at *
  generalize hMe : Real.log 2 = M at *
  have half : ∀ {z : ℝ}, (1 - 1 / 2 ^ 52 ≤ z ∧ z ≤ 1 + 1 / 2 ^ 52) → (1 / 2 ≤ z ∧ z ≤ 2) := fun hz => by
    constructor
    · refine le_trans ?_ hz.1; norm_num
    · refine hz.2.trans ?_; norm_num
  -- ln(rate)
  have hl' : ∃ z1 : ℝ, (1 - 1 / 2 ^ 52 ≤ z1 ∧ z1 ≤ 1 + 1 / 2 ^ 52) ∧ l = .fin (-(L * z1)) := by
    have hlog : Real.log rate = -L := by rw [← hLe, neg_neg]
    rw [LogsTo, hlog] at hl
    obtain ⟨y, hy⟩ := exists_roundsTo L
    obtain ⟨z, hz, rfl⟩ := hy.factor_one (le_trans (by norm_num) hL.1) (hL.2.trans (by norm_num))
    exact ⟨z, hz, hl.unique hy.neg⟩
  obtain ⟨z1, hz1, rfl⟩ := hl'
  -- ln(2)
  rw [LogsTo, hMe] at hl2
  obtain ⟨z2, hz2, rfl⟩ := hl2.factor_one (le_trans (by norm_num) hM.1) (hM.2.trans (by norm_num))
  have rL := mul_range (by norm_num) (by norm_num) hL (half hz1)
  have rM := mul_range (by norm_num) (by norm_num) hM (half hz2)
  -- the product
  have hp' : RoundsTo (n * (L * z1)) product := by
    have : RoundsTo (-n * -(L * z1)) product := hp
    rwa [neg_mul_neg] at this
  obtain ⟨z3, hz3, rfl⟩ := hp'.factor hlo hhi (le_trans (by norm_num) rL.1) (rL.2.trans (by norm_num))
  have rP := mul_range (by norm_num) (by norm_num) rL (half hz3)
  -- the square
  have rS' := mul_range (by norm_num) (by norm_num) rM rM
  obtain ⟨z4, hz4, rfl⟩ := RoundsTo.factor_one (show RoundsTo (M * z2 * (M * z2)) square from hs)
    (le_trans (by norm_num) rS'.1) (rS'.2.trans (by norm_num))
  have rS := mul_range (by norm_num) (by norm_num) rS' (half hz4)
  have sq0 : 0 < M * z2 * (M * z2) * z4 := lt_of_lt_of_le (by norm_num) rS.1
  -- rawBits
  have rQ : 1 / 2 ^ 70 ≤ L * z1 * z3 / (M * z2 * (M * z2) * z4) ∧ L * z1 * z3 / (M * z2 * (M * z2) * z4) ≤ 2 ^ 19 := by
    rw [le_div_iff₀ sq0, div_le_iff₀ sq0]
    constructor
    · refine le_trans (mul_le_mul_of_nonneg_left rS.2 (by norm_num)) (le_trans ?_ rP.1); norm_num
    · refine rP.2.trans (le_trans ?_ (mul_le_mul_of_nonneg_left rS.1 (by norm_num))); norm_num
  have hr' : RoundsTo (n * (L * z1 * z3 / (M * z2 * (M * z2) * z4))) rawBits := by
    rw [← mul_div_assoc]; exact hr.2
  obtain ⟨z5, hz5, rfl⟩ := hr'.factor hlo hhi (le_trans (by norm_num) rQ.1) (rQ.2.trans (by norm_num))
  have rR := mul_range (by norm_num) (by norm_num) rQ (half hz5)
  -- ln(2) * rawBits
  have rC := mul_range (by norm_num) (by norm_num) rM rR
  have hc' : RoundsTo (n * (M * z2 * (L * z1 * z3 / (M * z2 * (M * z2) * z4) * z5))) scaled := by
    have : RoundsTo (M * z2 * (n * (L * z1 * z3 / (M * z2 * (M * z2) * z4) * z5))) scaled := hc
    rwa [mul_left_comm] at this
  obtain ⟨z6, hz6, rfl⟩ := hc'.factor hlo hhi (le_trans (by norm_num) rC.1) (rC.2.trans (by norm_num))
  have rD := mul_range (by norm_num) (by norm_num) rC (half hz6)
  -- the quotient
  have hd' : RoundsTo (M * z2 * (L * z1 * z3 / (M * z2 * (M * z2) * z4) * z5) * z6) probes := by
    have := hd.2
    rwa [mul_div_cancel_left₀ _ hn.ne'] at this
  obtain ⟨z7, hz7, rfl⟩ := hd'.factor_one (le_trans (by norm_num) rD.1) (rD.2.trans (by norm_num))
  have hM0 : 0 < M := lt_of_lt_of_le (by norm_num) hM.1
  have hL0 : 0 < L := lt_of_lt_of_le (by norm_num) hL.1
  have n2 : z2 ≠ 0 := (lt_of_lt_of_le (by norm_num) (half hz2).1).ne'
  have n4 : z4 ≠ 0 := (lt_of_lt_of_le (by norm_num) (half hz4).1).ne'
  have f := @factors_bounds z1 z3 z5 z6 z7 z2 z4 (by
    simp only [List.mem_cons, List.not_mem_nil, or_false, forall_eq_or_imp, forall_eq]
    exact ⟨hz1, hz3, hz5, hz6, hz7, hz2, hz4⟩)
  have hlog : -n * Real.log rate / M ^ 2 = n * L / M ^ 2 := by rw [← hLe]; ring
  rw [hlog]
  refine ⟨_, _, rfl, rfl, ?_, ?_⟩
  · rw [show n * (L * z1 * z3 / (M * z2 * (M * z2) * z4) * z5) = n * L / M ^ 2 * (z1 * z3 * z5 / (z2 * z2 * z4)) by
      field_simp]
    exact ⟨mul_le_mul_of_nonneg_left f.1.1 (by positivity), mul_le_mul_of_nonneg_left f.1.2 (by positivity)⟩
  · rw [show M * z2 * (L * z1 * z3 / (M * z2 * (M * z2) * z4) * z5) * z6 * z7 =
        L / M * (z1 * z3 * z5 * (z6 * z7) / (z2 * z4)) by field_simp]
    exact ⟨mul_le_mul_of_nonneg_left f.2.1 (by positivity), mul_le_mul_of_nonneg_left f.2.2 (by positivity)⟩

/-- A rounding of a small number that is not negative: finite, not negative, and at most twice the number or the least
place. -/
theorem RoundsTo.small {x : ℝ} {y : F64} {k : ℤ} (h : RoundsTo x y) (h0 : 0 ≤ x) (hx : x ≤ 2 ^ k) (hk : -1074 ≤ k)
    (hk' : k ≤ 1000) : ∃ v : ℝ, y = .fin v ∧ 0 ≤ v ∧ v ≤ 2 ^ (k + 2) := by
  have hmax : |x| ≤ 2 ^ 1023 := by
    rw [abs_of_nonneg h0]
    refine hx.trans ?_
    rw [show (2 : ℝ) ^ 1023 = 2 ^ (1023 : ℤ) from (zpow_natCast 2 1023).symm]
    exact zpow_le_zpow_right₀ (by norm_num) (by omega)
  obtain ⟨v, rfl, hv, -⟩ := h.error hmax
  refine ⟨v, rfl, ?_, ?_⟩
  · obtain ⟨e, m, -, hm, ⟨-, h⟩ | ⟨-, h⟩⟩ := h
    · obtain rfl := F64.fin.inj h
      have hq : 0 ≤ x / 2 ^ e := div_nonneg h0 (two_zpow_pos e).le
      have h1 : -1 < (m : ℝ) := by linarith [(abs_le.mp hm.1).2]
      have h2 : -1 < m := by exact_mod_cast h1
      have h3 : (0 : ℝ) ≤ m := by exact_mod_cast (by omega : 0 ≤ m)
      exact mul_nonneg h3 (two_zpow_pos e).le
    · cases h
  · have h1 : (2 : ℝ) ^ (-1075 : ℤ) ≤ 2 ^ k := zpow_le_zpow_right₀ (by norm_num) (by omega)
    have h2 : (2 : ℝ) ^ (k + 2) = 2 ^ k * 4 := by rw [zpow_add₀ (by norm_num)]; norm_num
    rw [abs_of_nonneg h0] at hv
    have h3 : x / 2 ^ 53 ≤ x := div_le_self h0 (by norm_num)
    linarith [(abs_le.mp hv).2]

/-- A product of two numbers that are not negative, under powers of two. -/
theorem mul_le_zpow {x y : ℝ} {j k : ℤ} (h0 : 0 ≤ x) (h0' : 0 ≤ y) (hx : x ≤ 2 ^ j) (hy : y ≤ 2 ^ k) :
    0 ≤ x * y ∧ x * y ≤ 2 ^ (j + k) :=
  ⟨mul_nonneg h0 h0', by rw [zpow_add₀ (by norm_num)]; exact mul_le_mul hx hy h0' (two_zpow_pos j).le⟩

/-- The formula for an entry count of `f64` near the least one, where the operations underflow: finite numbers, and far fewer
bits than the floor of 512. -/
theorem DerivedNumbers.of_tiny {n rate : ℝ} {rawBits probes : F64} (hn0 : 0 < n) (hn : n < 2 ^ (-900 : ℤ)) (hnf : IsBinary64 n)
    (hf : IsBinary64 rate) (h0 : 0 < rate) (h1 : rate < 1) (h : DerivedNumbers (.fin n) rate rawBits probes) :
    ∃ raw p : ℝ, rawBits = .fin raw ∧ probes = .fin p ∧ raw ≤ 1 := by
  obtain ⟨l, product, scaled, hl, hp, hr, hc, hd⟩ := h.steps
  have hL := log_rate_bounds hf h0 h1
  have hL0 : 0 ≤ -Real.log rate := le_trans (by norm_num) hL.1
  obtain ⟨y, hy⟩ := exists_roundsTo (-Real.log rate)
  obtain ⟨l1, rfl, l0, l1le⟩ := hy.small hL0 (hL.2.trans (by norm_num : (2 : ℝ) ^ 11 ≤ 2 ^ (11 : ℤ))) (by norm_num) (by norm_num)
  have hl' : l = .fin (-l1) := RoundsTo.unique hl (by simpa using hy.neg)
  subst hl'
  have b1 := mul_le_zpow hn0.le l0 hn.le l1le
  obtain ⟨p1, rfl, q1, r1⟩ := RoundsTo.small (y := product) (by simpa using (show RoundsTo (-n * -l1) product from hp))
    b1.1 b1.2 (by norm_num) (by norm_num)
  have b2 := mul_le_zpow q1 (by norm_num : (0 : ℝ) ≤ ((8655072057804174 : ℤ) * (2 : ℝ) ^ (-54 : ℤ))⁻¹) r1
    (by norm_num : ((8655072057804174 : ℤ) * (2 : ℝ) ^ (-54 : ℤ))⁻¹ ≤ 2 ^ (2 : ℤ))
  obtain ⟨raw, rfl, q2, r2⟩ := RoundsTo.small (y := rawBits) (by rw [← div_eq_mul_inv]; exact hr.2) b2.1 b2.2 (by norm_num)
    (by norm_num)
  have b3 := mul_le_zpow (by norm_num : (0 : ℝ) ≤ (6243314768165359 : ℤ) * (2 : ℝ) ^ (-53 : ℤ)) q2
    (by norm_num : (6243314768165359 : ℤ) * (2 : ℝ) ^ (-53 : ℤ) ≤ (2 : ℝ) ^ (0 : ℤ)) r2
  obtain ⟨c, rfl, q3, r3⟩ := RoundsTo.small (show RoundsTo _ scaled from hc) b3.1 b3.2 (by norm_num) (by norm_num)
  have hmin : (2 : ℝ) ^ (-1074 : ℤ) ≤ n := by
    obtain ⟨m, e, -, he, -, rfl⟩ := hnf
    have hp := two_zpow_pos e
    have hm : (0 : ℝ) < m := by
      by_contra hc
      exact absurd hn0 (not_lt.mpr (mul_nonpos_of_nonpos_of_nonneg (not_lt.mp hc) hp.le))
    have hm1 : (1 : ℝ) ≤ m := by exact_mod_cast (by exact_mod_cast hm : 0 < m)
    exact (zpow_le_zpow_right₀ (by norm_num) he).trans (le_mul_of_one_le_left hp.le hm1)
  have hinv : n⁻¹ ≤ (2 : ℝ) ^ (1074 : ℤ) := by
    rw [show (1074 : ℤ) = - -1074 by norm_num, zpow_neg]
    exact inv_anti₀ (two_zpow_pos _) hmin
  have b4 := mul_le_zpow q3 (inv_nonneg.mpr hn0.le) r3 hinv
  obtain ⟨p, rfl, -, -⟩ := RoundsTo.small (y := probes) (by rw [← div_eq_mul_inv]; exact hd.2) b4.1 b4.2 (by norm_num)
    (by norm_num)
  exact ⟨raw, p, rfl, rfl, r2.trans (zpow_le_one_of_nonpos₀ (by norm_num) (by norm_num))⟩

/-! ### The power of two (R168) -/

/-- Every number of bits is rounded to one power of two. -/
theorem existsUnique_roundsUpTo (bits : ℝ) : ∃! exp : Nat, RoundsUpTo bits exp := by
  have hex : ∃ e : Nat, 9 ≤ e ∧ bits ≤ 2 ^ e := by
    obtain ⟨n, hn⟩ := pow_unbounded_of_one_lt bits (by norm_num : (1 : ℝ) < 2)
    exact ⟨n + 9, by omega, hn.le.trans (pow_le_pow_right₀ (by norm_num) (by omega))⟩
  classical
  refine ⟨Nat.find hex, ⟨(Nat.find_spec hex).1, (Nat.find_spec hex).2, fun e h9 he => Nat.find_min' hex ⟨h9, he⟩⟩, ?_⟩
  intro e he
  exact le_antisymm (he.2.2 _ (Nat.find_spec hex).1 (Nat.find_spec hex).2) (Nat.find_min' hex ⟨he.1, he.2.1⟩)

/-- Above the floor the power of two is less than twice the wanted bits. -/
theorem RoundsUpTo.lt_two_mul {bits : ℝ} {exp : Nat} (h : RoundsUpTo bits exp) : exp = 9 ∨ (2 : ℝ) ^ exp < 2 * bits := by
  by_cases h9 : exp = 9
  · exact .inl h9
  · obtain ⟨e, rfl⟩ : ∃ e, exp = e + 1 := ⟨exp - 1, by have := h.1; omega⟩
    refine .inr ?_
    by_contra hc
    rw [pow_succ] at hc
    have := h.2.2 e (by have := h.1; omega) (by linarith)
    omega

/-! ### The sizes (R168, R170) -/

theorem exists_sizesTo (bits : F64) : ∃ exp : Nat, SizesTo bits exp := by
  rcases bits with _ | (_ | _) | x
  · exact ⟨9, le_refl _⟩
  · exact ⟨1024, le_refl _⟩
  · exact ⟨9, rfl⟩
  · exact (existsUnique_roundsUpTo x).exists

/-- Every size is at least the floor of 512 bits. -/
theorem SizesTo.nine_le {bits : F64} {exp : Nat} (h : SizesTo bits exp) : 9 ≤ exp := by
  rcases bits with _ | (_ | _) | x
  · exact h
  · exact (show 9 ≤ 1024 by decide).trans h
  · exact ge_of_eq h
  · exact h.1

theorem exists_ceilsTo (probes : F64) : ∃ k : Nat, CeilsTo probes k := by
  rcases probes with _ | s | x
  · exact ⟨1, le_refl 1⟩
  · exact ⟨1, le_refl 1⟩
  · exact ⟨_, rfl⟩

/-- Derived mode gives at least one probe (R172). -/
theorem CeilsTo.one_le {probes : F64} {k : Nat} (h : CeilsTo probes k) : 1 ≤ k := by
  rcases probes with _ | s | x
  · exact h
  · exact h
  · exact (le_max_left 1 _).trans (ge_of_eq h)

theorem exists_probesGiven (numProbes : F64) : ∃ k : Nat, ProbesGiven numProbes k := by
  rcases numProbes with _ | s | x
  · exact ⟨0, trivial⟩
  · exact ⟨0, trivial⟩
  · by_cases hm : ∃ m : Nat, x = m
    · obtain ⟨m, rfl⟩ := hm
      exact ⟨m, fun m' h => by exact_mod_cast h⟩
    · exact ⟨0, fun m h => absurd ⟨m, h⟩ hm⟩

/-- Everything the entry point can answer in derived mode for a rate in (0,1). -/
theorem newFilter_derived {n : F64} {rate : ℝ} (hn : ¬ n.le 0) (h0 : 0 < rate) (h1 : rate < 1) (r : HostSize) :
    NewFilter n (.fin rate) r ↔ ∃ (rawBits probes : F64) (exp k : Nat),
      DerivedNumbers n rate rawBits probes ∧ SizesTo rawBits exp ∧ CeilsTo probes k ∧ r = .sized exp k := by
  constructor
  · rintro (⟨-, ⟨h | h, -⟩ | ⟨-, x, raw, probes, exp, k, hx, -, -, h⟩⟩ | ⟨h, -⟩)
    · exact absurd h hn
    · exact absurd rfl (h rate h0 h1)
    · cases hx; exact ⟨raw, probes, exp, k, h⟩
    · exact absurd h1 h
  · rintro ⟨raw, probes, exp, k, h⟩
    exact .inl ⟨h1, .inr ⟨hn, rate, raw, probes, exp, k, rfl, h0, h1, h⟩⟩

/-- The one answer in derived mode where the formula's numbers are finite. -/
theorem newFilter_of_numbers {n rate raw p : ℝ} {exp : Nat} (hn : 0 < n) (h0 : 0 < rate) (h1 : rate < 1)
    (hd : DerivedNumbers (.fin n) rate (.fin raw) (.fin p)) (he : RoundsUpTo raw exp) (r : HostSize) :
    NewFilter (.fin n) (.fin rate) r ↔ r = .sized exp (max 1 ⌈p⌉₊) := by
  rw [newFilter_derived (by simpa using hn) h0 h1]
  constructor
  · rintro ⟨raw', probes', exp', k', hd', he', hk', rfl⟩
    obtain ⟨rfl, rfl⟩ := hd.unique hd'
    rw [show k' = max 1 ⌈p⌉₊ from hk', (existsUnique_roundsUpTo raw).unique he' he]
  · rintro rfl
    exact ⟨_, _, exp, _, hd, he, rfl, rfl⟩

/-- The one answer in explicit mode for a whole probe count. -/
theorem newFilter_explicit {bits : ℝ} {m exp : Nat} (hm : 1 ≤ m) (he : RoundsUpTo bits exp) (r : HostSize) :
    NewFilter (.fin bits) (.fin m) r ↔ r = .sized exp m := by
  have hm' : ¬ (F64.fin m).lt 1 := not_lt.mpr (by exact_mod_cast hm)
  constructor
  · rintro (⟨h, -⟩ | ⟨-, exp', k', hr, hk, rfl⟩)
    · exact absurd h hm'
    · rw [(existsUnique_roundsUpTo bits).unique hr he, hk m rfl]
  · rintro rfl
    exact .inr ⟨hm', exp, m, he, fun m' h => by exact_mod_cast h, rfl⟩

end Sys2Proof.Machine
end

