-- ==== Sys2Proof/Tests/Slice0.lean ====
section
/-! SUPPORT. Tests of one step each, their expected values from spec/95_test_vectors.md and the rules' worked examples (none
from the model), and a witness for every obligation that has hypotheses. -/

namespace Sys2Proof.Tests

open Sys2Proof.Machine

/-! ### Helpers -/

/-- An array of 64 bytes, zeroed, then with the listed bytes. -/
def array (cells : List Host.Cell) : Memory := { cells := cells, zeroed := 64, loss := 0 }

/-- A configured machine of the standard instance, `EXP = 9`, `K = 3`, a digest held, no lane valid, array zero. -/
def small : State :=
  { State.reset with
    cfgValid := true, exp := 9#6, k := 3#7, hphase := .done, digest := 0x0123456789abcdef#64
    v := ⟨1#64, 2#64, 3#64, 4#64⟩, len := 0xf8#8, idx := laneFile (fun _ => 0#64), mem := array [] }

/-- `small` in the middle of a hash. -/
def hashing : State := { small with hphase := .absorb }

/-- `small` with the lanes of vector A4: 0x0ef, 0x105, 0x11b. -/
def threeLanes : State :=
  { small with
    laneMask := 7#64
    idx := laneFile (fun j => if j = 0#6 then 0x0ef#64 else if j = 1#6 then 0x105#64 else 0x11b#64) }

/-- `small` with the array of vector A4, a last byte and a recorded error. -/
def filled : State :=
  { threeLanes with mem := array [(0x1d, 0x80#8), (0x20, 0x20#8), (0x23, 0x08#8), (0x3f, 0x81#8)], err := 3#8, errop := 0x11#8 }

/-- The newest response. -/
def answer : Outcome → Option Response
  | .next s => s.rsps.head?
  | .fault _ => none
  | .refused _ => none

/-- One thing read from the next state. -/
def look {α : Type} (f : State → α) : Outcome → Option α
  | .next s => some (f s)
  | .fault _ => none
  | .refused _ => none

/-- The outcome is a next state. -/
def isNext : Outcome → Bool
  | .next _ => true
  | .fault _ => false
  | .refused _ => false

theorem next_of_isNext (o : Outcome) (h : isNext o = true) : ∃ t, o = .next t := by
  cases o with
  | next t => exact ⟨t, rfl⟩
  | fault r => cases h
  | refused r => cases h

/-! ### Well-formedness: an ill-formed term for each check -/

/-- A lane CSR at or above K_MAX (10_state.md R43); lane 15 of 16 is the last. -/
theorem test_wf_refuses_lane_csr :
    Instr.wf Params.standard (.csrRd (.idx 16#6)) = false ∧ Instr.wf Params.standard (.csrRd (.idx 15#6)) = true := by decide
/-- H_FINAL with a byte above its n trailing bytes (vector H14). -/
theorem test_wf_refuses_long_tail :
    Instr.wf Params.standard (.hFinal 2#3 0x10000#64) = false ∧ Instr.wf Params.standard (.hFinal 2#3 0xffff#64) = true := by
  decide
/-- IDX_WR of lane 16 with K_MAX = 16 (vector A12). -/
theorem test_wf_refuses_lane :
    Instr.wf Params.standard (.idxWr 16#6 0#64) = false ∧ Instr.wf Params.standard (.idxWr 15#6 0#64) = true := by decide

/-! ### Decoding: words written out from R73 and R75, or from the programs of 95_test_vectors.md -/

theorem test_decode_nop : decode Params.standard 0x00000000000000000000#80 = .ok .nop := by decide
theorem test_decode_reset : decode Params.standard 0x01000000000000000000#80 = .ok .reset := by decide
/-- Program 1: CFG 9, 3. -/
theorem test_decode_cfg : decode Params.standard 0x02030000000000000009#80 = .ok (.cfg 9#6 3#7) := by decide
/-- Program 4: CSR_RD IDX[3], CSR_RD PARAMS. -/
theorem test_decode_csrRd :
    decode Params.standard 0x03430000000000000000#80 = .ok (.csrRd (.idx 3#6)) ∧
    decode Params.standard 0x030a0000000000000000#80 = .ok (.csrRd .params) := by decide
theorem test_decode_errClr : decode Params.standard 0x04000000000000000000#80 = .ok .errClr := by decide
theorem test_decode_hInit : decode Params.standard 0x10000000000000000000#80 = .ok .hInit := by decide
/-- Program 5: H_ABSORB "abcdefgh". -/
theorem test_decode_hAbsorb :
    decode Params.standard 0x11006867666564636261#80 = .ok (.hAbsorb 0x6867666564636261#64) := by decide
/-- Program 1: H_FINAL 4, "fish". -/
theorem test_decode_hFinal :
    decode Params.standard 0x12040000000068736966#80 = .ok (.hFinal 4#3 0x68736966#64) := by decide
theorem test_decode_pGen : decode Params.standard 0x20000000000000000000#80 = .ok .pGen := by decide
/-- Program 3: IDX_WR 5, 0x1ff. -/
theorem test_decode_idxWr : decode Params.standard 0x210500000000000001ff#80 = .ok (.idxWr 5#6 0x1ff#64) := by decide
theorem test_decode_idxClr : decode Params.standard 0x22000000000000000000#80 = .ok .idxClr := by decide
theorem test_decode_bSet : decode Params.standard 0x30000000000000000000#80 = .ok .bSet := by decide
theorem test_decode_bTest : decode Params.standard 0x31000000000000000000#80 = .ok .bTest := by decide
theorem test_decode_bClear : decode Params.standard 0x32000000000000000000#80 = .ok .bClear := by decide
/-- Program 3: M_RD 0x3f. -/
theorem test_decode_mRd : decode Params.standard 0x3300000000000000003f#80 = .ok (.mRd 0x3f#64) := by decide
/-- Program 5: M_WR 0x37, 0x80. -/
theorem test_decode_mWr : decode Params.standard 0x34800000000000000037#80 = .ok (.mWr 0x37#64 0x80#8) := by decide
theorem test_decode_fAdd : decode Params.standard 0x40000000000000000000#80 = .ok .fAdd := by decide
theorem test_decode_fHas : decode Params.standard 0x41000000000000000000#80 = .ok .fHas := by decide

/-- The words of the pseudo-commands (program 1's lines; 30_encoding.md R81 to R85). -/
theorem test_encode_new : encode (.new 9#6 3#7) = [0x02030000000000000009#80] := by decide
theorem test_encode_hash :
    encode (.hash [0x66#8, 0x69#8, 0x73#8, 0x68#8]) = [0x10000000000000000000#80, 0x12040000000068736966#80] := by decide
theorem test_encode_add :
    encode (.add [0x61#8]) = [0x10000000000000000000#80, 0x12010000000000000061#80, 0x40000000000000000000#80] := by decide
/-- "abcdefghi": one block and one trailing byte (program 1). -/
theorem test_encode_has :
    encode (.has [0x61#8, 0x62#8, 0x63#8, 0x64#8, 0x65#8, 0x66#8, 0x67#8, 0x68#8, 0x69#8]) =
      [0x10000000000000000000#80, 0x11006867666564636261#80, 0x12010000000000000069#80, 0x41000000000000000000#80] := by
  decide
theorem test_encode_clear : encode .clear = [0x32000000000000000000#80] := by decide

/-- Words program 4 and the vectors H15, Y6, Y10 call illegal, each by its reason. -/
theorem test_decode_refuses_operand_bits :
    decode Params.standard 0x02830000000000000009#80 = .error .operandBits ∧
    decode Params.standard 0x00000000000000000001#80 = .error .operandBits ∧
    decode Params.standard 0x12080000000000000000#80 = .error .operandBits ∧
    decode Params.standard 0x02010000000000000040#80 = .error .operandBits ∧
    decode Params.standard 0x01010000000000000000#80 = .error .operandBits := by decide
theorem test_decode_refuses_values :
    decode Params.standard 0x05000000000000000000#80 = .error .reservedOpcode ∧
    decode Params.standard 0x12020000000000010000#80 = .error .tailPadding ∧
    decode Params.standard 0x21100000000000000000#80 = .error .noSuchLane ∧
    decode Params.standard 0x030c0000000000000000#80 = .error .noSuchCsr ∧
    decode Params.standard 0x03500000000000000000#80 = .error .noSuchCsr := by decide

/-! ### System commands -/

/-- Program 4's start: the reset state's scalars (10_state.md R48). -/
theorem test_reset_state :
    State.reset.cfgValid = false ∧ State.reset.hphase = .idle ∧ State.reset.laneMask = 0#64 ∧ State.reset.testVec = 0#64 ∧
    State.reset.result = false ∧ State.reset.err = 0#8 ∧ State.reset.errop = 0#8 := by decide
/-- RESET (44_system_ops.md R151). -/
theorem test_reset :
    answer (exec .reset filled) = some ⟨0#8, 0#64⟩ ∧
    look (fun s => (s.cfgValid, s.hphase, s.laneMask, s.err, s.errop)) (exec .reset filled) =
      some (false, .idle, 0#64, 0#8, 0#8) := by decide
/-- Y1: CSR_RD STATUS from reset; NOP answers 0. -/
theorem test_nop : answer (exec .nop filled) = some ⟨0#8, 0#64⟩ := by decide
theorem test_csrRd_status : answer (exec (.csrRd .status) State.reset) = some ⟨0#8, 0#64⟩ := by decide
/-- Program 4: CSR_RD PARAMS of the standard instance. -/
theorem test_csrRd_params : answer (exec (.csrRd .params) State.reset) = some ⟨0#8, 0x000000000402103f#64⟩ := by decide
/-- Y8: a failed CFG leaves the old filter and its bits; Y7: a successful one zeroes the array and keeps the hash state. -/
theorem test_cfg_fails :
    answer (exec (.cfg 9#6 0#7) filled) = some ⟨1#8, 0#64⟩ ∧
    look (fun s => (s.mem, s.k, s.laneMask)) (exec (.cfg 9#6 0#7) filled) = some (filled.mem, 3#7, 7#64) := by decide
theorem test_cfg_zeroes :
    look (fun s => (s.mem.cells, s.exp, s.k, s.laneMask, s.digest)) (exec (.cfg 10#6 4#7) filled) =
      some ([], 10#6, 4#7, 0#64, 0x0123456789abcdef#64) := by decide
/-- From reset, where MEM has no value, CFG gives every byte of the array the value 0, the last one too (R152); RESET takes
MEM's value away again (10_state.md R48). -/
theorem test_cfg_gives_mem_a_value :
    look (fun s => (s.mem.read 0, s.mem.read 0x3f, s.mem.zeroed)) (exec (.cfg 9#6 3#7) State.reset) = some (0#8, 0#8, 64) ∧
    look (fun s => (s.mem.cells, s.mem.zeroed)) (exec .reset filled) = some ([], 0) := by decide
/-- Y11: ERR_CLR. -/
theorem test_errClr : look (fun s => (s.err, s.errop)) (exec .errClr filled) = some (0#8, 0#8) := by decide
/-- NEW 8, 3 is the CFG of program 4 that fails. -/
theorem test_new : answer (exec (.new 8#6 3#7) small) = some ⟨1#8, 0#64⟩ := by decide

/-! ### KHM -/

/-- K1 and K3 (95_test_vectors.md section 1). -/
theorem test_sipRound_K1 : sipRound ⟨1#64, 2#64, 3#64, 4#64⟩ =
    ⟨0x0000000300040007#64, 0x000000008006400a#64, 0x0000400a00000000#64, 0x0000008300e40007#64⟩ := by decide
theorem test_sipRound_K3 :
    sipRound ⟨0xffffffffffffffff#64, 0xffffffffffffffff#64, 0xffffffffffffffff#64, 0xffffffffffffffff#64⟩ =
      ⟨0xffffffff00000000#64, 0xfffffffffffdffff#64, 0xffffffffffffffff#64, 0xffffffff00200000#64⟩ := by decide
/-- H17: H_INIT in phase DONE. -/
theorem test_hInit :
    look (fun s => (s.hphase, s.len, s.v.v0, s.v.v3)) (exec .hInit small) =
      some (.absorb, 0#8, 0x736f6d65aededbda#64, 0x74656462839fbf9e#64) := by decide
/-- H19: LEN wraps from 0xf8 to 0. -/
theorem test_hAbsorb_wraps :
    answer (exec (.hAbsorb 5#64) hashing) = some ⟨0#8, 0#64⟩ ∧
    look (fun s => s.len) (exec (.hAbsorb 5#64) hashing) = some 0#8 := by decide
/-- The words after H_ABSORB "abcdefgh" (40_hash_mixer.md R96). -/
theorem test_hAbsorb_block :
    absorbWord Params.standard (initialWords Params.standard) 0x6867666564636261#64 =
      ⟨0x0091f1aa221def0c#64, 0x0800df83be4c228c#64, 0x5c4b20ceef897524#64, 0xde1d69c947645735#64⟩ := by decide
/-- H3: "fish" after H_INIT (40_hash_mixer.md R97). -/
theorem test_hFinal_fish :
    answer (exec (.hFinal 4#3 0x68736966#64) { hashing with v := initialWords Params.standard, len := 0#8 }) =
      some ⟨0#8, 0x778ec0f41608f216#64⟩ := by decide
/-- H16: a second H_FINAL raises Protocol; H14: a third byte is an illegal operand first. -/
theorem test_hFinal_errors :
    answer (exec (.hFinal 0#3 0#64) small) = some ⟨3#8, 0#64⟩ ∧
    answer (exec (.hFinal 2#3 0x10000#64) hashing) = some ⟨5#8, 0#64⟩ := by decide
/-- The published SipHash-2-4 value of section 1 (class G): the round, the injection and the finalisation together. -/
theorem test_khmDigest_siphash :
    khmDigest { Params.standard with
        iv0 := 0x7469686173716475#64, iv1 := 0x6b617f6d656e6665#64, iv2 := 0x6b7f62616d677361#64, iv3 := 0x7b6b696e727e6c7b#64 }
      [0#8, 1#8, 2#8, 3#8, 4#8, 5#8, 6#8, 7#8, 8#8, 9#8, 10#8, 11#8, 12#8, 13#8, 14#8] = 0xa129ca6149be45e5#64 := by decide
/-- H7, P4: "abcdefghi" with C_ROUNDS = 4. -/
theorem test_hash_four_rounds :
    answer (exec (.hash [0x61#8, 0x62#8, 0x63#8, 0x64#8, 0x65#8, 0x66#8, 0x67#8, 0x68#8, 0x69#8])
      { small with params := { Params.standard with cRounds := .four } }) = some ⟨0#8, 0xb54b646cd46713d1#64⟩ := by decide

/-! ### BPE -/

/-- B4 and B5: overlapping fields, and a probe that wraps. -/
theorem test_split_overlaps :
    splitHigh 0x8000000000000001#64 63#6 = 0x4000000000000000#64 ∧ splitLow 0x8000000000000001#64 63#6 = 1#64 := by decide
theorem test_probe_wraps :
    probe 1 (splitLow 0xfedcba9876543210#64 16#6) (splitHigh 0xfedcba9876543210#64 16#6) 16#6 = 0x30ec#64 := by decide
/-- B1: the probes 0x002, 0x1f1, 0x1e0 of P_GEN with K = 3; the lanes of A4 are replaced. -/
theorem test_pGen :
    look (fun s => (s.laneMask, s.idxAt 0#6, s.idxAt 1#6, s.idxAt 2#6)) (exec .pGen threeLanes) =
      some (7#64, 0x002#64, 0x1f1#64, 0x1e0#64) := by decide
/-- Section 4's protocol vectors: no filter, then no digest. -/
theorem test_pGen_errors :
    answer (exec .pGen State.reset) = some ⟨2#8, 0#64⟩ ∧ answer (exec .pGen hashing) = some ⟨3#8, 0#64⟩ := by decide

/-! ### PBP -/

/-- A11, A12: IndexRange and IllegalCommand. -/
theorem test_idxWr_errors :
    answer (exec (.idxWr 0#6 0x200#64) small) = some ⟨4#8, 0#64⟩ ∧
    answer (exec (.idxWr 16#6 0#64) small) = some ⟨5#8, 0#64⟩ := by decide
/-- Program 3: IDX_WR 5, 0x1ff. -/
theorem test_idxWr :
    look (fun s => (s.laneMask, s.idxAt 5#6)) (exec (.idxWr 5#6 0x1ff#64) threeLanes) = some (0x27#64, 0x1ff#64) := by decide
/-- R112's example: LANEMASK 0b111 becomes 0. -/
theorem test_idxClr : look (fun s => s.laneMask) (exec .idxClr threeLanes) = some 0#64 := by decide
/-- A4. -/
theorem test_bSet :
    look (fun s => s.mem.cells) (exec .bSet threeLanes) = some [(0x1d, 0x80#8), (0x20, 0x20#8), (0x23, 0x08#8)] := by decide
/-- A7: two lanes in one byte both land. -/
theorem test_bSet_same_byte :
    look (fun s => s.mem.cells)
      (exec .bSet { small with laneMask := 3#64, idx := laneFile (fun j => if j = 0#6 then 0x1ff#64 else 0x1f8#64) }) =
      some [(0x3f, 0x81#8)] := by decide
/-- A5; A10: no lane, an empty conjunction. -/
theorem test_bTest :
    answer (exec .bTest filled) = some ⟨0#8, 1#64⟩ ∧ look (fun s => s.testVec) (exec .bTest filled) = some 7#64 := by decide
theorem test_bTest_no_lane :
    answer (exec .bTest small) = some ⟨0#8, 1#64⟩ ∧ look (fun s => s.testVec) (exec .bTest small) = some 0#64 := by decide
/-- R117: the array is zero, the lanes stay. -/
theorem test_bClear : look (fun s => (s.mem.cells, s.laneMask)) (exec .bClear filled) = some ([], 7#64) := by decide
/-- R124 (d): after B_CLEAR the lanes of A4 test as 0. -/
theorem test_bTest_after_bClear : answer (andThen (exec .bClear filled) (exec .bTest)) = some ⟨0#8, 0#64⟩ := by decide
theorem test_clear : look (fun s => s.mem.cells) (exec .clear filled) = some [] := by decide
/-- A13: the last byte, and AddrRange one above it. -/
theorem test_mRd :
    answer (exec (.mRd 0x3f#64) filled) = some ⟨0#8, 0x81#64⟩ ∧ answer (exec (.mRd 0x40#64) filled) = some ⟨6#8, 0#64⟩ := by
  decide
/-- A14, A15: M_WR replaces the byte, and zero removes it from the list. -/
theorem test_mWr :
    look (fun s => s.mem.cells) (exec (.mWr 0#64 0xff#8) small) = some [(0, 0xff#8)] ∧
    look (fun s => s.mem.cells) (exec (.mWr 0#64 0#8) { small with mem := array [(0, 0xff#8)] }) = some [] := by decide

/-! ### Filter commands -/

/-- F_ADD of B1's digest: bits 0x002, 0x1f1, 0x1e0, bytes computed by R114. -/
theorem test_fAdd :
    look (fun s => s.mem.cells) (exec .fAdd small) = some [(0x00, 0x04#8), (0x3c, 0x01#8), (0x3e, 0x02#8)] := by decide
/-- F_HAS on an empty array answers 0 (43_filter_ops.md R137). -/
theorem test_fHas : answer (exec .fHas small) = some ⟨0#8, 0#64⟩ := by decide
/-- Program 4's priority: F_ADD from reset is NotConfigured, not Protocol. -/
theorem test_fAdd_priority : answer (exec .fAdd State.reset) = some ⟨2#8, 0#64⟩ := by decide
/-- Program 1: ADD "fish" with EXP = 9, K = 3 sets bytes 0x1d, 0x20, 0x23. -/
theorem test_add_fish :
    look (fun s => s.mem.cells) (exec (.add [0x66#8, 0x69#8, 0x73#8, 0x68#8]) small) =
      some [(0x1d, 0x80#8), (0x20, 0x20#8), (0x23, 0x08#8)] := by decide
/-- Program 1: HAS "fish" answers 1 and HAS "Fish" answers 0 on that array. -/
theorem test_has_fish :
    answer (exec (.has [0x66#8, 0x69#8, 0x73#8, 0x68#8]) filled) = some ⟨0#8, 1#64⟩ ∧
    answer (exec (.has [0x46#8, 0x69#8, 0x73#8, 0x68#8]) filled) = some ⟨0#8, 0#64⟩ := by decide

/-! ### The step -/

/-- Program 4: a reserved opcode records its own byte; the first error is kept. -/
theorem test_step_reserved :
    look (fun s => (s.err, s.errop)) (step (State.reset.withFetchWord 80 0x05000000000000000000)) = some (5#8, 0x05#8) ∧
    look (fun s => (s.err, s.errop)) (step (filled.withFetchWord 80 0x05000000000000000000)) = some (3#8, 0x11#8) := by decide
/-- Program 3's first line, placed and stepped. -/
theorem test_step_cfg :
    look (fun s => (s.cfgValid, s.exp, s.k)) (step (State.reset.withFetchWord 80 0x02010000000000000009)) =
      some (true, 9#6, 1#7) := by decide

/-! ### Witnesses: for every obligation with hypotheses, a state and operands that meet them, at the clauses' boundaries -/

/-- EncodedCommandDecodesToItself: the last lane and lane CSR, a full tail, a CFG with every operand bit. -/
theorem witness_EncodedCommandDecodesToItself :
    (Instr.wf Params.standard (.idxWr 15#6 0xffffffffffffffff#64) = true ∧
      encodeCommand (.idxWr 15#6 0xffffffffffffffff#64) = some 0x210fffffffffffffffff#80) ∧
    (Instr.wf Params.standard (.csrRd (.idx 15#6)) = true ∧
      encodeCommand (.csrRd (.idx 15#6)) = some 0x034f0000000000000000#80) ∧
    (Instr.wf Params.standard (.hFinal 7#3 0xffffffffffffff#64) = true ∧
      encodeCommand (.hFinal 7#3 0xffffffffffffff#64) = some 0x120700ffffffffffffff#80) ∧
    (Instr.wf Params.standard (.cfg 63#6 127#7) = true ∧ encodeCommand (.cfg 63#6 127#7) = some 0x027f000000000000003f#80) := by
  decide

theorem witness_DecodedCommandHasNoOtherWord :
    decode Params.standard 0x034f0000000000000000#80 = .ok (.csrRd (.idx 15#6)) := by decide

/-- OpcodeTableSelectsTheCommands, second clause: a word that matches a row. -/
theorem witness_OpcodeTableSelectsTheCommands :
    (0x34000000000000000000#80, 0xff000000000000000000#80) ∈ opcodeTable ∧
    selectsRow 0x34ff000000000000003f#80 (0x34000000000000000000#80, 0xff000000000000000000#80) = true := by decide

theorem witness_PseudoWordsDecodeToExpansion : (Instr.hash []).isPseudo = true ∧ (Instr.new 9#6 1#7).isPseudo = true := by
  decide

/-- MessageIsCutIntoWords: nine bytes have a block 0 with byte 7, a trailing byte 0, and free bits from 8 to 55. -/
theorem witness_MessageIsCutIntoWords :
    (List.replicate 9 0xff#8).length = 9 ∧ 0 < 9 / 8 ∧ 7 < 8 ∧ 0 < 9 % 8 ∧ 8 * (9 % 8) ≤ 55 ∧ 55 < 56 := by decide

theorem witness_StepRunsTheDecodedCommand :
    ({ small with host := [.command 0x41000000000000000000#80, .reset] } : State).host =
      .command 0x41000000000000000000#80 :: [.reset] ∧
    decode small.params 0x41000000000000000000#80 = .ok .fHas := by decide

theorem witness_PlacedTableWordIsExecuted :
    small.params = Params.standard ∧ decodeTableWord 80 0x210500000000000001ff = some (.idxWr 5#6 0x1ff#64) := by decide

theorem witness_IllegalWordRaisesIllegalCommand :
    ∀ i : Instr, decode small.params 0x05000000000000000000#80 ≠ .ok i := by
  have h : decode small.params 0x05000000000000000000#80 = .error .reservedOpcode := by decide
  intro i hi
  rw [h] at hi
  cases hi

theorem witness_ResetGivesTheResetState :
    ({ small with host := [.reset] } : State).host = .reset :: [] ∧
    ({ small with host := [.resetDuring 0x30000000000000000000#80] } : State).host =
      .resetDuring 0x30000000000000000000#80 :: [] := by decide

theorem witness_OtherInputsWaitOrStop :
    small.host = [] ∧ ({ small with host := [.secondCommand 0#80] } : State).host = .secondCommand 0#80 :: [] ∧
    ({ small with host := [.foreignWrite 0 1#8] } : State).host = .foreignWrite 0 1#8 :: [] := by decide

/-- ResponseCodeIsTheFirstFailingCheck, with valid lanes at the edge of the array. -/
theorem witness_ResponseCodeIsTheFirstFailingCheck :
    Instr.bSet.isPseudo = false ∧ threeLanes.lanesInRange = true ∧
    ({ threeLanes with idx := laneFile (fun _ => 0x1ff#64) } : State).lanesInRange = true ∧
    ({ threeLanes with idx := laneFile (fun _ => 0x200#64) } : State).lanesInRange = false := by decide

theorem witness_FaultChangesOnlyTheErrorPair :
    (Instr.fAdd).isPseudo = false ∧
    ∃ t : State, exec .fAdd State.reset = .next t ∧ t.rsps = ⟨2#8, 0#64⟩ :: State.reset.rsps ∧ (2#8 : Byte) ≠ 0#8 :=
  ⟨rfl, _, rfl, rfl, by decide⟩

theorem witness_OnlyErrClrAndResetClearTheErrorPair :
    Instr.nop ≠ .errClr ∧ Instr.nop ≠ .reset ∧ filled.err ≠ 0#8 ∧ ∃ t : State, exec .nop filled = .next t :=
  ⟨by decide, by decide, by decide, _, rfl⟩

/-- CfgConstructsAFilter: both ends of each range inside, and one beyond each end. -/
theorem witness_CfgConstructsAFilter :
    (9 ≤ (9#6).toNat ∧ (9#6).toNat ≤ small.params.expMax ∧ 1 ≤ (1#7).toNat ∧ (1#7).toNat ≤ small.params.kMax) ∧
    (9 ≤ (63#6).toNat ∧ (63#6).toNat ≤ small.params.expMax ∧ 1 ≤ (16#7).toNat ∧ (16#7).toNat ≤ small.params.kMax) ∧
    (8#6).toNat < 9 ∧ ({ small.params with expMax := 20 } : Params).expMax < (21#6).toNat ∧ (0#7).toNat < 1 ∧
    small.params.kMax < (17#7).toNat := by decide

/-- CsrReadShowsTheRegister: an always readable CSR, the split, a valid lane. -/
theorem witness_CsrReadShowsTheRegister :
    firstError (.csrRd .status) State.reset = 0#8 ∧ firstError (.csrRd .low) small = 0#8 ∧
    firstError (.csrRd (.idx 2#6)) threeLanes = 0#8 := by decide

theorem witness_HAbsorbMixesOneBlock : hashing.hphase = .absorb ∧ small.hphase ≠ .absorb := by decide

/-- HFinalMakesTheDigest: the largest tail of one byte, the smallest too large, and phases DONE and ABSORB. -/
theorem witness_HFinalMakesTheDigest :
    (0xff#64 : Word).toNat < 2 ^ (8 * (1#3).toNat) ∧ (0#64 : Word).toNat < 2 ^ (8 * (0#3).toNat) ∧ hashing.hphase = .absorb ∧
    2 ^ (8 * (1#3).toNat) ≤ (0x100#64 : Word).toNat ∧ 2 ^ (8 * (0#3).toNat) ≤ (1#64 : Word).toNat ∧
    small.hphase ≠ .absorb := by decide

theorem witness_ShortMessageDigestIsMix64 : (List.replicate 7 0x61#8).length ≤ 7 := by decide

theorem witness_PGenLoadsTheProbes :
    (small.cfgValid = true ∧ small.hphase = .done) ∧ State.reset.cfgValid = false ∧
    (hashing.cfgValid = true ∧ hashing.hphase ≠ .done) ∧ (15#6 : Lane).toNat < small.params.kMax ∧
    (2#6 : Lane).toNat < small.k.toNat := by decide

/-- IdxWrWritesOneLane: the last lane and index, and one above each. -/
theorem witness_IdxWrWritesOneLane :
    ((15#6 : Lane).toNat < small.params.kMax ∧ small.cfgValid = true ∧ (0x1ff#64 : Word).toNat < 2 ^ small.exp.toNat) ∧
    small.params.kMax ≤ (16#6 : Lane).toNat ∧
    ((15#6 : Lane).toNat < State.reset.params.kMax ∧ State.reset.cfgValid = false) ∧
    2 ^ small.exp.toNat ≤ (0x200#64 : Word).toNat := by decide

theorem witness_BSetSetsTheLanesBits :
    (threeLanes.cfgValid = true ∧ threeLanes.lanesInRange = true) ∧ State.reset.cfgValid = false := by decide

theorem witness_BTestTestsTheLanesBits :
    (filled.cfgValid = true ∧ filled.lanesInRange = true) ∧ State.reset.cfgValid = false := by decide

theorem witness_BClearZeroesTheArray :
    (Instr.clear = .bClear ∨ Instr.clear = .clear) ∧ filled.cfgValid = true ∧ State.reset.cfgValid = false := by decide

/-- MRdReadsOneByte and MWrWritesOneByte: the last byte, and one above it. -/
theorem witness_MRdReadsOneByte :
    (filled.cfgValid = true ∧ (0x3f#64 : Word).toNat < 2 ^ filled.exp.toNat / 8) ∧ State.reset.cfgValid = false ∧
    2 ^ filled.exp.toNat / 8 ≤ (0x40#64 : Word).toNat := by decide
theorem witness_MWrWritesOneByte :
    (small.cfgValid = true ∧ (0x3f#64 : Word).toNat < 2 ^ small.exp.toNat / 8) ∧ State.reset.cfgValid = false ∧
    2 ^ small.exp.toNat / 8 ≤ (0x40#64 : Word).toNat := by decide

theorem witness_BSetIsIdempotentAndTestsAsOne : threeLanes.cfgValid = true ∧ threeLanes.lanesInRange = true := by decide

/-- BitArrayPortKeepsOtherBits: three valid lanes in range, a state of the invariant with one, a test and a read that
complete. -/
theorem witness_BitArrayPortKeepsOtherBits :
    (threeLanes.cfgValid = true ∧ threeLanes.lanesInRange = true) ∧ (filled.cfgValid = true ∧ filled.laneValid 0#6 = true) ∧
    (∃ t : State, exec .bTest filled = .next t) ∧ ∃ t : State, exec (.mRd 0x3f#64) filled = .next t :=
  ⟨by decide, by decide, next_of_isNext _ (by decide), next_of_isNext _ (by decide)⟩

theorem witness_OnlyClearingCommandsClearBits :
    mayClearBits .bSet = false ∧ (∃ t : State, exec .bSet filled = .next t) ∧ arrayBit filled.mem 0x1ff = true :=
  ⟨rfl, next_of_isNext _ (by decide), by decide⟩

theorem witness_CanonicalMemoriesAreEqualData :
    filled.mem.wf ∧ (Memory.lost 3).wf ∧ ∀ a : Nat, filled.mem.read a = filled.mem.read a :=
  ⟨by decide, by decide, fun _ => rfl⟩

/-- BSetsCommute: two lane files that differ, with indices up to the edge, both in range. -/
theorem witness_BSetsCommute :
    small.cfgValid = true ∧
    ({ small with idx := laneFile (fun _ => 0x1ff#64), laneMask := 0x8001#64 } : State).lanesInRange = true ∧
    ({ small with idx := laneFile (fun _ => 0#64), laneMask := 0xffff#64 } : State).lanesInRange = true := by decide

theorem witness_FAddSetsTheProbes :
    (small.cfgValid = true ∧ small.hphase = .done) ∧ State.reset.cfgValid = false ∧
    (hashing.cfgValid = true ∧ hashing.hphase ≠ .done) := by decide
theorem witness_FHasTestsTheProbes :
    (filled.cfgValid = true ∧ filled.hphase = .done) ∧ State.reset.cfgValid = false ∧
    (hashing.cfgValid = true ∧ hashing.hphase ≠ .done) := by decide
theorem witness_FilterCommandsAreTheirPairs : filled.cfgValid = true ∧ filled.hphase = .done := by decide

theorem witness_PseudoCommandIsItsWordsStepped : (Instr.add [0x61#8]).isPseudo = true ∧ Instr.clear.isPseudo = true := by decide

theorem witness_AddInsertsTheMessage : small.cfgValid = true ∧ State.reset.cfgValid = false := by decide
theorem witness_HasTestsTheMessage : filled.cfgValid = true ∧ State.reset.cfgValid = false := by decide

/-- NoFalseNegatives: ADD completes, and so does a run of a HAS and a B_SET after it. -/
theorem witness_NoFalseNegatives :
    small.cfgValid = true ∧ ∃ t u : State, exec (.add [0x61#8]) small = .next t ∧
      (∀ i ∈ [Instr.has [], Instr.bSet], mayClearBits i = false) ∧ runAll [.has [], .bSet] t = .next u := by
  have h : isNext (andThen (exec (.add [0x61#8]) small) (runAll [.has [], .bSet])) = true := by decide
  obtain ⟨u, hu⟩ := next_of_isNext _ h
  obtain ⟨t, ht, htu⟩ := (andThen_eq_next _ _ _).mp hu
  exact ⟨rfl, t, u, ht, by decide, htu⟩

/-- A configured state of the invariant, with an array that is not empty and lanes at its edge. -/
theorem filled_inv : StateInv filled where
  paramsLegal := by decide
  config := by decide
  lanes := by decide
  testVecWidth := by decide
  errPair := by decide
  memWf := by decide
  memListed := by decide
  memExtent := by decide
  memValue := by decide

theorem witness_BitArrayPortKeepsOtherBits_inv : StateInv filled := filled_inv

theorem witness_ClearedFilterHoldsNothing : StateInv filled ∧ filled.cfgValid = true := ⟨filled_inv, rfl⟩

/-- ArrayDependsOnTheEntriesOnly: two orders of two entries, on two machines. -/
theorem witness_ArrayDependsOnTheEntriesOnly :
    State.reset.params = small.params ∧ 9 ≤ (9#6).toNat ∧ (9#6).toNat ≤ State.reset.params.expMax ∧ 1 ≤ (3#7).toNat ∧
    (3#7).toNat ≤ State.reset.params.kMax ∧ [[], [0x61#8]].Perm [[0x61#8], []] ∧
    (∃ t, runAll (.new 9#6 3#7 :: [[], [0x61#8]].map .add) State.reset = .next t) ∧
    (∃ t, runAll (.new 9#6 3#7 :: [[0x61#8], []].map .add) small = .next t) :=
  ⟨rfl, by decide, by decide, by decide, by decide, .swap _ _ _, next_of_isNext _ (by decide), next_of_isNext _ (by decide)⟩

/-- DumpIsRestored: the dumped filter is not empty, and the other state is the one after reset. -/
theorem witness_DumpIsRestored :
    StateInv filled ∧ filled.cfgValid = true ∧ State.reset.params = filled.params ∧ filled.mem.read 0x3f = 0x81#8 :=
  ⟨filled_inv, rfl, rfl, by decide⟩

theorem witness_ResetStateMeetsTheInvariant : Params.standard.Legal := by decide

/-- `filled` with a command given. -/
theorem given_inv (xs : List HostInput) : StateInv { filled with host := xs } :=
  ⟨filled_inv.paramsLegal, filled_inv.config, filled_inv.lanes, filled_inv.testVecWidth, filled_inv.errPair,
    filled_inv.memWf, filled_inv.memListed, filled_inv.memExtent, filled_inv.memValue⟩

theorem witness_EveryStepKeepsTheInvariant :
    ∃ s t : State, StateInv s ∧ step s = .next t ∧ s.host = [.command 0x30000000000000000000#80] := by
  obtain ⟨t, ht⟩ := next_of_isNext (step { filled with host := [.command 0x30000000000000000000#80] }) (by decide)
  exact ⟨_, t, given_inv _, ht, rfl⟩

theorem witness_NoStepChangesTheParameters : ∃ s t : State, step s = .next t ∧ s.host = [.reset] :=
  ⟨{ small with host := [.reset] }, _, rfl, rfl⟩

theorem witness_EveryContractInputCompletes :
    StateInv { filled with host := [.command 0x31000000000000000000#80, .reset, .resetDuring 0#80] } ∧
    ∀ x ∈ [HostInput.command 0x31000000000000000000#80, .reset, .resetDuring 0#80], x.inContract = true :=
  ⟨given_inv _, by decide⟩

/-- ValuelessRegistersAreNeverObserved: two reset states that hold different free values, MEM's among them. -/
theorem witness_ValuelessRegistersAreNeverObserved :
    StateInv (State.resetOf Params.standard 0) ∧
    StateInv { State.resetOf Params.standard 0 with digest := 1#64, len := 2#8, exp := 3#6, mem := Memory.lost 4, fresh := 5 } ∧
    SameShown (State.resetOf Params.standard 0)
      { State.resetOf Params.standard 0 with digest := 1#64, len := 2#8, exp := 3#6, mem := Memory.lost 4, fresh := 5 } := by
  have hl : ∀ j : Lane, (0#64 : Word).getLsbD j.toNat = true → False := by simp
  refine ⟨⟨by decide, by decide, fun j h => (hl j h).elim, fun j h => (hl j h).elim, by decide, by decide, by decide,
      by decide, by decide⟩,
    ⟨by decide, by decide, fun j h => (hl j h).elim, fun j h => (hl j h).elim, by decide, by decide, by decide, by decide,
      by decide⟩,
    ⟨rfl, rfl, rfl, rfl, rfl, rfl, rfl, rfl, rfl, rfl, fun h => absurd rfl h, fun h => (by cases h), fun h => (by cases h),
      fun h => (by cases h), fun j h => (hl j h).elim⟩⟩

/-! ### The host's sizing -/

/-- Ties go to the even significand: 2^53 + 1 lies halfway between two numbers of `f64` (hand calculation). -/
theorem test_f64_tie_to_even : RoundsTo 9007199254740993 (.fin 9007199254740992) := by
  refine ⟨1, 4503599627370496, ⟨by norm_num, by norm_num, .inl (by norm_num)⟩, ⟨?_, fun _ => by decide⟩, .inl ⟨?_, ?_⟩⟩
  · norm_num [abs_le]
  · exact lt_of_le_of_lt (b := 2 ^ 54) (by norm_num [abs_le]) (pow_lt_pow_right₀ (by norm_num) (by norm_num))
  · norm_num

/-- 2^1024 is beyond the largest number: overflow (hand calculation). -/
theorem test_f64_overflows : RoundsTo (2 ^ 1024) (.inf false) := by
  have h972 : (2 : ℝ) ^ (972 : ℤ) = 2 ^ 972 := zpow_natCast 2 972
  have hx : (2 : ℝ) ^ 1024 = 2 ^ 52 * 2 ^ 972 := by rw [← pow_add]
  have hp : (0 : ℝ) < 2 ^ 972 := by positivity
  refine ⟨972, 4503599627370496, ⟨by norm_num, ?_, .inl ?_⟩, ?_, .inr ⟨?_, rfl⟩⟩ <;> rw [h972, hx]
  · rw [abs_of_pos (by positivity)]; exact mul_lt_mul_of_pos_right (by norm_num) hp
  · exact le_abs_self _
  · rw [mul_div_cancel_right₀ _ hp.ne', NearestEven]; norm_num
  · refine le_trans ?_ (le_abs_self _)
    exact mul_le_mul_of_nonneg_right (by norm_num) hp.le

/-- A number of less than 53 bits' worth of the least place rounds to whole least places (underflow). -/
theorem roundsTo_least_places {x q : ℝ} (m : ℤ) (hx : x = q * 2 ^ (-1074 : ℤ)) (h0 : 0 ≤ q) (hq : q < 2 ^ 53)
    (hm : |q - m| < 1 / 2) : RoundsTo x (.fin (m * (2 : ℝ) ^ (-1074 : ℤ))) := by
  have hp := two_zpow_pos (-1074)
  have ha : |x| = q * 2 ^ (-1074 : ℤ) := by rw [hx, abs_of_nonneg (mul_nonneg h0 hp.le)]
  refine roundsTo_of_near _ _ ⟨le_refl _, ?_, .inr rfl⟩ ?_ ?_
  · rw [ha]; exact mul_lt_mul_of_pos_right hq hp
  · rwa [hx, mul_div_cancel_right₀ _ hp.ne']
  · rw [ha]
    refine (mul_le_mul hq.le (zpow_le_one_of_nonpos₀ (by norm_num) (by norm_num) : (2 : ℝ) ^ (-1074 : ℤ) ≤ 1) hp.le
      (by norm_num)).trans (by norm_num)

/-- The least entry count with the rate 1/4: the formula's numbers are 1, 2 and 1 least places, and the quotient is 1 (hand
calculation). -/
theorem test_sizing_underflows :
    ∃ rawBits : F64, DerivedNumbers (.fin (2 ^ (-1074 : ℤ))) (1 / 4) rawBits (.fin 1) := by
  have hp := two_zpow_pos (-1074)
  refine ⟨.fin ((2 : ℤ) * (2 : ℝ) ^ (-1074 : ℤ)), _, _, _, .fin ((1 : ℤ) * (2 : ℝ) ^ (-1074 : ℤ)), _,
    .fin ((1 : ℤ) * (2 : ℝ) ^ (-1074 : ℤ)), logsTo_quarter, logsTo_two,
    rfl, ?_, square_log_two, (dividesTo_fin _ _ _).mpr ⟨by norm_num, ?_⟩, ?_,
    (dividesTo_fin _ _ _).mpr ⟨hp.ne', ?_⟩⟩
  · exact roundsTo_least_places (q := (6243314768165359 : ℤ) * (2 : ℝ) ^ (-52 : ℤ)) 1 (by ring) (by norm_num) (by norm_num)
      (by norm_num [abs_lt])
  · exact roundsTo_least_places (q := 1 / ((8655072057804174 : ℤ) * (2 : ℝ) ^ (-54 : ℤ))) 2 (by push_cast; ring)
      (by norm_num) (by norm_num) (by norm_num [abs_lt])
  · exact roundsTo_least_places (q := (6243314768165359 : ℤ) * (2 : ℝ) ^ (-53 : ℤ) * 2) 1 (by push_cast; ring)
      (by norm_num) (by norm_num) (by norm_num [abs_lt])
  · rw [Int.cast_one, one_mul, div_self hp.ne']
    exact roundsTo_self ⟨1, 0, by norm_num, by norm_num, by norm_num, by norm_num⟩

/-- The least entry count with the rate 0.999: the product underflows to 0, and there is still one probe (45_host_sizing.md
R172). -/
theorem test_sizing_gives_a_probe (r : HostSize) :
    NewFilter (.fin (2 ^ (-1074 : ℤ))) (.fin 0.999) r ↔ r = .sized 9 1 := by
  have hp := two_zpow_pos (-1074)
  have hlog : 0 ≤ -Real.log 0.999 ∧ -Real.log 0.999 ≤ 2 ^ (-4 : ℤ) := by
    have h1 := Real.log_nonpos (x := 0.999) (by norm_num) (by norm_num)
    have h2 := Real.one_sub_inv_le_log_of_pos (x := 0.999) (by norm_num)
    norm_num at h1 h2 ⊢
    exact ⟨h1, by linarith⟩
  obtain ⟨y, hy⟩ := exists_roundsTo (-Real.log 0.999)
  obtain ⟨l, rfl, l0, l1⟩ := hy.small hlog.1 hlog.2 (by norm_num) (by norm_num)
  norm_num at l1
  have hl : LogsTo 0.999 (.fin (-l)) := by simpa [LogsTo] using hy.neg
  have zero : RoundsTo 0 (.fin 0) := roundsTo_self ⟨0, 0, by norm_num, by norm_num, by norm_num, by norm_num⟩
  have product : RoundsTo (-2 ^ (-1074 : ℤ) * -l) (.fin 0) := by
    have h := roundsTo_least_places (x := -2 ^ (-1074 : ℤ) * -l) (q := l) 0 (by ring) l0 (by linarith)
      (by rw [Int.cast_zero, sub_zero, abs_of_nonneg l0]; linarith)
    rwa [Int.cast_zero, zero_mul] at h
  have hd : DerivedNumbers (.fin (2 ^ (-1074 : ℤ))) 0.999 (.fin 0) (.fin 0) :=
    ⟨_, _, _, .fin 0, _, .fin 0, hl, logsTo_two, rfl, product, square_log_two,
      (dividesTo_fin _ _ _).mpr ⟨by norm_num, by rwa [zero_div]⟩, (multipliesTo_fin _ _ _).mpr (by rwa [mul_zero]),
      (dividesTo_fin _ _ _).mpr ⟨hp.ne', by rwa [zero_div]⟩⟩
  rw [newFilter_of_numbers hp (by norm_num) (by norm_num) hd ⟨le_refl 9, by norm_num, fun e h _ => h⟩ r, Nat.ceil_zero]
  rfl

/-- SizingRoundsUpToAPowerOfTwo, explicit mode: 513 bits need 1024, no bits need the floor. -/
theorem witness_SizingRoundsUpToAPowerOfTwo_explicit :
    1 ≤ 7 ∧ ¬ (F64.fin (7 : Nat)).lt 1 ∧ NewFilter (.fin 513) (.fin (7 : Nat)) (.sized 10 7) ∧
    NewFilter (.fin (-3)) (.fin (7 : Nat)) (.sized 9 7) := by
  refine ⟨by decide, by norm_num, (newFilter_explicit (by decide) ⟨by norm_num, by norm_num, ?_⟩ _).mpr rfl,
    (newFilter_explicit (by decide) ⟨by norm_num, by norm_num, fun e h _ => h⟩ _).mpr rfl⟩
  intro e h9 he
  by_contra hc
  have : e = 9 := by omega
  subst this
  norm_num at he

/-- SizingRoundsUpToAPowerOfTwo, derived mode: one entry at a rate of one half (section 7's row `(1, 0.5)`) has a size. -/
theorem witness_SizingRoundsUpToAPowerOfTwo_derived :
    IsBinary64 1 ∧ IsBinary64 (1 / 2) ∧ (1 : ℝ) ≤ 2 ^ 1000 ∧ (1 / 2 : ℝ) < 1 ∧ (2 : ℝ) ^ (-900 : ℤ) ≤ 1 ∧
    ∃ exp k : Nat, NewFilter (.fin 1) (.fin (1 / 2)) (.sized exp k) := by
  obtain ⟨raw, probes, h⟩ := exists_derivedNumbers (.fin 1) (1 / 2) (by rw [ne_eq, F64.fin.injEq]; norm_num)
  obtain ⟨exp, he⟩ := exists_sizesTo raw
  obtain ⟨k, hk⟩ := exists_ceilsTo probes
  exact ⟨⟨1, 0, by norm_num, by norm_num, by norm_num, by norm_num⟩,
    ⟨1, -1, by norm_num, by norm_num, by norm_num, by norm_num⟩, one_le_pow₀ (by norm_num), by norm_num,
    zpow_le_one_of_nonpos₀ (by norm_num) (by norm_num), exp, k,
    (newFilter_derived (by norm_num) (by norm_num) (by norm_num) _).mpr ⟨raw, probes, exp, k, h, he, hk, rfl⟩⟩

theorem witness_SizingOfTheRecurringExample : ∃ rate : F64, RoundsTo 0.01 rate := exists_roundsTo 0.01

/-- SizingOfTheWorkedExamples: every rate has its number of `f64`. -/
theorem witness_SizingOfTheWorkedExamples :
    ∀ q ∈ [(0.01 : ℝ), 0.001, 0.5, 0.999, 0.25], ∃ rate : F64, RoundsTo q rate := fun q _ => exists_roundsTo q

/-- SizingFailsOutOfRange: section 7's rows `(0, 0.01)` and `(100, 0)`. -/
theorem witness_SizingFailsOutOfRange :
    ((F64.fin 0.01).lt 1 ∧ (F64.fin 0).le 0 ∧ NewFilter (.fin 0) (.fin 0.01) .invalidConfiguration) ∧
    ((F64.fin 0).lt 1 ∧ (F64.fin 0).le 0 ∧ NewFilter (.fin 100) (.fin 0) .invalidConfiguration) := by
  refine ⟨⟨by norm_num, by norm_num, .inl ⟨by norm_num, .inl ⟨.inl (by norm_num), rfl⟩⟩⟩,
    ⟨by norm_num, by norm_num, .inl ⟨by norm_num, .inl ⟨.inr ?_, rfl⟩⟩⟩⟩
  rintro x h0 - h
  cases h
  exact lt_irrefl _ h0

/-! ### The words that fault -/

/-- The WordsFault clauses: a word given first in the stream, with one bad bit of each command's kind (vectors H14, H15, H18,
Y6, Y10, A12 and program 4's among them). -/
theorem witness_WordsFault :
    ({ small with host := [.command 0x00000000000000000001#80] } : State).host = .command 0x00000000000000000001#80 :: [] ∧
    (0x00000000000000000001#80 : Cmd) &&& operandBits ≠ 0#80 ∧ (0x01010000000000000000#80 : Cmd) &&& operandBits ≠ 0#80 ∧
    (0x04000000000000000001#80 : Cmd) &&& operandBits ≠ 0#80 ∧ (0x10000000000000000001#80 : Cmd) &&& operandBits ≠ 0#80 :=
  ⟨rfl, by decide, by decide, by decide, by decide⟩
theorem witness_WordsFault_lanes :
    (0x20000000000000000001#80 : Cmd) &&& operandBits ≠ 0#80 ∧ (0x22800000000000000000#80 : Cmd) &&& operandBits ≠ 0#80 ∧
    (0x30000000000000000001#80 : Cmd) &&& operandBits ≠ 0#80 ∧ (0x31000000000000000001#80 : Cmd) &&& operandBits ≠ 0#80 ∧
    (0x32000000000000000001#80 : Cmd) &&& operandBits ≠ 0#80 ∧ (0x40000000000000000001#80 : Cmd) &&& operandBits ≠ 0#80 ∧
    (0x41000000000000000001#80 : Cmd) &&& operandBits ≠ 0#80 :=
  ⟨by decide, by decide, by decide, by decide, by decide, by decide, by decide⟩
theorem witness_WordsFault_fields :
    (0x02830000000000000009#80 : Cmd) &&& 0x0080ffffffffffffffc0#80 ≠ 0#80 ∧
    (0x02010000000000000040#80 : Cmd) &&& 0x0080ffffffffffffffc0#80 ≠ 0#80 ∧
    (0x03000000000000000001#80 : Cmd) &&& 0x0000ffffffffffffffff#80 ≠ 0#80 := by decide
theorem witness_WordsFault_fields' :
    (0x11010000000000000000#80 : Cmd) &&& 0x00ff0000000000000000#80 ≠ 0#80 ∧
    (0x12080000000000000000#80 : Cmd) &&& 0x00f80000000000000000#80 ≠ 0#80 := by decide
theorem witness_WordsFault_values :
    2 ^ (8 * ((0x12020000000000010000#80 : Cmd).extractLsb' 64 3).toNat) ≤
      ((0x12020000000000010000#80 : Cmd).extractLsb' 0 64).toNat ∧
    (0x21400000000000000000#80 : Cmd) &&& 0x00c00000000000000000#80 ≠ 0#80 ∧
    small.params.kMax ≤ ((0x21100000000000000000#80 : Cmd).extractLsb' 64 6).toNat ∧
    (0x33010000000000000000#80 : Cmd) &&& 0x00ff0000000000000000#80 ≠ 0#80 := by decide

/-- CsrReadShowsTheRegister, number clause: 0x0c names no CSR, 0x50 only lane 16. -/
theorem witness_CsrReadShowsTheRegister_numbers :
    ∀ c : Csr, csrNumber c = (0x030c0000000000000000#80 : Cmd).extractLsb' 64 8 ∨
      csrNumber c = (0x03500000000000000000#80 : Cmd).extractLsb' 64 8 → (Instr.csrRd c).wf Params.standard = false := by
  intro c h
  have hc := csrOfNumber_csrNumber c
  rcases h with h | h
  · rw [h, show csrOfNumber ((0x030c0000000000000000#80 : Cmd).extractLsb' 64 8) = none by decide] at hc
    cases hc
  · rw [h, show csrOfNumber ((0x03500000000000000000#80 : Cmd).extractLsb' 64 8) = some (.idx 16#6) by decide] at hc
    cases hc
    decide

/-- CsrReadShowsTheRegister, error clause: no lane, no digest, no filter. -/
theorem witness_CsrReadShowsTheRegister_errors :
    firstError (.csrRd (.idx 0#6)) small = 3#8 ∧ firstError (.csrRd .digest) hashing = 3#8 ∧
    firstError (.csrRd .low) State.reset = 2#8 ∧ firstError (.csrRd (.idx 16#6)) small = 5#8 := by decide

/-- IllegalWordRaisesIllegalCommand, second clause: the reserved opcodes next to the legal ones. -/
theorem witness_IllegalWordRaisesIllegalCommand_reserved :
    ∀ op ∈ [0x05#8, 0x0f#8, 0x13#8, 0x1f#8, 0x23#8, 0x2f#8, 0x35#8, 0x3f#8, 0x42#8, 0xff#8],
      op ∉ [0x00#8, 0x01#8, 0x02#8, 0x03#8, 0x04#8, 0x10#8, 0x11#8, 0x12#8, 0x20#8, 0x21#8, 0x22#8, 0x30#8, 0x31#8, 0x32#8,
        0x33#8, 0x34#8, 0x40#8, 0x41#8] := by decide

/-- FaultChangesOnlyTheErrorPair and OnlyErrClrAndResetClearTheErrorPair, step clauses. -/
theorem witness_FaultChangesOnlyTheErrorPair_step :
    ∃ t : State, step { filled with host := [.command 0x05000000000000000000#80] } = .next t ∧
      t.rsps = ⟨5#8, 0#64⟩ :: filled.rsps ∧ (5#8 : Byte) ≠ 0#8 :=
  ⟨_, rfl, rfl, by decide⟩
theorem witness_OnlyErrClrAndResetClearTheErrorPair_step :
    filled.err ≠ 0#8 ∧ (∃ t : State, step { filled with host := [.reset] } = .next t) ∧
    (∃ t : State, step { filled with host := [.command 0x00000000000000000000#80] } = .next t) :=
  ⟨by decide, ⟨_, rfl⟩, next_of_isNext _ (by decide)⟩

/-- FilterCommandsAreTheirPairs, fault clause. -/
theorem witness_FilterCommandsAreTheirPairs_faults : State.reset.cfgValid = false ∧ hashing.hphase ≠ .done := by decide

theorem witness_SplitTakesTopAndBottomBits : 9 ≤ (9#6).toNat ∧ 9 ≤ (63#6).toNat := by decide

theorem witness_FilterOperationsNeverFault :
    small.cfgValid = true ∧ (Instr.clear = .add [] ∨ Instr.clear = .has [] ∨ Instr.clear = .clear) := by decide

end Sys2Proof.Tests
end

section
/-! The word view of the bit array (20_memory.md R52, R53): the bits of eight bytes joined little-endian, and O38. -/

namespace Sys2Proof.Machine

/-- Joining bytes little-endian puts bit `k % 8` of byte `k / 8` at bit `k`; a byte the list does not hold counts as 0x00. -/
theorem getLsbD_le64 (bs : List Byte) (k : Nat) (hk : k < 64) :
    (le64 bs).getLsbD k = (bs.getD (k / 8) 0#8).getLsbD (k % 8) := by
  induction bs generalizing k with
  | nil => simp [le64]
  | cons b bs ih =>
    rw [le64, BitVec.getLsbD_or, BitVec.getLsbD_setWidth, BitVec.getLsbD_shiftLeft]
    rcases Nat.lt_or_ge k 8 with h8 | h8
    · have hdiv : k / 8 = 0 := by omega
      have hmod : k % 8 = k := by omega
      simp [hdiv, hmod, h8, hk]
    · have hdiv : k / 8 = (k - 8) / 8 + 1 := by omega
      have hmod : k % 8 = (k - 8) % 8 := by omega
      have hb : b.getLsbD k = false := BitVec.getLsbD_of_ge b k h8
      rw [hdiv, hmod, List.getD_cons_succ, ← ih (k - 8) (by omega)]
      simp [hb, hk, Nat.not_lt.mpr h8]

/-- Word `w` is the eight bytes from `8w`, the first least significant (R53). -/
theorem Memory.word_eq_le64 (m : Memory) (w : Nat) :
    m.word w = le64 ((List.range 8).map fun i => m.read (8 * w + i)) := rfl

/-- Bit `k` of word `w` is bit `k % 8` of byte `8w + k / 8` (R53). -/
theorem Memory.getLsbD_word (m : Memory) (w k : Nat) (hk : k < 64) :
    (m.word w).getLsbD k = (m.read (8 * w + k / 8)).getLsbD (k % 8) := by
  have h8 : k / 8 < 8 := by omega
  rw [Memory.word_eq_le64, getLsbD_le64 _ k hk]
  simp [List.getD, h8]

/-- Settles O38: bit `n % 64` of word `n / 64` lies in byte `8 * (n / 64) + n % 64 / 8 = n / 8`, at bit
`n % 64 % 8 = n % 8`. -/
theorem wordViewNamesTheSameBit : Obligations.WordViewNamesTheSameBit := by
  intro m n
  have hbyte : 8 * (n / 64) + n % 64 / 8 = n / 8 := by omega
  have hbit : n % 64 % 8 = n % 8 := by omega
  rw [Memory.getLsbD_word m (n / 64) (n % 64) (by omega), hbyte, hbit, arrayBit]

end Sys2Proof.Machine
end

section
/-! Words that are no command (30_encoding.md R76, R77): what the step does with one, the reserved opcodes, and O9. -/

namespace Sys2Proof.Machine

/-- Taking `IllegalCommand` is the whole-state change of R182 with code 5. -/
theorem faulted_takeError_illegalCommand (s : State) (op : Byte) : Faulted s (s.takeError op .illegalCommand) op 5#8 := rfl

/-- The CORE decodes and runs a command word that is the host's oldest input, which leaves the stream (R71). -/
theorem step_of_command (s : State) (w : Cmd) (rest : List HostInput) (hs : s.host = .command w :: rest) :
    step s = runCommand w { s with host := rest } := by
  simp only [step, hostTurn, hs, takeInput]

/-- A word that decodes to no command raises `IllegalCommand` under its own opcode byte (R76, R77). -/
theorem runCommand_of_no_decode (w : Cmd) (s : State) (hw : ∀ i : Instr, decode s.params w ≠ .ok i) :
    runCommand w s = .next (s.takeError (cmdOp w) .illegalCommand) := by
  rw [runCommand]
  cases h : decode s.params w with
  | ok i => exact absurd h (hw i)
  | error e => exact raise_eq s (cmdOp w) .illegalCommand

/-- One step on a word that decodes to no command: only the response and the error pair change (R182). -/
theorem step_of_no_decode (s : State) (w : Cmd) (rest : List HostInput) (hs : s.host = .command w :: rest)
    (hw : ∀ i : Instr, decode s.params w ≠ .ok i) :
    ∃ t : State, step s = .next t ∧ Faulted { s with host := rest } t (cmdOp w) 5#8 :=
  ⟨_, (step_of_command s w rest hs).trans (runCommand_of_no_decode w { s with host := rest } hw),
    faulted_takeError_illegalCommand _ _⟩

/-- If no bad word with opcode `op` decodes, every one of them faults. -/
theorem wordsFault_of_no_decode (op : Byte) (bad : Params → Cmd → Prop)
    (h : ∀ (p : Params) (w : Cmd), cmdOp w = op → bad p w → ∀ i : Instr, decode p w ≠ .ok i) : WordsFault op bad := by
  intro s w rest hs hop hbad
  have hfault := step_of_no_decode s w rest hs (h s.params w hop hbad)
  rwa [show cmdOp w = op from hop] at hfault

/-- A word that decodes to a command carries that command's opcode (R75). -/
theorem cmdOp_of_decode (p : Params) (w : Cmd) (i : Instr) (h : decode p w = .ok i) : cmdOp w = i.opcode := by
  unfold decode at h
  generalize cmdOp w = op, cmdA w = a, cmdD w = d at h ⊢
  cases decodeFields_ok p op a d i h <;> rfl

/-- Every instruction's opcode is one that R75 lists. -/
theorem opcode_mem_listed (i : Instr) :
    i.opcode ∈ [0x00#8, 0x01#8, 0x02#8, 0x03#8, 0x04#8, 0x10#8, 0x11#8, 0x12#8, 0x20#8, 0x21#8, 0x22#8, 0x30#8, 0x31#8,
      0x32#8, 0x33#8, 0x34#8, 0x40#8, 0x41#8] := by
  cases i <;> simp only [Instr.opcode] <;> decide

/-- Settles O9: the step raises `IllegalCommand` on a word with no decoding, and a word that decodes has a listed opcode,
so one with a reserved opcode has none. -/
theorem illegalWordRaisesIllegalCommand : Obligations.IllegalWordRaisesIllegalCommand := by
  refine ⟨step_of_no_decode, fun op hop => wordsFault_of_no_decode op _ fun p w hw _ i hi => hop ?_⟩
  rw [← hw, cmdOp_of_decode p w i hi]
  exact opcode_mem_listed i

end Sys2Proof.Machine
end

section
/-! H_INIT (40_hash_mixer.md R95): words of an opcode without operands that have an operand bit, and O19. -/

namespace Sys2Proof.Machine

/-- A word whose two operand fields are zero has no operand bit (R73). -/
theorem and_operandBits_of_fields (w : Cmd) (ha : cmdA w = 0#8) (hd : cmdD w = 0#64) : w &&& operandBits = 0#80 := by
  rw [← cmdWord_fields w, ha, hd, show operandBits = cmdWord 0#8 0xff#8 0xffffffffffffffff#64 by decide, cmdWord_and]
  simp only [BitVec.and_zero, BitVec.zero_and]
  decide

/-- A word that decodes to a command has that command's row of R75. -/
theorem decodesTo_of_decode (p : Params) (w : Cmd) (i : Instr) (h : decode p w = .ok i) :
    DecodesTo p (cmdOp w) (cmdA w) (cmdD w) i :=
  decodeFields_ok p _ _ _ i h

/-- If every row of opcode `op` has zero operands, any operand bit makes the word one that decodes to nothing, and it
faults (R73, R77). -/
theorem wordsFault_operandBits (op : Byte)
    (hzero : ∀ (p : Params) (a : Byte) (d : Word) (i : Instr), DecodesTo p op a d i → a = 0#8 ∧ d = 0#64) :
    WordsFault op (hasBitOf operandBits) := by
  refine wordsFault_of_no_decode op _ fun p w hop hbit i hi => hbit ?_
  have hrow := decodesTo_of_decode p w i hi
  rw [hop] at hrow
  obtain ⟨ha, hd⟩ := hzero p _ _ i hrow
  exact and_operandBits_of_fields w ha hd

/-- The only row of H_INIT's opcode is its own, with zero operands (R75). -/
theorem operands_zero_of_decodesTo_opHInit (p : Params) (a : Byte) (d : Word) (i : Instr) (h : DecodesTo p opHInit a d i) :
    a = 0#8 ∧ d = 0#64 := by
  generalize hop : opHInit = op at h
  cases h
  case hInit => exact ⟨rfl, rfl⟩
  all_goals exact absurd hop (by decide)

/-- H_INIT completes in every state and answers with data 0 (R95). -/
theorem exec_hInit (s : State) : exec .hInit s = .next (s.hashInit.respond ⟨0#8, 0#64⟩) := rfl

/-- Settles O19: H_INIT leaves `hashInit`, in every state, and its opcode's only row has zero operands. -/
theorem hInitStartsAHash : Obligations.HInitStartsAHash :=
  ⟨fun s => ⟨_, exec_hInit s, rfl⟩, wordsFault_operandBits opHInit operands_zero_of_decodesTo_opHInit⟩

end Sys2Proof.Machine
end

section
/-! Words of the bitset port that are no command (30_encoding.md R73, R77): opcodes without operands, and operand bits of the
short operand. -/

namespace Sys2Proof.Machine

/-- If no row of opcode `op` is that of a bad word, every bad word faults (R77). -/
theorem wordsFault_of_no_row (op : Byte) (bad : Params → Cmd → Prop)
    (h : ∀ (p : Params) (w : Cmd) (i : Instr), DecodesTo p op (cmdA w) (cmdD w) i → ¬ bad p w) : WordsFault op bad := by
  refine wordsFault_of_no_decode op bad fun p w hop hbad i hi => ?_
  have hrow := decodesTo_of_decode p w i hi
  rw [hop] at hrow
  exact h p w i hrow hbad

/-- The opcodes of the commands with neither operand (R73, R75). -/
def plainOpcodes : List Byte :=
  [opNop, opReset, opErrClr, opHInit, opPGen, opIdxClr, opBSet, opBTest, opBClear, opFAdd, opFHas]

/-- Every row of an opcode without operands has zero operands: the other rows have other opcodes (R73, R75). -/
theorem operands_zero_of_plainOpcode (p : Params) (op a : Byte) (d : Word) (i : Instr) (hop : op ∈ plainOpcodes)
    (h : DecodesTo p op a d i) : a = 0#8 ∧ d = 0#64 := by
  cases h
  case cfg | csrRd | hAbsorb | hFinal | idxWr | mRd | mWr => exact absurd hop (by decide)
  all_goals exact ⟨rfl, rfl⟩

/-- A word of an opcode without operands that has an operand bit faults (R77). -/
theorem wordsFault_of_plainOpcode (op : Byte) (hop : op ∈ plainOpcodes) : WordsFault op (hasBitOf operandBits) :=
  wordsFault_operandBits op fun p a d i h => operands_zero_of_plainOpcode p op a d i hop h

/-- A word whose short operand has no bit of `m` has no bit of `m` at that operand's place (R70). -/
theorem and_shortOperandMask (w : Cmd) (m : Byte) (h : cmdA w &&& m = 0#8) : w &&& cmdWord 0#8 m 0#64 = 0#80 := by
  rw [← cmdWord_fields w, cmdWord_and, h, BitVec.and_zero, BitVec.and_zero]
  decide

/-- A byte whose top two bits are zero has none of them. -/
theorem and_topTwoBits (a : Byte) (h : a.extractLsb' 6 2 = 0#2) : a &&& 0xc0#8 = 0#8 := by
  revert a
  decide

/-- The lane operand of a word is the low six bits of its short operand (R73). -/
theorem laneOperand_eq (w : Cmd) : (cmdA w).extractLsb' 0 6 = w.extractLsb' 64 6 := by
  apply BitVec.eq_of_getLsbD_eq
  intro i hi
  simp only [cmdA, BitVec.getLsbD_extractLsb', Nat.zero_add, hi, show i < 8 by omega, decide_true, Bool.true_and]

/-- An IDX_WR word with a bit at `a[7:6]`, or with a lane that does not exist, faults (R77, 41_bitset_port.md R111). -/
theorem wordsFault_opIdxWr : WordsFault opIdxWr
    (fun p w => hasBitOf 0x00c00000000000000000#80 p w ∨ p.kMax ≤ (w.extractLsb' 64 6).toNat) := by
  refine wordsFault_of_no_row _ _ fun p w i hrow => ?_
  generalize hop : opIdxWr = op, ha : cmdA w = a, cmdD w = d at hrow
  cases hrow
  case idxWr hhigh hlane =>
    subst ha
    rintro (hbit | hmissing)
    · exact hbit (and_shortOperandMask w 0xc0#8 (and_topTwoBits _ hhigh))
    · rw [laneOperand_eq] at hlane
      exact Nat.not_lt.mpr hmissing (of_decide_eq_true hlane)
  all_goals exact absurd hop (by decide)

/-- An M_RD word with a bit of the short operand faults (R77). -/
theorem wordsFault_opMRd : WordsFault opMRd (hasBitOf 0x00ff0000000000000000#80) := by
  refine wordsFault_of_no_row _ _ fun p w i hrow hbit => ?_
  generalize hop : opMRd = op, ha : cmdA w = a, cmdD w = d at hrow
  cases hrow
  case mRd => exact hbit (and_shortOperandMask w 0xff#8 (by rw [ha]; decide))
  all_goals exact absurd hop (by decide)

end Sys2Proof.Machine
end

section
/-! The bitset port (41_bitset_port.md R111 to R122): what each command answers, check by check, and O28 to O34. -/

namespace Sys2Proof.Machine

/-! ### The checks -/

/-- Taking an error is the whole-state change of R182 with the error's code. -/
theorem faulted_takeError (s : State) (op : Byte) (e : ErrCode) : Faulted s (s.takeError op e) op e.code := rfl

/-- A command that needs a filter raises `NotConfigured` without one (60_exceptions.md R178). -/
theorem withConfig_faults_not_configured (s : State) (op : Byte) (f : State → Outcome) (h : s.cfgValid = false) :
    ∃ t : State, withConfig s op f = .next t ∧ Faulted s t op 2#8 :=
  ⟨_, raise_of_not_configured s op f h, faulted_takeError s op .notConfigured⟩

/-- A raw byte access raises `NotConfigured` without a filter (R121, R122). -/
theorem withByte_faults_not_configured (s : State) (op : Byte) (addr : Word) (f : State → Outcome)
    (h : s.cfgValid = false) : ∃ t : State, withByte s op addr f = .next t ∧ Faulted s t op 2#8 :=
  withConfig_faults_not_configured s op _ h

/-- With a filter and an address below BITCOUNT/8, a raw byte access passes both checks (R121, R122). -/
theorem withByte_of_lt (s : State) (op : Byte) (addr : Word) (f : State → Outcome) (hc : s.cfgValid = true)
    (ha : addr.toNat < 2 ^ s.exp.toNat / 8) : withByte s op addr f = f s :=
  (withConfig_of_configured s op _ hc).trans (if_neg (Nat.not_le.mpr ha))

/-- With a filter, an address from BITCOUNT/8 up raises `AddrRange` (R121, R122). -/
theorem withByte_faults_addrRange (s : State) (op : Byte) (addr : Word) (f : State → Outcome) (hc : s.cfgValid = true)
    (ha : 2 ^ s.exp.toNat / 8 ≤ addr.toNat) : ∃ t : State, withByte s op addr f = .next t ∧ Faulted s t op 6#8 :=
  ⟨_, (withConfig_of_configured s op _ hc).trans (if_pos ha), faulted_takeError s op .addrRange⟩

/-! ### IDX_WR and IDX_CLR (R111, R112) -/

/-- IDX_WR of a lane that does not exist (R111). -/
theorem exec_idxWr_of_no_lane (s : State) (j : Lane) (x : Word) (hj : s.params.kMax ≤ j.toNat) :
    exec (.idxWr j x) s = .next (s.takeError opIdxWr .illegalCommand) := by
  simp [exec, execIdxWr, laneExists, Nat.not_lt.mpr hj, raise_eq]

/-- IDX_WR of a lane that exists goes on to the check for a filter, then to the index check (R111). -/
theorem exec_idxWr_of_lane (s : State) (j : Lane) (x : Word) (hj : j.toNat < s.params.kMax) :
    exec (.idxWr j x) s = withConfig s opIdxWr (fun s =>
      if s.bitCount ≤ x.toNat then raise s opIdxWr .indexRange else reply (s.writeLane j x) 0#64) := by
  simp [exec, execIdxWr, laneExists, hj]

/-- IDX_WR with an index below BITCOUNT writes the lane (R111). -/
theorem exec_idxWr_of_lt (s : State) (j : Lane) (x : Word) (hj : j.toNat < s.params.kMax) (hc : s.cfgValid = true)
    (hx : x.toNat < 2 ^ s.exp.toNat) : exec (.idxWr j x) s = .next ((s.writeLane j x).respond ⟨0#8, 0#64⟩) := by
  rw [exec_idxWr_of_lane s j x hj, withConfig_of_configured _ _ _ hc]
  exact if_neg (Nat.not_le.mpr hx)

/-- IDX_WR with an index from BITCOUNT up raises `IndexRange` (R111). -/
theorem exec_idxWr_of_le (s : State) (j : Lane) (x : Word) (hj : j.toNat < s.params.kMax) (hc : s.cfgValid = true)
    (hx : 2 ^ s.exp.toNat ≤ x.toNat) : exec (.idxWr j x) s = .next (s.takeError opIdxWr .indexRange) := by
  rw [exec_idxWr_of_lane s j x hj, withConfig_of_configured _ _ _ hc]
  exact if_pos hx

/-- Settles O28: one answer for each outcome of the three checks, and `writeLane` sets index and mask bit of its own lane. -/
theorem idxWrWritesOneLane : Obligations.IdxWrWritesOneLane := by
  refine ⟨fun s j x => ⟨fun hj hc hx => ?_, fun hj => ?_, fun hj hc => ?_, fun hj hc hx => ?_⟩, wordsFault_opIdxWr⟩
  · refine ⟨_, exec_idxWr_of_lt s j x hj hc hx, ?_, ?_, fun l hl => ⟨?_, ?_⟩, rfl⟩
    · exact (idxAt_writeLane s j j x).trans (if_pos rfl)
    · exact (getLsbD_writeLane s j j x).trans (by simp)
    · exact (idxAt_writeLane s j l x).trans (if_neg hl.symm)
    · exact (getLsbD_writeLane s j l x).trans (by simp [hl])
  · exact ⟨_, exec_idxWr_of_no_lane s j x hj, faulted_takeError s _ .illegalCommand⟩
  · rw [exec_idxWr_of_lane s j x hj]
    exact withConfig_faults_not_configured s opIdxWr _ hc
  · exact ⟨_, exec_idxWr_of_le s j x hj hc hx, faulted_takeError s _ .indexRange⟩

/-- IDX_CLR completes in every state and answers with data 0 (R112). -/
theorem exec_idxClr (s : State) : exec .idxClr s = .next (s.dropLanes.respond ⟨0#8, 0#64⟩) := rfl

/-- Settles O29: IDX_CLR leaves `dropLanes`, in every state. -/
theorem idxClrDropsTheLanes : Obligations.IdxClrDropsTheLanes :=
  ⟨fun s => ⟨_, exec_idxClr s, rfl⟩, wordsFault_of_plainOpcode opIdxClr (by decide)⟩

/-! ### B_SET and B_TEST (R115, R116) -/

/-- B_SET with a filter and lanes in range sets the lanes' bits (R115). -/
theorem exec_bSet_of_lanesInRange (s : State) (hc : s.cfgValid = true) (hl : s.lanesInRange = true) :
    exec .bSet s = .next (s.setLanes.respond ⟨0#8, 0#64⟩) :=
  (withConfig_of_configured s opBSet setValidLanes hc).trans (if_pos hl)

/-- B_TEST with a filter and lanes in range records what the lanes' bits read (R116). -/
theorem exec_bTest_of_lanesInRange (s : State) (hc : s.cfgValid = true) (hl : s.lanesInRange = true) :
    exec .bTest s = .next (s.recordTest.respond ⟨0#8, resultData s.testedAll⟩) :=
  (withConfig_of_configured s opBTest testValidLanes hc).trans (if_pos hl)

/-- Setting the lanes sets exactly the bits at the valid lanes' indices (R115). -/
theorem setsExactly_setLanes (s : State) :
    SetsExactly s s.setLanes (fun n => ∃ j : Lane, s.laneValid j = true ∧ (s.idxAt j).toNat = n) := by
  intro n
  have hbit := getLsbD_read_setLanes s (n / 8) (n % 8) (Nat.mod_lt n (by decide))
  rwa [Nat.div_add_mod] at hbit

/-- Settles O30: the bits that `setLanes` sets, where a valid lane is one that exists and has its mask bit. -/
theorem bSetSetsTheLanesBits : Obligations.BSetSetsTheLanesBits := by
  refine ⟨fun s => ⟨fun hc hl => ?_, withConfig_faults_not_configured s opBSet _⟩,
    wordsFault_of_plainOpcode opBSet (by decide)⟩
  have hsets := setsExactly_setLanes s
  simp only [laneValid_iff, and_assoc] at hsets
  exact ⟨_, exec_bSet_of_lanesInRange s hc hl, hsets, rfl⟩

/-- A lane tests the array's bit at its index (R114). -/
theorem laneBit_eq_arrayBit (s : State) (j : Lane) : s.laneBit j = arrayBit s.mem (s.idxAt j).toNat := Memory.bit_eq _ _

/-- TESTVEC's bit `j` is what lane `j` reads if it is valid, else 0 (R116). -/
theorem getLsbD_testedBits (s : State) (j : Lane) : s.testedBits.getLsbD j.toNat = (s.laneValid j && s.laneBit j) :=
  getLsbD_laneBits _ j

/-- The response data of a test is 1 or 0 (30_encoding.md R88). -/
theorem resultData_eq_ite (b : Bool) : resultData b = if b then 1#64 else 0#64 := by
  cases b <;> rfl

/-- Settles O31: `recordTest` puts what each valid lane reads into TESTVEC, and their conjunction into RESULT, which is
also the response data. -/
theorem bTestTestsTheLanesBits : Obligations.BTestTestsTheLanesBits := by
  refine ⟨fun s => ⟨fun hc hl => ?_, withConfig_faults_not_configured s opBTest _⟩,
    wordsFault_of_plainOpcode opBTest (by decide)⟩
  refine ⟨_, exec_bTest_of_lanesInRange s hc hl, fun j => ?_, ?_, ?_⟩
  · refine (getLsbD_testedBits s j).trans ?_
    rw [laneBit_eq_arrayBit, State.laneValid, laneExists]
  · refine (testedAll_iff s).trans (forall_congr' fun j => ?_)
    rw [laneValid_iff, laneBit_eq_arrayBit, and_imp]
  · rw [resultData_eq_ite]
    rfl

/-! ### B_CLEAR, M_RD and M_WR (R117, R121, R122) -/

/-- CLEAR is B_CLEAR (30_encoding.md R85). -/
theorem exec_clear_eq_exec_bClear (s : State) : exec .clear s = exec .bClear s := rfl

/-- B_CLEAR needs a filter, and zeroes the array (R117). -/
theorem exec_bClear (s : State) : exec .bClear s = withConfig s opBClear (fun s => reply s.clearArray 0#64) := rfl

/-- Settles O32: CLEAR is B_CLEAR, and `clearArray` zeroes the bytes below BITCOUNT/8. -/
theorem bClearZeroesTheArray : Obligations.BClearZeroesTheArray := by
  refine ⟨fun s i hi => ?_, wordsFault_of_plainOpcode opBClear (by decide)⟩
  have hexec : exec i s = exec .bClear s := by
    rcases hi with rfl | rfl
    · rfl
    · exact exec_clear_eq_exec_bClear s
  rw [hexec, exec_bClear]
  refine ⟨fun hc => ⟨_, withConfig_of_configured s opBClear _ hc, ?_, rfl⟩, withConfig_faults_not_configured s opBClear _⟩
  exact Memory.read_clearBelow s.byteCount s.mem

/-- M_RD is a byte access that answers the byte (R121). -/
theorem exec_mRd (s : State) (addr : Word) :
    exec (.mRd addr) s = withByte s opMRd addr (fun s => reply s ((s.mem.read addr.toNat).setWidth 64)) := rfl

/-- M_WR is a byte access that writes the byte (R122). -/
theorem exec_mWr (s : State) (addr : Word) (v : Byte) :
    exec (.mWr addr v) s =
      withByte s opMWr addr (fun s => reply { s with mem := s.mem.write addr.toNat v } 0#64) := rfl

/-- Settles O33: one answer for each outcome of the two checks; a byte zero-extended is the word of the byte's number. -/
theorem mRdReadsOneByte : Obligations.MRdReadsOneByte := by
  refine ⟨fun s addr => ?_, wordsFault_opMRd⟩
  rw [exec_mRd]
  refine ⟨fun hc ha => ?_, withByte_faults_not_configured s opMRd addr _, withByte_faults_addrRange s opMRd addr _⟩
  rw [withByte_of_lt s opMRd addr _ hc ha, BitVec.ofNat_toNat]
  rfl

/-- Settles O34: one answer for each outcome of the two checks; a memory write changes the byte at its own address alone. -/
theorem mWrWritesOneByte : Obligations.MWrWritesOneByte := by
  intro s addr v
  rw [exec_mWr]
  refine ⟨fun hc ha => ⟨_, withByte_of_lt s opMWr addr _ hc ha, fun a => ?_, rfl⟩,
    withByte_faults_not_configured s opMWr addr _, withByte_faults_addrRange s opMWr addr _⟩
  exact (Memory.read_write s.mem addr.toNat v a).trans (if_congr eq_comm rfl rfl)

end Sys2Proof.Machine
end

section
/-! The probe engine (42_probe_engine.md R126 to R132): the split and the probes as numbers, what P_GEN answers, and O24 to
O27. -/

namespace Sys2Proof.Machine

/-! ### SPLIT (R126, R127) -/

/-- EXP and SHIFT share the 64 bits of a word, also at `EXP = 0` (10_state.md R35). -/
theorem two_pow_exp_mul_two_pow_shiftOf (exp : BitVec 6) : 2 ^ exp.toNat * 2 ^ shiftOf exp = 2 ^ 64 := by
  rw [← Nat.pow_add, shiftOf, Nat.add_sub_of_le (Nat.le_of_lt exp.isLt)]

/-- HIGH is the digest without its low SHIFT bits (R127). -/
theorem toNat_splitHigh (digest : Word) (exp : BitVec 6) :
    (splitHigh digest exp).toNat = digest.toNat / 2 ^ shiftOf exp := by
  rw [splitHigh, BitVec.toNat_ushiftRight, Nat.shiftRight_eq_div_pow]

/-- LOW is the digest modulo BITCOUNT: the shift left drops all but its low EXP bits (R127). -/
theorem toNat_splitLow (digest : Word) (exp : BitVec 6) :
    (splitLow digest exp).toNat = digest.toNat % 2 ^ exp.toNat := by
  rw [splitLow, BitVec.toNat_ushiftRight, BitVec.toNat_shiftLeft, Nat.shiftLeft_eq, Nat.shiftRight_eq_div_pow,
    ← two_pow_exp_mul_two_pow_shiftOf exp, Nat.mul_mod_mul_right, Nat.mul_div_cancel _ (Nat.two_pow_pos _)]

/-- HIGH is below BITCOUNT (R127). -/
theorem splitHigh_lt (digest : Word) (exp : BitVec 6) : (splitHigh digest exp).toNat < 2 ^ exp.toNat := by
  rw [toNat_splitHigh]
  apply Nat.div_lt_of_lt_mul
  rw [Nat.mul_comm, two_pow_exp_mul_two_pow_shiftOf]
  exact digest.isLt

/-- LOW is below BITCOUNT (R127). -/
theorem splitLow_lt (digest : Word) (exp : BitVec 6) : (splitLow digest exp).toNat < 2 ^ exp.toNat := by
  rw [toNat_splitLow]
  exact Nat.mod_lt _ (Nat.two_pow_pos _)

/-- The word BITCOUNT is the word of the number BITCOUNT (10_state.md R34). -/
theorem bitCountWord_eq_ofNat (exp : BitVec 6) : bitCountWord exp = BitVec.ofNat 64 (2 ^ exp.toNat) := by
  rw [← toNat_bitCountWord, BitVec.ofNat_toNat, BitVec.setWidth_eq]

/-- LOW is the digest under the index mask (R127). -/
theorem splitLow_eq_and_indexMask (digest : Word) (exp : BitVec 6) :
    splitLow digest exp = digest &&& (bitCountWord exp - 1#64) := by
  apply BitVec.eq_of_toNat_eq
  rw [toNat_splitLow, toNat_and_indexMask]

/-- At a legal EXP the shift is neither 0 nor the whole word (R127). -/
theorem shiftOf_bounds (exp : BitVec 6) (h : 9 ≤ exp.toNat) : 1 ≤ shiftOf exp ∧ shiftOf exp ≤ 55 := by
  have hexp : exp.toNat < 64 := exp.isLt
  rw [shiftOf]
  omega

/-- Settles O24: HIGH is a quotient by `2^SHIFT` and LOW a remainder by `2^EXP`, and masking is that remainder. -/
theorem splitTakesTopAndBottomBits : Obligations.SplitTakesTopAndBottomBits := by
  intro digest exp
  rw [← bitCountWord_eq_ofNat]
  exact ⟨toNat_splitHigh digest exp, toNat_splitLow digest exp, splitLow_eq_and_indexMask digest exp,
    splitHigh_lt digest exp, splitLow_lt digest exp, shiftOf_bounds exp⟩

/-! ### PROBE (R128, R131, R132) -/

/-- BITCOUNT divides `2^64`, so what wraps at 64 bits is lost by the index mask too (R131). -/
theorem two_pow_exp_dvd (exp : BitVec 6) : 2 ^ exp.toNat ∣ 2 ^ 64 :=
  Nat.pow_dvd_pow 2 (Nat.le_of_lt exp.isLt)

/-- A probe before its mask is the word of the number `HIGH + i*LOW` (R131). -/
theorem high_add_mul_low_eq_ofNat (i : Nat) (low high : Word) :
    high + BitVec.ofNat 64 i * low = BitVec.ofNat 64 (high.toNat + i * low.toNat) := by
  simp only [BitVec.ofNat_add, BitVec.ofNat_mul, BitVec.ofNat_toNat, BitVec.setWidth_eq]

/-- A probe is computed over the naturals (R131). -/
theorem toNat_probe (i : Nat) (low high : Word) (exp : BitVec 6) :
    (probe i low high exp).toNat = (high.toNat + i * low.toNat) % 2 ^ exp.toNat := by
  rw [probe, toNat_and_indexMask, high_add_mul_low_eq_ofNat, BitVec.toNat_ofNat, Nat.mod_mod_of_dvd _ (two_pow_exp_dvd exp)]

/-- Settles O25: the wrap at `2^64` disappears under the mask, as BITCOUNT divides `2^64`. -/
theorem probeIsModularArithmetic : Obligations.ProbeIsModularArithmetic := toNat_probe

/-- The first probe is HIGH when HIGH is below BITCOUNT (R132). -/
theorem probe_zero (low high : Word) (exp : BitVec 6) (h : high.toNat < 2 ^ exp.toNat) : probe 0 low high exp = high := by
  apply BitVec.eq_of_toNat_eq
  rw [toNat_probe, Nat.zero_mul, Nat.add_zero, Nat.mod_eq_of_lt h]

/-- Each probe is the last plus LOW, masked (R132). -/
theorem probe_succ (i : Nat) (low high : Word) (exp : BitVec 6) :
    probe (i + 1) low high exp = (probe i low high exp + low) &&& (bitCountWord exp - 1#64) := by
  apply BitVec.eq_of_toNat_eq
  rw [toNat_and_indexMask, BitVec.toNat_add, Nat.mod_mod_of_dvd _ (two_pow_exp_dvd exp), toNat_probe, toNat_probe,
    Nat.mod_add_mod, Nat.succ_mul, Nat.add_assoc]

/-- Settles O26: HIGH is below BITCOUNT, and reducing before the next addition leaves the same remainder. -/
theorem probesFollowIncrementally : Obligations.ProbesFollowIncrementally := by
  intro i digest exp
  rw [← bitCountWord_eq_ofNat]
  exact ⟨probe_zero _ _ exp (splitHigh_lt digest exp), probe_succ i _ _ exp⟩

/-! ### P_GEN (R129) -/

/-- With a filter and a digest, a command that needs both goes on (R129). -/
theorem withDigest_of_done (s : State) (op : Byte) (f : State → Outcome) (hc : s.cfgValid = true) (hp : s.hphase = .done) :
    withDigest s op f = f s := by
  simpa [hc, hp] using withDigest_cases s op f

/-- A command that needs a filter and a digest raises `NotConfigured` without a filter, whatever the phase (R129). -/
theorem withDigest_faults_not_configured (s : State) (op : Byte) (f : State → Outcome) (hc : s.cfgValid = false) :
    ∃ t : State, withDigest s op f = .next t ∧ Faulted s t op 2#8 :=
  ⟨s.takeError op .notConfigured, by simpa [hc] using withDigest_cases s op f, faulted_takeError s op .notConfigured⟩

/-- With a filter but no digest it raises `Protocol` (R129). -/
theorem withDigest_faults_protocol (s : State) (op : Byte) (f : State → Outcome) (hc : s.cfgValid = true)
    (hp : s.hphase ≠ .done) : ∃ t : State, withDigest s op f = .next t ∧ Faulted s t op 3#8 :=
  ⟨s.takeError op .protocol, by simpa [hc, hp] using withDigest_cases s op f, faulted_takeError s op .protocol⟩

/-- P_GEN needs a filter and a digest, and leaves the probes in the lanes (R129). -/
theorem exec_pGen (s : State) : exec .pGen s = withDigest s opPGen (fun s => reply s.genLanes 0#64) := rfl

/-- A lane that P_GEN makes valid holds its own probe, as a number (R129, R131). -/
theorem toNat_idxAt_genLanes (s : State) (j : Lane) (hj : j.toNat < s.params.kMax) (hk : j.toNat < s.k.toNat) :
    (s.genLanes.idxAt j).toNat =
      ((splitHigh s.digest s.exp).toNat + j.toNat * (splitLow s.digest s.exp).toNat) % 2 ^ s.exp.toNat := by
  rw [idxAt_genLanes s j hj hk, State.probeAt, toNat_probe]

/-- Settles O27: one answer for each outcome of the two checks; past them P_GEN leaves `genLanes`, which masks the lanes
below K and loads each with its probe. -/
theorem pGenLoadsTheProbes : Obligations.PGenLoadsTheProbes := by
  refine ⟨fun s => ?_, wordsFault_of_plainOpcode opPGen (by decide)⟩
  rw [exec_pGen]
  refine ⟨fun hc hp => ⟨_, withDigest_of_done s opPGen _ hc hp, ?_, ?_, rfl⟩, withDigest_faults_not_configured s opPGen _,
    withDigest_faults_protocol s opPGen _⟩
  · exact getLsbD_genLanes s
  · exact toNat_idxAt_genLanes s

end Sys2Proof.Machine
end

section
/-! The filter commands (43_filter_ops.md R136 to R138): the K probes as valid lanes, what F_ADD and F_HAS answer, and O40 to
O42. -/

namespace Sys2Proof.Machine

/-! ### The probes as lanes (42_probe_engine.md R129) -/

/-- The probe of lane `j`, as a number of the digest (R127, R131). -/
theorem toNat_probeAt (s : State) (j : Lane) : (s.probeAt j).toNat =
    (s.digest.toNat / 2 ^ (64 - s.exp.toNat) + j.toNat * (s.digest.toNat % 2 ^ s.exp.toNat)) % 2 ^ s.exp.toNat := by
  rw [State.probeAt, toNat_probe, toNat_splitHigh, toNat_splitLow, shiftOf]

/-- After P_GEN a valid lane is one below K that exists (R129). -/
theorem laneValid_genLanes_iff (s : State) (j : Lane) :
    s.genLanes.laneValid j = true ↔ j.toNat < s.params.kMax ∧ j.toNat < s.k.toNat := by
  rw [laneValid_genLanes, Bool.and_eq_true, decide_eq_true_iff, decide_eq_true_iff]

/-- After P_GEN a lane with its mask bit holds its probe (R129). -/
theorem idxAt_genLanes_of_mask (s : State) (j : Lane) (h : s.genLanes.laneMask.getLsbD j.toNat = true) :
    s.genLanes.idxAt j = s.probeAt j := by
  rw [getLsbD_genLanes, Bool.and_eq_true, decide_eq_true_iff, decide_eq_true_iff] at h
  exact idxAt_genLanes s j h.1 h.2

/-- The K probes of the digest are the indices of the lanes that P_GEN makes valid. -/
theorem isProbe_iff_genLanes (s : State) (n : Nat) :
    IsProbe s s.digest n ↔ ∃ j : Lane, s.genLanes.laneValid j = true ∧ (s.genLanes.idxAt j).toNat = n := by
  refine exists_congr fun j => ?_
  rw [laneValid_genLanes_iff]
  constructor
  · rintro ⟨hk, hmax, rfl⟩
    exact ⟨⟨hmax, hk⟩, by rw [idxAt_genLanes s j hmax hk, toNat_probeAt]⟩
  · rintro ⟨⟨hmax, hk⟩, rfl⟩
    exact ⟨hk, hmax, by rw [idxAt_genLanes s j hmax hk, toNat_probeAt]⟩

/-- Setting P_GEN's lanes sets exactly the K probes (R136). -/
theorem setsExactly_setLanes_genLanes (s : State) : SetsExactly s s.genLanes.setLanes (IsProbe s s.digest) := fun n =>
  (setsExactly_setLanes s.genLanes n).trans (or_congr_right (isProbe_iff_genLanes s n).symm)

/-- Testing P_GEN's lanes tests exactly the K probes (R137). -/
theorem testedAll_genLanes_iff (s : State) :
    s.genLanes.testedAll = true ↔ ∀ n : Nat, IsProbe s s.digest n → arrayBit s.mem n = true := by
  simp only [testedAll_iff, laneBit_eq_arrayBit, State.genLanes_mem, isProbe_iff_genLanes]
  constructor
  · rintro hall n ⟨j, hj, rfl⟩
    exact hall j hj
  · exact fun hall j hj => hall _ ⟨j, hj, rfl⟩

/-! ### F_ADD and F_HAS (R136, R137) -/

/-- F_ADD needs a filter and a digest, and sets the bits of P_GEN's lanes (R136). -/
theorem exec_fAdd (s : State) : exec .fAdd s = withDigest s opFAdd (fun s => setValidLanes s.genLanes) := rfl

/-- F_HAS needs a filter and a digest, and tests the bits of P_GEN's lanes (R137). -/
theorem exec_fHas (s : State) : exec .fHas s = withDigest s opFHas (fun s => testValidLanes s.genLanes) := rfl

/-- F_ADD with a filter and a digest: P_GEN's lanes are never out of range (R136). -/
theorem exec_fAdd_of_done (s : State) (hc : s.cfgValid = true) (hp : s.hphase = .done) :
    exec .fAdd s = .next (s.genLanes.setLanes.respond ⟨0#8, 0#64⟩) := by
  rw [exec_fAdd, withDigest_of_done s opFAdd _ hc hp]
  exact if_pos (lanesInRange_genLanes s)

/-- F_HAS with a filter and a digest answers 1 or 0 (R137). -/
theorem exec_fHas_of_done (s : State) (hc : s.cfgValid = true) (hp : s.hphase = .done) :
    exec .fHas s = .next (s.genLanes.recordTest.respond ⟨0#8, if s.genLanes.testedAll then 1#64 else 0#64⟩) := by
  rw [exec_fHas, withDigest_of_done s opFHas _ hc hp, ← resultData_eq_ite]
  exact if_pos (lanesInRange_genLanes s)

/-- Settles O40: past the two checks F_ADD sets the bits at P_GEN's lanes, whose indices are the probes. -/
theorem fAddSetsTheProbes : Obligations.FAddSetsTheProbes := by
  refine ⟨fun s => ⟨fun hc hp => ?_, ?_⟩, wordsFault_of_plainOpcode opFAdd (by decide)⟩
  · refine ⟨_, exec_fAdd_of_done s hc hp, setsExactly_setLanes_genLanes s, getLsbD_genLanes s, fun j hj => ?_, rfl⟩
    rw [← toNat_probeAt]
    exact congrArg BitVec.toNat (idxAt_genLanes_of_mask s j hj)
  · rw [exec_fAdd]
    exact ⟨withDigest_faults_not_configured s opFAdd _, withDigest_faults_protocol s opFAdd _⟩

/-- Settles O41: past the two checks F_HAS records the test of P_GEN's lanes, whose indices are the probes. That it leaves
those lanes is the model's choice (log entry 18). -/
theorem fHasTestsTheProbes : Obligations.FHasTestsTheProbes := by
  refine ⟨fun s => ⟨fun hc hp => ?_, ?_⟩, wordsFault_of_plainOpcode opFHas (by decide)⟩
  · refine ⟨_, exec_fHas_of_done s hc hp, testedAll_genLanes_iff s, getLsbD_genLanes s, fun j hj => ?_, fun j => ?_, rfl⟩
    · rw [← toNat_probeAt]
      exact congrArg BitVec.toNat (idxAt_genLanes_of_mask s j hj)
    · refine (getLsbD_testedBits s.genLanes j).trans ?_
      rw [laneValid_genLanes, ← getLsbD_genLanes, laneBit_eq_arrayBit]
      rfl
  · rw [exec_fHas]
    exact ⟨withDigest_faults_not_configured s opFHas _, withDigest_faults_protocol s opFHas _⟩

/-! ### The pairs (R138) -/

/-- Two instructions that complete one after the other. -/
theorem runAll_pair (i i' : Instr) (s t u : State) (h : exec i s = .next t) (h' : exec i' t = .next u) :
    runAll [i, i'] s = .next u := by
  simp only [runAll, h, andThen_next, h']

/-- P_GEN with a filter and a digest (42_probe_engine.md R129). -/
theorem exec_pGen_of_done (s : State) (hc : s.cfgValid = true) (hp : s.hphase = .done) :
    exec .pGen s = .next (s.genLanes.respond ⟨0#8, 0#64⟩) := by
  rw [exec_pGen, withDigest_of_done s opPGen _ hc hp, reply_eq]

/-- Setting the lanes' bits does not look at the responses. -/
theorem setLanes_respond (s : State) (r : Response) : (s.respond r).setLanes = s.setLanes.respond r := rfl

/-- Testing the lanes' bits does not look at the responses. -/
theorem recordTest_respond (s : State) (r : Response) : (s.respond r).recordTest = s.recordTest.respond r := by
  have hbits : (s.respond r).testedBits = s.testedBits := rfl
  have hall : (s.respond r).testedAll = s.testedAll := rfl
  rw [State.recordTest, hbits, hall]
  rfl

/-- P_GEN then B_SET (R138). -/
theorem runAll_pGen_bSet (s : State) (hc : s.cfgValid = true) (hp : s.hphase = .done) :
    runAll [.pGen, .bSet] s = .next ((s.genLanes.setLanes.respond ⟨0#8, 0#64⟩).respond ⟨0#8, 0#64⟩) := by
  rw [← setLanes_respond]
  exact runAll_pair _ _ _ _ _ (exec_pGen_of_done s hc hp) (exec_bSet_of_lanesInRange _ hc (lanesInRange_genLanes s))

/-- P_GEN then B_TEST (R138). -/
theorem runAll_pGen_bTest (s : State) (hc : s.cfgValid = true) (hp : s.hphase = .done) :
    runAll [.pGen, .bTest] s = .next ((s.genLanes.recordTest.respond ⟨0#8, 0#64⟩).respond
      ⟨0#8, if s.genLanes.testedAll then 1#64 else 0#64⟩) := by
  rw [← recordTest_respond, ← resultData_eq_ite]
  exact runAll_pair _ _ _ _ _ (exec_pGen_of_done s hc hp) (exec_bTest_of_lanesInRange _ hc (lanesInRange_genLanes s))

/-- Two commands that need a filter and a digest, where one is missing, fault alike but for the opcode they record. -/
theorem withDigest_faults_alike (s : State) (op op' : Byte) (f f' : State → Outcome)
    (h : s.cfgValid = false ∨ s.hphase ≠ .done) : ∃ t u : State,
      withDigest s op f = .next t ∧ withDigest s op' f' = .next u ∧ u = { t with errop := u.errop } := by
  by_cases hc : s.cfgValid = true
  · have hp : s.hphase ≠ .done := h.resolve_left (by simp [hc])
    obtain ⟨t, ht, rfl⟩ := withDigest_faults_protocol s op f hc hp
    obtain ⟨u, hu, rfl⟩ := withDigest_faults_protocol s op' f' hc hp
    exact ⟨_, _, ht, hu, rfl⟩
  · have hn : s.cfgValid = false := Bool.eq_false_iff.mpr hc
    obtain ⟨t, ht, rfl⟩ := withDigest_faults_not_configured s op f hn
    obtain ⟨u, hu, rfl⟩ := withDigest_faults_not_configured s op' f' hn
    exact ⟨_, _, ht, hu, rfl⟩

/-- Settles O42: the second command of a pair works on P_GEN's lanes, which a response does not touch, and the three commands
make the same two checks. That F_HAS leaves P_GEN's lanes is the model's choice (log entry 18). -/
theorem filterCommandsAreTheirPairs : Obligations.FilterCommandsAreTheirPairs := by
  refine ⟨fun s hc hp => ⟨?_, ?_⟩, fun s i hi h => ?_⟩
  · exact ⟨_, _, exec_fAdd_of_done s hc hp, runAll_pGen_bSet s hc hp, rfl, rfl⟩
  · exact ⟨_, _, exec_fHas_of_done s hc hp, runAll_pGen_bTest s hc hp, rfl, rfl⟩
  · rcases hi with rfl | rfl
    · rw [exec_fAdd, exec_pGen]
      exact withDigest_faults_alike s opFAdd opPGen _ _ h
    · rw [exec_fHas, exec_pGen]
      exact withDigest_faults_alike s opFHas opPGen _ _ h

end Sys2Proof.Machine
end

section
/-! A whole message (30_encoding.md R82): the state its hash leaves, with the digest `KHM_DIGEST` (40_hash_mixer.md R98). -/

namespace Sys2Proof.Machine

/-- The state that HASH of a message leaves: the digest is `KHM_DIGEST`, and every word of the hash has given its response
(R82, R98). -/
def State.hashed (s : State) (m : List Byte) : State :=
  { s with
    v := finalise s.params
      (absorbWord s.params ((messageBlocks m).foldl (absorbWord s.params) (initialWords s.params)) (tailWord m))
    len := BitVec.ofNat 8 m.length
    hphase := .done
    digest := khmDigest s.params m
    fresh := s.fresh + 1
    rsps := ⟨0#8, khmDigest s.params m⟩ :: (List.replicate (m.length / 8 + 1) ⟨0#8, 0#64⟩ ++ s.rsps) }

/-- LEN after a message: eight for each block and the trailing bytes, modulo 256 (R96, R97). -/
theorem len_after_message (m : List Byte) :
    8#8 * BitVec.ofNat 8 (m.length / 8) + (tailCount m).setWidth 8 = BitVec.ofNat 8 m.length := by
  apply BitVec.eq_of_toNat_eq
  simp only [tailCount, BitVec.toNat_add, BitVec.toNat_mul, BitVec.toNat_setWidth, BitVec.toNat_ofNat]
  omega

/-- The tail word H_FINAL forms from LEN is the message's own (R97, 20_memory.md R51). -/
theorem finalTail_message (m : List Byte) : finalTail (BitVec.ofNat 8 m.length) (tailOperand m) = tailWord m := by
  have hlen : (BitVec.ofNat 8 m.length).setWidth 64 = BitVec.ofNat 64 (m.length % 256) := by
    apply BitVec.eq_of_toNat_eq
    simp
  rw [finalTail, tailWord, hlen]

/-- HASH of any message completes from every state and leaves `hashed` (R82, R98). -/
theorem hashMessage_eq_hashed (m : List Byte) (s : State) : hashMessage m s = .next (s.hashed m) := by
  obtain ⟨u, hu, rfl⟩ := hashMessage_eq m s
  rw [hu]
  simp only [State.hashFinal, len_after_message, finalTail_message]
  rfl

/-- ADD is F_ADD after the hash (30_encoding.md R83). -/
theorem exec_add (s : State) (m : List Byte) : exec (.add m) s = exec .fAdd (s.hashed m) := by
  have hseq : exec (.add m) s = andThen (hashMessage m s) (exec .fAdd) := rfl
  rw [hseq, hashMessage_eq_hashed, andThen_next]

/-- HAS is F_HAS after the hash (30_encoding.md R84). -/
theorem exec_has (s : State) (m : List Byte) : exec (.has m) s = exec .fHas (s.hashed m) := by
  have hseq : exec (.has m) s = andThen (hashMessage m s) (exec .fHas) := rfl
  rw [hseq, hashMessage_eq_hashed, andThen_next]

end Sys2Proof.Machine
end

section
/-! ADD and HAS of a message (43_filter_ops.md R140, R141, R147): O44 and O45. Hashing changes neither filter nor array, so the
probes of the state it leaves are those of the message's digest in the state before. -/

namespace Sys2Proof.Machine

/-- Settles O44: ADD is F_ADD in the state the hash leaves, which has a digest, so the filter is the only check left. -/
theorem addInsertsTheMessage : Obligations.AddInsertsTheMessage := by
  intro s m
  rw [exec_add]
  refine ⟨fun hc => ?_, fun hc => ?_⟩
  · exact ⟨_, exec_fAdd_of_done (s.hashed m) hc rfl, setsExactly_setLanes_genLanes (s.hashed m), rfl, rfl,
      getLsbD_genLanes (s.hashed m), idxAt_genLanes_of_mask (s.hashed m), rfl⟩
  · obtain ⟨t, ht, rfl⟩ := withDigest_faults_not_configured (s.hashed m) opFAdd (fun s => setValidLanes s.genLanes) hc
    exact ⟨_, ht, rfl, rfl, rfl, rfl⟩

/-- Settles O45: HAS is F_HAS in the state the hash leaves, which has a digest, so the filter is the only check left. -/
theorem hasTestsTheMessage : Obligations.HasTestsTheMessage := by
  intro s m
  rw [exec_has]
  refine ⟨fun hc => ?_, fun hc => ?_⟩
  · exact ⟨_, exec_fHas_of_done (s.hashed m) hc rfl, testedAll_genLanes_iff (s.hashed m), rfl⟩
  · obtain ⟨t, ht, rfl⟩ := withDigest_faults_not_configured (s.hashed m) opFHas (fun s => testValidLanes s.genLanes) hc
    exact ⟨_, ht, rfl, rfl⟩

end Sys2Proof.Machine
end

section
/-! The system commands (44_system_ops.md R150 to R154; 70_reset_and_hazards.md R195, R197): reset between and during commands,
what CFG and CSR_RD answer, check by check, and O10, O15, O16, O17. -/

namespace Sys2Proof.Machine

/-! ### NOP and ERR_CLR (R150, R154) -/

/-- NOP completes in every state and answers with data 0 (R150). -/
theorem exec_nop (s : State) : exec .nop s = .next (s.respond ⟨0#8, 0#64⟩) := rfl

/-- ERR_CLR completes in every state and answers with data 0 (R154). -/
theorem exec_errClr (s : State) : exec .errClr s = .next (s.clearError.respond ⟨0#8, 0#64⟩) := rfl

/-- Settles O15: neither command has a check, and the rows of both opcodes have zero operands. -/
theorem nopAndErrClrResults : Obligations.NopAndErrClrResults :=
  ⟨fun s => ⟨exec_nop s, exec_errClr s⟩, wordsFault_of_plainOpcode opNop (by decide),
    wordsFault_of_plainOpcode opErrClr (by decide)⟩

/-! ### Reset (R151, R195, R197) -/

/-- RESET leaves the reset state and answers with data 0 (R151). -/
theorem exec_reset (s : State) : exec .reset s = .next (s.toReset.respond ⟨0#8, 0#64⟩) := rfl

/-- A reset, also one that arrives during a command, leaves the reset state with the rest of the host's stream (R195, R197). -/
theorem step_of_reset (s : State) (x : HostInput) (rest : List HostInput) (w : Cmd) (hx : x = .reset ∨ x = .resetDuring w)
    (hs : s.host = x :: rest) : step s = .next ({ s with host := rest } : State).toReset := by
  rcases hx with rfl | rfl <;> simp only [step, hostTurn, hs, takeInput]

/-- Settles O10: hardware reset and RESET leave the same `toReset`, to which only RESET adds a response. -/
theorem resetGivesTheResetState : Obligations.ResetGivesTheResetState := by
  refine ⟨fun s rest w => ⟨fun x hx hs => ?_, ?_⟩, wordsFault_of_plainOpcode opReset (by decide)⟩
  · exact ⟨_, step_of_reset s x rest w hx hs, rfl, rfl, rfl, rfl, rfl, rfl, rfl, rfl, rfl, rfl⟩
  · exact ⟨_, exec_reset s, rfl, rfl, rfl, rfl, rfl, rfl, rfl, rfl, rfl, rfl⟩

/-! ### CFG (R152) -/

/-- CFG's value check is the four bounds (R152). -/
theorem configLegal_iff (p : Params) (e : BitVec 6) (n : BitVec 7) :
    configLegal p e n = true ↔ 9 ≤ e.toNat ∧ e.toNat ≤ p.expMax ∧ 1 ≤ n.toNat ∧ n.toNat ≤ p.kMax :=
  decide_eq_true_iff

/-- NEW is CFG (30_encoding.md R81). -/
theorem exec_new_eq_exec_cfg (s : State) (e : BitVec 6) (n : BitVec 7) : exec (.new e n) s = exec (.cfg e n) s := rfl

/-- CFG with values in range configures (R152). -/
theorem exec_cfg_of_legal (s : State) (e : BitVec 6) (n : BitVec 7) (h : configLegal s.params e n = true) :
    exec (.cfg e n) s = .next ((s.configure e n).respond ⟨0#8, 0#64⟩) :=
  if_pos h

/-- CFG with a value out of range raises `InvalidConfiguration` (R152). -/
theorem exec_cfg_of_not_legal (s : State) (e : BitVec 6) (n : BitVec 7) (h : ¬ configLegal s.params e n = true) :
    exec (.cfg e n) s = .next (s.takeError opCfg .invalidConfiguration) :=
  if_neg h

/-- A word whose operands have no bit of `ma` and `md` has no bit of either at its place (R70). -/
theorem and_operandMask (w : Cmd) (ma : Byte) (md : Word) (ha : cmdA w &&& ma = 0#8) (hd : cmdD w &&& md = 0#64) :
    w &&& cmdWord 0#8 ma md = 0#80 := by
  rw [← cmdWord_fields w, cmdWord_and, ha, hd, BitVec.and_zero]
  decide

/-- A byte whose top bit is zero does not have it. -/
theorem and_topBit (a : Byte) (h : a.extractLsb' 7 1 = 0#1) : a &&& 0x80#8 = 0#8 := by
  revert a
  decide

/-- A word whose upper 58 bits are zero has none of them. -/
theorem and_upper58Bits (d : Word) (h : d.extractLsb' 6 58 = 0#58) : d &&& 0xffffffffffffffc0#64 = 0#64 := by
  have key : ∀ x : BitVec 6, x.setWidth 64 &&& 0xffffffffffffffc0#64 = 0#64 := by decide
  rw [← setWidth_of_high58_zero d h, key]

/-- A CFG word with a bit at `a[7]` or `d[63:6]` faults (R77). -/
theorem wordsFault_opCfg : WordsFault opCfg (hasBitOf 0x0080ffffffffffffffc0#80) := by
  refine wordsFault_of_no_row _ _ fun p w i hrow hbit => ?_
  generalize hop : opCfg = op, ha : cmdA w = a, hd : cmdD w = d at hrow
  cases hrow
  case cfg htop hupper =>
    subst ha hd
    exact hbit (and_operandMask w 0x80#8 0xffffffffffffffc0#64 (and_topBit _ htop) (and_upper58Bits _ hupper))
  all_goals exact absurd hop (by decide)

/-- Settles O16: NEW is CFG, which has one check; past it `configure` zeroes the bytes below the new array's size. -/
theorem cfgConstructsAFilter : Obligations.CfgConstructsAFilter := by
  refine ⟨fun s e n i hi => ?_, wordsFault_opCfg⟩
  have hexec : exec i s = exec (.cfg e n) s := by
    rcases hi with rfl | rfl
    · rfl
    · exact exec_new_eq_exec_cfg s e n
  rw [hexec]
  refine ⟨fun he heMax hn hnMax => ?_, fun hbad => ?_⟩
  · have hlegal := (configLegal_iff s.params e n).mpr ⟨he, heMax, hn, hnMax⟩
    exact ⟨_, exec_cfg_of_legal s e n hlegal, Memory.read_clearBelow (2 ^ e.toNat / 8) s.mem, rfl⟩
  · have hillegal : ¬ configLegal s.params e n = true := by
      rw [configLegal_iff]
      omega
    exact ⟨_, exec_cfg_of_not_legal s e n hillegal, faulted_takeError s opCfg .invalidConfiguration⟩

/-! ### CSR_RD: the checks (R153) -/

/-- CSR_RD is well-formed exactly for the CSRs that exist (30_encoding.md R77). -/
theorem wf_csrRd (p : Params) (c : Csr) : (Instr.csrRd c).wf p = csrExists p c := by cases c <;> rfl

/-- CSR_RD needs a filter for the configuration CSRs (R153). -/
theorem needsFilter_csrRd (c : Csr) : needsFilter (.csrRd c) = csrNeedsConfig c := by cases c <;> rfl

/-- CSR_RD is out of order where the CSR has no value (R153). -/
theorem outOfOrder_csrRd (s : State) (c : Csr) : outOfOrder s (.csrRd c) = s.csrNoValue c := by cases c <;> rfl

/-- Everything CSR_RD can answer: the CSR's value, or the error of the first check that fails (R153). -/
theorem exec_csrRd_cases (s : State) (c : Csr) :
    (firstError (.csrRd c) s = 0#8 ∧ exec (.csrRd c) s = .next (s.respond ⟨0#8, s.csrValue c⟩)) ∨
    ∃ e : ErrCode, firstError (.csrRd c) s = e.code ∧ exec (.csrRd c) s = .next (s.takeError opCsrRd e) := by
  simp only [firstError, wf_csrRd, needsFilter_csrRd, outOfOrder_csrRd, exec, execCsrRd, raise_eq, reply_eq]
  cases hexists : csrExists s.params c
  · exact .inr ⟨.illegalCommand, rfl, rfl⟩
  cases hconfig : csrNeedsConfig c && !s.cfgValid
  swap
  · exact .inr ⟨.notConfigured, rfl, rfl⟩
  cases hvalue : s.csrNoValue c
  · exact .inl ⟨rfl, rfl⟩
  · exact .inr ⟨.protocol, rfl, rfl⟩

/-! ### CSR_RD: the values (10_state.md R32 to R43) -/

/-- Each field of CSR STATUS is found by dropping the fields below it (R32). -/
theorem csrShows_status (s : State) : CsrShows s s.statusWord .status := by
  refine ⟨?cfgValid, ?hphase, ?result, ?zero, ?err, ?errop, ?top⟩ <;> unfold State.statusWord
  case' cfgValid | result => repeat rw [BitVec.getLsbD_append]
  case cfgValid | result => simp
  all_goals repeat rw [BitVec.extractLsb'_append_eq_of_le (by decide)]
  case top => exact BitVec.extractLsb'_eq_self
  all_goals exact BitVec.extractLsb'_append_eq_right

/-- Each field of CSR PARAMS is found by dropping the fields below it (R40). -/
theorem csrShows_params (s : State) : CsrShows s (paramsWord s.params) .params := by
  refine ⟨?expMax, ?kMax, ?cRounds, ?dRounds, ?top⟩ <;> unfold paramsWord
  all_goals repeat rw [BitVec.extractLsb'_append_eq_of_le (by decide)]
  case top => exact BitVec.extractLsb'_eq_self
  case cRounds =>
    rw [BitVec.extractLsb'_append_eq_right]
    cases s.params.cRounds <;> rfl
  all_goals exact BitVec.extractLsb'_append_eq_right

/-- A mask cut to the lanes that exist, bit by bit (R39). -/
theorem getLsbD_and_kMaxMask (p : Params) (m : Word) (j : Lane) :
    (m &&& kMaxMask p).getLsbD j.toNat = (decide (j.toNat < p.kMax) && m.getLsbD j.toNat) := by
  rw [BitVec.getLsbD_and, kMaxMask, getLsbD_laneBits, Bool.and_comm, laneExists]

/-- CSR SHIFT is the number SHIFT (R35). -/
theorem toNat_ofNat_shiftOf (exp : BitVec 6) : (BitVec.ofNat 64 (shiftOf exp)).toNat = 64 - exp.toNat := by
  rw [BitVec.toNat_ofNat, shiftOf, Nat.mod_eq_of_lt (by omega)]

/-- The value CSR_RD answers shows its register (R32 to R43). -/
theorem csrShows_csrValue (s : State) (c : Csr) : CsrShows s (s.csrValue c) c := by
  cases c with
  | status => exact csrShows_status s
  | params => exact csrShows_params s
  | exp => exact BitVec.toNat_setWidth_of_le (by decide)
  | k => exact BitVec.toNat_setWidth_of_le (by decide)
  | len => exact BitVec.toNat_setWidth_of_le (by decide)
  | bitCount => exact toNat_bitCountWord s.exp
  | shift => exact toNat_ofNat_shiftOf s.exp
  | laneMask => exact getLsbD_and_kMaxMask s.params s.laneMask
  | testVec => exact getLsbD_and_kMaxMask s.params s.testVec
  | digest | low | high | v0 | v1 | v2 | v3 | idx => rfl

/-- A CSR_RD word with a bit of `d`, or whose number names no CSR that exists, faults (30_encoding.md R77). -/
theorem wordsFault_opCsrRd : WordsFault opCsrRd (fun p w => hasBitOf 0x0000ffffffffffffffff#80 p w ∨
    ∀ c : Csr, csrNumber c = w.extractLsb' 64 8 → (Instr.csrRd c).wf p = false) := by
  refine wordsFault_of_no_row _ _ fun p w i hrow => ?_
  generalize hop : opCsrRd = op, ha : cmdA w = a, hd : cmdD w = d at hrow
  cases hrow
  case csrRd c hexists hnumber =>
    rintro (hbit | hnone)
    · exact hbit (and_operandMask w 0#8 0xffffffffffffffff#64 BitVec.and_zero (by rw [hd, BitVec.zero_and]))
    · have hmissing := hnone c ((csrNumber_of_csrOfNumber a c hnumber).trans ha.symm)
      rw [wf_csrRd, hexists] at hmissing
      cases hmissing
  all_goals exact absurd hop (by decide)

/-- Settles O17: CSR_RD answers the value exactly when no check fails, and the value shows its register. -/
theorem csrReadShowsTheRegister : Obligations.CsrReadShowsTheRegister := by
  refine ⟨fun s c => ?_, wordsFault_opCsrRd⟩
  rcases exec_csrRd_cases s c with ⟨hok, hexec⟩ | ⟨e, herr, hexec⟩
  · exact ⟨fun _ => ⟨_, hexec, csrShows_csrValue s c⟩, fun hne => absurd hok hne⟩
  · rw [herr]
    exact ⟨fun hok => absurd hok e.code_ne_zero, fun _ => ⟨_, hexec, faulted_takeError s opCsrRd e⟩⟩

end Sys2Proof.Machine
end

section
/-! Errors (60_exceptions.md R175 to R183): which check a command reports, what a fault leaves, what clears the error pair, and
O12, O13, O14. -/

namespace Sys2Proof.Machine

/-! ### The first failing check (R181) -/

/-- Operands that are not legal are reported before anything else (R181 (1)). -/
theorem firstError_of_not_wf (i : Instr) (s : State) (hw : i.wf s.params = false) : firstError i s = 5#8 := by
  simp [firstError, hw]

/-- A missing filter is reported before a `Protocol` cause (R181 (2)). -/
theorem firstError_of_not_configured (i : Instr) (s : State) (hw : i.wf s.params = true) (hn : needsFilter i = true)
    (hc : s.cfgValid = false) : firstError i s = 2#8 := by
  simp [firstError, hw, hn, hc]

/-- A command that has the filter it needs reports its `Protocol` cause before a value (R181 (3)). -/
theorem firstError_of_outOfOrder (i : Instr) (s : State) (hw : i.wf s.params = true)
    (hc : needsFilter i = false ∨ s.cfgValid = true) (ho : outOfOrder s i = true) : firstError i s = 3#8 := by
  rcases hc with hc | hc <;> simp [firstError, hw, hc, ho]

/-- Past the other checks only the value check is left (R181 (4)). -/
theorem firstError_eq_valueError (i : Instr) (s : State) (hw : i.wf s.params = true)
    (hc : needsFilter i = false ∨ s.cfgValid = true) (ho : outOfOrder s i = false) : firstError i s = valueError s i := by
  rcases hc with hc | hc <;> simp [firstError, hw, hc, ho]

/-- The outcome `o` of command `i` in state `s` follows R181: the command completes with one response of code 0 where no check
fails, and takes the error of the first check that fails otherwise. -/
inductive InOrder (i : Instr) (s : State) (o : Outcome) : Prop where
  | completes (u : State) (d : Word) (hcode : firstError i s = 0#8) (hrsps : u.rsps = s.rsps)
      (ho : o = .next (u.respond ⟨0#8, d⟩))
  | faults (e : ErrCode) (hcode : firstError i s = e.code) (ho : o = .next (s.takeError i.opcode e))

/-- A command whose only check is for a filter. -/
theorem withConfig_inOrder (i : Instr) (s : State) (f : State → Outcome) (hw : i.wf s.params = true)
    (hn : needsFilter i = true) (hf : s.cfgValid = true → InOrder i s (f s)) : InOrder i s (withConfig s i.opcode f) := by
  rcases withConfig_cases s i.opcode f with ⟨hc, ho⟩ | ⟨hc, ho⟩
  · exact .faults .notConfigured (firstError_of_not_configured i s hw hn hc) ho
  · rw [ho]
    exact hf hc

/-- A command that checks for a filter, then for a digest. -/
theorem withDigest_inOrder (i : Instr) (s : State) (f : State → Outcome) (hw : i.wf s.params = true)
    (hn : needsFilter i = true) (hp : outOfOrder s i = decide (s.hphase ≠ .done)) (hv : valueError s i = 0#8)
    (hf : firstError i s = 0#8 → InOrder i s (f s)) : InOrder i s (withDigest s i.opcode f) := by
  rcases withDigest_cases s i.opcode f with ⟨hc, ho⟩ | ⟨hc, hphase, ho⟩ | ⟨hc, hphase, ho⟩
  · exact .faults .notConfigured (firstError_of_not_configured i s hw hn hc) ho
  · exact .faults .protocol (firstError_of_outOfOrder i s hw (.inr hc) (hp.trans (decide_eq_true hphase))) ho
  · rw [ho]
    exact hf ((firstError_eq_valueError i s hw (.inr hc) (by simp [hp, hphase])).trans hv)

/-- A raw byte access checks for a filter, then the address. -/
theorem withByte_inOrder (i : Instr) (s : State) (addr : Word) (f : State → Outcome) (hw : i.wf s.params = true)
    (hn : needsFilter i = true) (hp : outOfOrder s i = false)
    (hv : valueError s i = if s.byteCount ≤ addr.toNat then 6#8 else 0#8)
    (hf : firstError i s = 0#8 → InOrder i s (f s)) : InOrder i s (withByte s i.opcode addr f) := by
  refine withConfig_inOrder i s _ hw hn fun hc => ?_
  have hcode := (firstError_eq_valueError i s hw (.inr hc) hp).trans hv
  by_cases ha : s.byteCount ≤ addr.toNat
  · exact .faults .addrRange (hcode.trans (if_pos ha)) (if_pos ha)
  · rw [if_neg ha]
    exact hf (hcode.trans (if_neg ha))

/-- CFG checks its values only (44_system_ops.md R152). -/
theorem exec_cfg_inOrder (s : State) (e : BitVec 6) (n : BitVec 7) : InOrder (.cfg e n) s (exec (.cfg e n) s) := by
  have hcode := firstError_eq_valueError (.cfg e n) s rfl (.inl rfl) rfl
  by_cases h : configLegal s.params e n = true
  · have hbounds := (configLegal_iff s.params e n).mp h
    exact .completes (s.configure e n) _ (hcode.trans (if_neg (by omega))) rfl (exec_cfg_of_legal s e n h)
  · have hbounds := mt (configLegal_iff s.params e n).mpr h
    exact .faults .invalidConfiguration (hcode.trans (if_pos (by omega))) (exec_cfg_of_not_legal s e n h)

/-- H_ABSORB checks the phase only (40_hash_mixer.md R96). -/
theorem exec_hAbsorb_inOrder (s : State) (m : Word) : InOrder (.hAbsorb m) s (exec (.hAbsorb m) s) := by
  by_cases h : s.hphase = .absorb
  · exact .completes (s.hashAbsorb m) _
      (firstError_eq_valueError _ s rfl (.inl rfl) (decide_eq_false (not_not.mpr h))) rfl (if_neg (not_not.mpr h))
  · exact .faults .protocol (firstError_of_outOfOrder _ s rfl (.inl rfl) (decide_eq_true h)) (if_pos h)

/-- H_FINAL checks its operand, then the phase (40_hash_mixer.md R97). -/
theorem exec_hFinal_inOrder (s : State) (n : BitVec 3) (d : Word) : InOrder (.hFinal n d) s (exec (.hFinal n d) s) := by
  have hwf : (Instr.hFinal n d).wf s.params = tailFits n d := by
    rw [Bool.eq_iff_iff, tailFits_iff]
    exact decide_eq_true_iff
  cases hfits : tailFits n d
  · exact .faults .illegalCommand (firstError_of_not_wf _ s (hwf.trans hfits))
      (by simp [exec, execHFinal, hfits, raise_eq, Instr.opcode])
  by_cases h : s.hphase = .absorb
  · exact .completes (s.hashFinal n d) _
      (firstError_eq_valueError _ s (hwf.trans hfits) (.inl rfl) (decide_eq_false (not_not.mpr h))) rfl
      (execHFinal_eq n d s hfits h)
  · exact .faults .protocol (firstError_of_outOfOrder _ s (hwf.trans hfits) (.inl rfl) (decide_eq_true h))
      (by simp [exec, execHFinal, hfits, h, raise_eq, Instr.opcode])

/-- IDX_WR checks for the lane, for a filter, then the index (41_bitset_port.md R111). -/
theorem exec_idxWr_inOrder (s : State) (j : Lane) (x : Word) : InOrder (.idxWr j x) s (exec (.idxWr j x) s) := by
  by_cases hj : j.toNat < s.params.kMax
  · have hwf : (Instr.idxWr j x).wf s.params = true := decide_eq_true hj
    rw [exec_idxWr_of_lane s j x hj]
    refine withConfig_inOrder (.idxWr j x) s _ hwf rfl fun hc => ?_
    have hcode := firstError_eq_valueError (.idxWr j x) s hwf (.inr hc) rfl
    by_cases hx : s.bitCount ≤ x.toNat
    · exact .faults .indexRange (hcode.trans (if_pos hx)) (if_pos hx)
    · exact .completes (s.writeLane j x) _ (hcode.trans (if_neg hx)) rfl (if_neg hx)
  · exact .faults .illegalCommand (firstError_of_not_wf _ s (decide_eq_false hj))
      (exec_idxWr_of_no_lane s j x (Nat.not_lt.mp hj))

/-- Every command makes its checks in R181's order, where no valid lane is out of range. -/
theorem exec_inOrder (i : Instr) (s : State) (hi : i.isPseudo = false) (hl : s.lanesInRange = true) :
    InOrder i s (exec i s) := by
  cases i with
  | nop => exact .completes s _ rfl rfl rfl
  | reset => exact .completes s.toReset _ rfl rfl rfl
  | errClr => exact .completes s.clearError _ rfl rfl rfl
  | hInit => exact .completes s.hashInit _ rfl rfl rfl
  | idxClr => exact .completes s.dropLanes _ rfl rfl rfl
  | cfg e n => exact exec_cfg_inOrder s e n
  | csrRd c =>
    rcases exec_csrRd_cases s c with ⟨hcode, ho⟩ | ⟨e, hcode, ho⟩
    · exact .completes s _ hcode rfl ho
    · exact .faults e hcode ho
  | hAbsorb m => exact exec_hAbsorb_inOrder s m
  | hFinal n d => exact exec_hFinal_inOrder s n d
  | idxWr j x => exact exec_idxWr_inOrder s j x
  | bSet =>
    exact withConfig_inOrder .bSet s _ rfl rfl fun hc =>
      .completes s.setLanes _ (firstError_eq_valueError .bSet s rfl (.inr hc) rfl) rfl (if_pos hl)
  | bTest =>
    exact withConfig_inOrder .bTest s _ rfl rfl fun hc =>
      .completes s.recordTest _ (firstError_eq_valueError .bTest s rfl (.inr hc) rfl) rfl (if_pos hl)
  | bClear =>
    rw [exec_bClear]
    exact withConfig_inOrder .bClear s _ rfl rfl fun hc =>
      .completes s.clearArray _ (firstError_eq_valueError .bClear s rfl (.inr hc) rfl) rfl rfl
  | mRd a =>
    rw [exec_mRd]
    exact withByte_inOrder (.mRd a) s a _ rfl rfl rfl rfl fun hcode => .completes s _ hcode rfl rfl
  | mWr a v =>
    rw [exec_mWr]
    exact withByte_inOrder (.mWr a v) s a _ rfl rfl rfl rfl fun hcode =>
      .completes { s with mem := s.mem.write a.toNat v } _ hcode rfl rfl
  | pGen =>
    rw [exec_pGen]
    exact withDigest_inOrder .pGen s _ rfl rfl rfl rfl fun hcode => .completes s.genLanes _ hcode rfl rfl
  | fAdd =>
    rw [exec_fAdd]
    exact withDigest_inOrder .fAdd s _ rfl rfl rfl rfl fun hcode =>
      .completes s.genLanes.setLanes _ hcode rfl (if_pos (lanesInRange_genLanes s))
  | fHas =>
    rw [exec_fHas]
    exact withDigest_inOrder .fHas s _ rfl rfl rfl rfl fun hcode =>
      .completes s.genLanes.recordTest _ hcode rfl (if_pos (lanesInRange_genLanes s))
  | new | hash | add | has | clear => cases hi

/-- Settles O12: a command that makes its checks in order gives the one response its outcome names, and a word that is no
command takes `IllegalCommand`. -/
theorem responseCodeIsTheFirstFailingCheck : Obligations.ResponseCodeIsTheFirstFailingCheck := by
  refine ⟨fun i s hi hl => ?_, fun s w rest hs hw => ?_⟩
  · cases exec_inOrder i s hi hl with
    | completes u d hcode hrsps ho => exact ⟨_, _, ho, congrArg (_ :: ·) hrsps, hcode.symm, fun hne => absurd rfl hne⟩
    | faults e hcode ho => exact ⟨_, _, ho, rfl, hcode.symm, fun _ => rfl⟩
  · obtain ⟨t, ht, rfl⟩ := step_of_no_decode s w rest hs hw
    exact ⟨_, ht, rfl⟩

/-! ### What a fault leaves (R182) -/

/-- The code of a fault is that of the one response it gave. -/
theorem Faulted.of_response {s t : State} {op code : Byte} {r : Response} (h : Faulted s t op code)
    (hr : t.rsps = r :: s.rsps) : Faulted s t op r.err := by
  subst h
  obtain ⟨rfl, -⟩ := List.cons.inj hr
  rfl

/-- A command that answers with an error code has taken that error and done nothing else. -/
theorem faulted_of_exec (i : Instr) (s t : State) (r : Response) (hi : i.isPseudo = false) (ht : exec i s = .next t)
    (hr : t.rsps = r :: s.rsps) (herr : r.err ≠ 0#8) : Faulted s t i.opcode r.err := by
  rcases exec_command i s hi with ⟨e, he⟩ | ⟨u, d, -, hu⟩ | ⟨hfault, -⟩
  · obtain rfl := Host.Outcome.next.inj (he.symm.trans ht)
    exact (faulted_takeError s i.opcode e).of_response hr
  · obtain rfl := Host.Outcome.next.inj (hu.symm.trans ht)
    obtain ⟨rfl, -⟩ := List.cons.inj hr
    exact absurd rfl herr
  · cases hfault.symm.trans ht

/-- A command word either decodes, and then its command is run under the word's own opcode byte, or is no command (R71). -/
theorem step_command_cases (s : State) (w : Cmd) (rest : List HostInput) (hs : s.host = .command w :: rest) :
    (∃ i : Instr, decode s.params w = .ok i ∧ step s = exec i { s with host := rest }) ∨
    ∀ i : Instr, decode s.params w ≠ .ok i := by
  cases hd : decode s.params w with
  | ok i => exact .inl ⟨i, rfl, by simp only [step_of_command s w rest hs, runCommand, hd]⟩
  | error e => exact .inr fun i h => nomatch h

/-- Settles O13: an error response means the error was taken, under the opcode byte of the word that the step took. -/
theorem faultChangesOnlyTheErrorPair : Obligations.FaultChangesOnlyTheErrorPair := by
  refine ⟨faulted_of_exec, fun s t w rest r hs ht hr herr => ?_⟩
  rcases step_command_cases s w rest hs with ⟨i, hi, hstep⟩ | hw
  · have hop : w.extractLsb' 72 8 = i.opcode := cmdOp_of_decode s.params w i hi
    rw [hop]
    exact faulted_of_exec i _ t r (decode_isPseudo s.params w i hi) (hstep.symm.trans ht) hr herr
  · obtain ⟨u, hu, hfault⟩ := step_of_no_decode s w rest hs hw
    obtain rfl := Host.Outcome.next.inj (hu.symm.trans ht)
    exact hfault.of_response hr

/-! ### What clears the error pair (R183) -/

/-- `t` has the error pair of `s`. -/
def KeepsErrorPair (s t : State) : Prop := t.err = s.err ∧ t.errop = s.errop

/-- A fault does not overwrite a recorded error (R182). -/
theorem Faulted.keepsErrorPair {s t : State} {op code : Byte} (h : Faulted s t op code) (herr : s.err ≠ 0#8) :
    KeepsErrorPair s t := by
  subst h
  exact ⟨if_neg herr, if_neg herr⟩

/-- A command that completes leaves the error pair alone, but for ERR_CLR and RESET. -/
theorem Effect.keepsErrorPair {i : Instr} {s u : State} {d : Word} (h : Effect i s u d) (hclr : i ≠ .errClr)
    (hreset : i ≠ .reset) : KeepsErrorPair s u := by
  cases h
  case errClr => exact absurd rfl hclr
  case reset => exact absurd rfl hreset
  all_goals exact ⟨rfl, rfl⟩

/-- No command but ERR_CLR and RESET changes a recorded error. -/
theorem keepsErrorPair_of_exec_command (i : Instr) (s t : State) (hi : i.isPseudo = false) (hclr : i ≠ .errClr)
    (hreset : i ≠ .reset) (herr : s.err ≠ 0#8) (ht : exec i s = .next t) : KeepsErrorPair s t := by
  rcases exec_command i s hi with ⟨e, he⟩ | ⟨u, d, heffect, hu⟩ | ⟨hfault, -⟩
  · obtain rfl := Host.Outcome.next.inj (he.symm.trans ht)
    exact (faulted_takeError s i.opcode e).keepsErrorPair herr
  · obtain rfl := Host.Outcome.next.inj (hu.symm.trans ht)
    exact heffect.keepsErrorPair hclr hreset
  · cases hfault.symm.trans ht

/-- No instruction but ERR_CLR and RESET changes a recorded error: a pseudo-command is one command, after a hash that touches
no error register if it has a message. -/
theorem keepsErrorPair_of_exec (i : Instr) (s t : State) (hclr : i ≠ .errClr) (hreset : i ≠ .reset) (herr : s.err ≠ 0#8)
    (ht : exec i s = .next t) : KeepsErrorPair s t := by
  cases hi : i.isPseudo
  · exact keepsErrorPair_of_exec_command i s t hi hclr hreset herr ht
  cases i with
  | new e n =>
    rw [exec_new_eq_exec_cfg] at ht
    exact keepsErrorPair_of_exec_command (.cfg e n) s t rfl nofun nofun herr ht
  | hash m =>
    obtain rfl := Host.Outcome.next.inj ((hashMessage_eq_hashed m s).symm.trans ht)
    exact ⟨rfl, rfl⟩
  | add m =>
    rw [exec_add] at ht
    exact keepsErrorPair_of_exec_command .fAdd (s.hashed m) t rfl nofun nofun herr ht
  | has m =>
    rw [exec_has] at ht
    exact keepsErrorPair_of_exec_command .fHas (s.hashed m) t rfl nofun nofun herr ht
  | clear =>
    rw [exec_clear_eq_exec_bClear] at ht
    exact keepsErrorPair_of_exec_command .bClear s t rfl nofun nofun herr ht
  | _ => cases hi

/-- ERR_CLR and RESET complete in every state with a clear pair (R183). -/
theorem exec_clears_errorPair (i : Instr) (s : State) (hi : i = .errClr ∨ i = .reset) :
    ∃ t : State, exec i s = .next t ∧ t.err = 0#8 ∧ t.errop = 0#8 := by
  rcases hi with rfl | rfl
  · exact ⟨_, exec_errClr s, rfl, rfl⟩
  · exact ⟨_, exec_reset s, rfl, rfl⟩

/-- A step that takes a command word keeps a recorded error, unless the word is ERR_CLR or RESET, which clear it. -/
theorem step_command_errorPair (s t : State) (w : Cmd) (rest : List HostInput) (hs : s.host = .command w :: rest)
    (ht : step s = .next t) (herr : s.err ≠ 0#8) :
    ((decode s.params w ≠ .ok .errClr ∧ decode s.params w ≠ .ok .reset) ∧ KeepsErrorPair s t) ∨
    ((decode s.params w = .ok .errClr ∨ decode s.params w = .ok .reset) ∧ t.err = 0#8 ∧ t.errop = 0#8) := by
  rcases step_command_cases s w rest hs with ⟨i, hi, hstep⟩ | hw
  · rw [hi]
    have hexec := hstep.symm.trans ht
    by_cases hclears : i = .errClr ∨ i = .reset
    · obtain ⟨u, hu, hclear⟩ := exec_clears_errorPair i { s with host := rest } hclears
      obtain rfl := Host.Outcome.next.inj (hu.symm.trans hexec)
      exact .inr ⟨hclears.imp (congrArg _) (congrArg _), hclear⟩
    · obtain ⟨hclr, hreset⟩ := not_or.mp hclears
      exact .inl ⟨⟨fun h => hclr (Except.ok.inj h), fun h => hreset (Except.ok.inj h)⟩,
        keepsErrorPair_of_exec i { s with host := rest } t hclr hreset herr hexec⟩
  · obtain ⟨u, hu, hfault⟩ := step_of_no_decode s w rest hs hw
    obtain rfl := Host.Outcome.next.inj (hu.symm.trans ht)
    exact .inl ⟨⟨hw _, hw _⟩, hfault.keepsErrorPair herr⟩

/-- A step that takes a hardware reset clears the pair, also during a command (70_reset_and_hazards.md R195, R197). -/
theorem step_reset_clears_errorPair (s t : State) (x : HostInput) (rest : List HostInput) (w : Cmd)
    (hx : x = .reset ∨ x = .resetDuring w) (hs : s.host = x :: rest) (ht : step s = .next t) :
    t.err = 0#8 ∧ t.errop = 0#8 := by
  obtain rfl := Host.Outcome.next.inj ((step_of_reset s x rest w hx hs).symm.trans ht)
  exact ⟨rfl, rfl⟩

/-- Settles O14: a step completes on a command word, which keeps the pair unless it is one of the two, or on a reset. -/
theorem onlyErrClrAndResetClearTheErrorPair : Obligations.OnlyErrClrAndResetClearTheErrorPair := by
  refine ⟨keepsErrorPair_of_exec, exec_clears_errorPair, fun s t x rest hs ht herr => ?_⟩
  cases x with
  | command w =>
    rcases step_command_errorPair s t w rest hs ht herr with ⟨hdecode, hkeeps⟩ | ⟨hdecode, hclear⟩
    · refine .inl ⟨nofun, nofun, fun w' hw => ?_, hkeeps⟩
      cases hw
      exact hdecode
    · exact .inr ⟨.inr (.inr ⟨w, rfl, hdecode⟩), hclear⟩
  | reset => exact .inr ⟨.inl rfl, step_reset_clears_errorPair s t .reset rest 0#80 (.inl rfl) hs ht⟩
  | resetDuring w =>
    exact .inr ⟨.inr (.inl ⟨w, rfl⟩), step_reset_clears_errorPair s t (.resetDuring w) rest w (.inr rfl) hs ht⟩
  | secondCommand w => simp [step, hostTurn, hs, takeInput] at ht
  | foreignWrite a v => simp [step, hostTurn, hs, takeInput] at ht

end Sys2Proof.Machine
end

section
/-! The filter's operations on any message (43_filter_ops.md R140 to R142) raise no error (60_exceptions.md R180): O46. -/

namespace Sys2Proof.Machine

/-- `t` is `s` after one response or more, all of code 0, with the error pair as it was. -/
def NoErrorRaised (s t : State) : Prop :=
  ∃ rs : List Response, rs ≠ [] ∧ t.rsps = rs ++ s.rsps ∧ (∀ r ∈ rs, r.err = 0#8) ∧ KeepsErrorPair s t

/-- The hash of a message raises no error (30_encoding.md R82). -/
theorem noErrorRaised_hashed (s : State) (m : List Byte) : NoErrorRaised s (s.hashed m) := by
  refine ⟨_, List.cons_ne_nil _ _, rfl, fun r hr => ?_, rfl, rfl⟩
  rcases List.mem_cons.mp hr with rfl | hr
  · rfl
  · rw [List.eq_of_mem_replicate hr]

/-- A further response of code 0 raises no error, where the command did not touch what has been answered. -/
theorem NoErrorRaised.respond {s u v : State} (h : NoErrorRaised s u) (hrsps : v.rsps = u.rsps) (hpair : KeepsErrorPair u v)
    (d : Word) : NoErrorRaised s (v.respond ⟨0#8, d⟩) := by
  obtain ⟨rs, -, hu, hcodes, herr, herrop⟩ := h
  obtain ⟨herr', herrop'⟩ := hpair
  refine ⟨⟨0#8, d⟩ :: rs, List.cons_ne_nil _ _, congrArg (_ :: ·) (hrsps.trans hu), ?_, herr'.trans herr,
    herrop'.trans herrop⟩
  rintro r (_ | ⟨_, hr⟩)
  · rfl
  · exact hcodes r hr

/-- ADD, HAS and CLEAR complete with a filter and raise no error: after the hash F_ADD and F_HAS have the digest they need. -/
theorem exec_noErrorRaised (s : State) (m : List Byte) (i : Instr) (hc : s.cfgValid = true)
    (hi : i = .add m ∨ i = .has m ∨ i = .clear) : ∃ t : State, exec i s = .next t ∧ NoErrorRaised s t := by
  rcases hi with rfl | rfl | rfl
  · exact ⟨_, (exec_add s m).trans (exec_fAdd_of_done (s.hashed m) hc rfl),
      (noErrorRaised_hashed s m).respond rfl ⟨rfl, rfl⟩ _⟩
  · exact ⟨_, (exec_has s m).trans (exec_fHas_of_done (s.hashed m) hc rfl),
      (noErrorRaised_hashed s m).respond rfl ⟨rfl, rfl⟩ _⟩
  · rw [exec_clear_eq_exec_bClear, exec_bClear]
    refine ⟨_, withConfig_of_configured s opBClear _ hc, [⟨0#8, 0#64⟩], List.cons_ne_nil _ _, rfl, fun r hr => ?_,
      rfl, rfl⟩
    rw [List.mem_singleton.mp hr]

/-- Settles O46: neither the hash nor F_ADD, F_HAS or B_CLEAR raises an error with a filter. -/
theorem filterOperationsNeverFault : Obligations.FilterOperationsNeverFault := by
  intro s m i hc hi
  obtain ⟨t, ht, rs, hne, hrsps, hcodes, hkeeps⟩ := exec_noErrorRaised s m i hc hi
  exact ⟨t, rs, ht, hne, hrsps, hcodes, hkeeps⟩

end Sys2Proof.Machine
end

section
/-! The encoder and the decoder (30_encoding.md): a word is that of a command exactly when its fields are the command's row, and
O1 to O5. -/

namespace Sys2Proof

/-! ### Encoding a command gives the fields of its row (R73, R75) -/

/-- The decoder accepts the fields of every row (R73, R75). -/
theorem decodeFields_of_decodesTo (p : Params) (op a : Byte) (d : Word) (i : Instr) (h : DecodesTo p op a d i) :
    decodeFields p op a d = .ok i := by
  cases h with
  | cfg a d htop hupper => exact (if_pos ⟨htop, hupper⟩ : decodeCfg a d = _)
  | csrRd a c hnumber hexists =>
    have hfields : decodeFields p opCsrRd a 0#64 = decodeCsrRd p a 0#64 := rfl
    simp [hfields, decodeCsrRd, hnumber, hexists]
  | hFinal a d hhigh hfits => exact (if_pos hhigh).trans (if_pos hfits)
  | idxWr a d hhigh hlane => exact (if_pos hhigh).trans (if_pos hlane)
  | nop | reset | errClr | hInit | hAbsorb | pGen | idxClr | bSet | bTest | bClear | mRd | mWr | fAdd | fHas => rfl

/-- A word decodes to a command exactly when its fields are those of the command's row. -/
theorem decode_eq_ok_iff (p : Params) (w : Cmd) (i : Instr) :
    decode p w = .ok i ↔ DecodesTo p (cmdOp w) (cmdA w) (cmdD w) i :=
  ⟨decodeFields_ok p _ _ _ i, decodeFields_of_decodesTo p _ _ _ i⟩

/-- An operand put into a wider field is found again in its low bits. -/
theorem extractLsb'_zero_setWidth {n m : Nat} (h : n ≤ m) (x : BitVec n) : (x.setWidth m).extractLsb' 0 n = x := by
  apply BitVec.eq_of_getLsbD_eq
  intro i hi
  simp [hi, Nat.lt_of_lt_of_le hi h]

/-- An operand put into a wider field leaves the bits above itself zero. -/
theorem extractLsb'_setWidth_above {n : Nat} (m k : Nat) (x : BitVec n) : (x.setWidth m).extractLsb' n k = 0#k := by
  apply BitVec.eq_of_getLsbD_eq
  intro i hi
  simp

/-- The row of CFG's own fields (R73). -/
theorem decodesTo_cfg (p : Params) (e : BitVec 6) (k : BitVec 7) :
    DecodesTo p opCfg (k.setWidth 8) (e.setWidth 64) (.cfg e k) := by
  have hrow := DecodesTo.cfg (p := p) (k.setWidth 8) (e.setWidth 64) (extractLsb'_setWidth_above 8 1 k)
    (extractLsb'_setWidth_above 64 58 e)
  rwa [extractLsb'_zero_setWidth (by decide), extractLsb'_zero_setWidth (by decide)] at hrow

/-- The row of H_FINAL's own fields (R73, R74). -/
theorem decodesTo_hFinal (p : Params) (n : BitVec 3) (tail : Word) (h : (Instr.hFinal n tail).wf p = true) :
    DecodesTo p opHFinal (n.setWidth 8) tail (.hFinal n tail) := by
  have hn : (n.setWidth 8).extractLsb' 0 3 = n := extractLsb'_zero_setWidth (by decide) n
  have hfits : tailFits n tail = true := (tailFits_iff n tail).mpr (of_decide_eq_true h)
  have hrow := DecodesTo.hFinal (p := p) (n.setWidth 8) tail (extractLsb'_setWidth_above 8 5 n) (hn.symm ▸ hfits)
  rwa [hn] at hrow

/-- The row of IDX_WR's own fields (R73). -/
theorem decodesTo_idxWr (p : Params) (j : Lane) (x : Word) (h : (Instr.idxWr j x).wf p = true) :
    DecodesTo p opIdxWr (j.setWidth 8) x (.idxWr j x) := by
  have hj : (j.setWidth 8).extractLsb' 0 6 = j := extractLsb'_zero_setWidth (by decide) j
  have hlane : laneExists p j = true := h
  have hrow := DecodesTo.idxWr (p := p) (j.setWidth 8) x (extractLsb'_setWidth_above 8 2 j) (hj.symm ▸ hlane)
  rwa [hj] at hrow

/-- The word of a well-formed command has the fields of the command's row. -/
theorem decodesTo_of_encodeCommand (p : Params) (i : Instr) (w : Cmd) (hwf : i.wf p = true)
    (hw : encodeCommand i = some w) : DecodesTo p (cmdOp w) (cmdA w) (cmdD w) i := by
  have of_word : ∀ (op a : Byte) (d : Word), some (cmdWord op a d) = some w → DecodesTo p op a d i →
      DecodesTo p (cmdOp w) (cmdA w) (cmdD w) i := by
    intro op a d he hrow
    obtain rfl := Option.some.inj he
    rwa [cmdOp_cmdWord, cmdA_cmdWord, cmdD_cmdWord]
  cases i with
  | nop => exact of_word _ _ _ hw .nop
  | reset => exact of_word _ _ _ hw .reset
  | cfg e k => exact of_word _ _ _ hw (decodesTo_cfg p e k)
  | csrRd c =>
    exact of_word _ _ _ hw (.csrRd _ c (csrOfNumber_csrNumber c) ((Machine.wf_csrRd p c).symm.trans hwf))
  | errClr => exact of_word _ _ _ hw .errClr
  | hInit => exact of_word _ _ _ hw .hInit
  | hAbsorb m => exact of_word _ _ _ hw (.hAbsorb m)
  | hFinal n tail => exact of_word _ _ _ hw (decodesTo_hFinal p n tail hwf)
  | pGen => exact of_word _ _ _ hw .pGen
  | idxWr j x => exact of_word _ _ _ hw (decodesTo_idxWr p j x hwf)
  | idxClr => exact of_word _ _ _ hw .idxClr
  | bSet => exact of_word _ _ _ hw .bSet
  | bTest => exact of_word _ _ _ hw .bTest
  | bClear => exact of_word _ _ _ hw .bClear
  | mRd addr => exact of_word _ _ _ hw (.mRd addr)
  | mWr addr v => exact of_word _ _ _ hw (.mWr v addr)
  | fAdd => exact of_word _ _ _ hw .fAdd
  | fHas => exact of_word _ _ _ hw .fHas
  | new | hash | add | has | clear => cases hw

/-- Settles O2: the word has the fields of the command's row, which the decoder accepts. -/
theorem encodedCommandDecodesToItself : Obligations.EncodedCommandDecodesToItself := fun p i w hwf hw =>
  (decode_eq_ok_iff p w i).mpr (decodesTo_of_encodeCommand p i w hwf hw)

/-- The fields of a row are those of its command's one word, and the command is well-formed. -/
theorem encodeCommand_of_decodesTo (p : Params) (op a : Byte) (d : Word) (i : Instr) (h : DecodesTo p op a d i) :
    encodeCommand i = some (cmdWord op a d) ∧ i.wf p = true := by
  cases h with
  | cfg a d htop hupper => rw [encodeCommand, setWidth_of_bit7_zero a htop, setWidth_of_high58_zero d hupper]; exact ⟨rfl, rfl⟩
  | csrRd a c hnumber hexists =>
    rw [encodeCommand, csrNumber_of_csrOfNumber a c hnumber]
    exact ⟨rfl, (Machine.wf_csrRd p c).trans hexists⟩
  | hFinal a d hhigh hfits =>
    rw [encodeCommand, setWidth_of_high5_zero a hhigh]
    exact ⟨rfl, decide_eq_true ((tailFits_iff _ d).mp hfits)⟩
  | idxWr a d hhigh hlane => rw [encodeCommand, setWidth_of_high2_zero a hhigh]; exact ⟨rfl, hlane⟩
  | nop | reset | errClr | hInit | hAbsorb | pGen | idxClr | bSet | bTest | bClear | mRd | mWr | fAdd | fHas =>
    exact ⟨rfl, rfl⟩

/-- Settles O3: a word that decodes has the fields of its command's row, and it is those fields. -/
theorem decodedCommandHasNoOtherWord : Obligations.DecodedCommandHasNoOtherWord := by
  intro p i w h
  have hrow := encodeCommand_of_decodesTo p _ _ _ i ((decode_eq_ok_iff p w i).mp h)
  rwa [cmdWord_fields] at hrow

/-! ### The opcode table (R89) -/

/-- A word selects a row when its fields, masked, are the row's. -/
theorem selectsRow_iff_fields (w v m : Cmd) : selectsRow w (v, m) = true ↔
    cmdOp w &&& cmdOp m = cmdOp v ∧ cmdA w &&& cmdA m = cmdA v ∧ cmdD w &&& cmdD m = cmdD v := by
  have hand : w &&& m = cmdWord (cmdOp w &&& cmdOp m) (cmdA w &&& cmdA m) (cmdD w &&& cmdD m) := by
    rw [← cmdWord_and, cmdWord_fields, cmdWord_fields]
  rw [selectsRow, beq_iff_eq]
  constructor
  · intro h
    rw [← show w &&& m = v from h, hand, cmdOp_cmdWord, cmdA_cmdWord, cmdD_cmdWord]
    exact ⟨rfl, rfl, rfl⟩
  · rintro ⟨hop, ha, hd⟩
    show w &&& m = v
    rw [hand, hop, ha, hd, cmdWord_fields]

/-- Every row looks at the whole opcode (R89). -/
theorem rowOpcode_masked (row : Cmd × Cmd) (hrow : row ∈ opcodeTable) : cmdOp row.2 = 0xff#8 := by
  have hmasks : opcodeTable.map (fun row => cmdOp row.2) = List.replicate 18 0xff#8 := by decide
  exact List.eq_of_mem_replicate (hmasks ▸ List.mem_map_of_mem hrow)

/-- The rows' opcodes, in the table's order (R75). -/
theorem rowOpcodes_eq : opcodeTable.map (fun row => cmdOp row.1) =
    [opNop, opReset, opCfg, opCsrRd, opErrClr, opHInit, opHAbsorb, opHFinal, opPGen, opIdxWr, opIdxClr, opBSet, opBTest,
      opBClear, opMRd, opMWr, opFAdd, opFHas] := by decide

/-- A word carries the opcode of a row it selects. -/
theorem cmdOp_of_selectsRow (w : Cmd) (row : Cmd × Cmd) (hrow : row ∈ opcodeTable) (h : selectsRow w row = true) :
    cmdOp w = cmdOp row.1 := by
  obtain ⟨hop, -, -⟩ := (selectsRow_iff_fields w row.1 row.2).mp h
  have hall : cmdOp w &&& 0xff#8 = cmdOp w := BitVec.and_allOnes
  rwa [rowOpcode_masked row hrow, hall] at hop

/-- No two rows of the table overlap: they have different opcodes (R89). -/
theorem row_unique (w : Cmd) (row row' : Cmd × Cmd) (hrow : row ∈ opcodeTable) (hrow' : row' ∈ opcodeTable)
    (h : selectsRow w row = true) (h' : selectsRow w row' = true) : row = row' := by
  have hnodup : (opcodeTable.map (fun row => cmdOp row.1)).Nodup := by
    rw [rowOpcodes_eq]
    decide
  exact List.inj_on_of_nodup_map hnodup hrow hrow'
    ((cmdOp_of_selectsRow w row hrow h).symm.trans (cmdOp_of_selectsRow w row' hrow' h'))

/-- The number of a lane's CSR (10_state.md R43). -/
theorem toNat_csrNumber_idx : ∀ j : Lane, (csrNumber (.idx j)).toNat = 0x40 + j.toNat := by decide

/-- A CSR that exists has one of the numbers that the table's constraint lists (10_state.md R31 to R43). -/
theorem csrNumber_listed (p : Params) (c : Csr) (h : csrExists p c = true) :
    csrNumber c ≤ 0x0B#8 ∨ (0x10#8 ≤ csrNumber c ∧ csrNumber c ≤ 0x13#8) ∨
      (0x40 ≤ (csrNumber c).toNat ∧ (csrNumber c).toNat < 0x40 + p.kMax ∧ (csrNumber c).toNat ≤ 0x7F) := by
  cases c with
  | idx j =>
    have hlane : j.toNat < p.kMax := of_decide_eq_true h
    have hj := j.isLt
    rw [toNat_csrNumber_idx]
    omega
  | status | exp | bitCount | shift | k | digest | low | high | laneMask | testVec | params | len =>
    exact .inl (by decide)
  | v0 | v1 | v2 | v3 => exact .inr (.inl (by decide))

/-- Every number that the constraint lists names a CSR for some K_MAX (10_state.md R31 to R43). -/
theorem csrOfNumber_isSome_of_listed : ∀ n : Byte,
    n ≤ 0x0B#8 ∨ (0x10#8 ≤ n ∧ n ≤ 0x13#8) ∨ (0x40 ≤ n.toNat ∧ n.toNat ≤ 0x7F) → (csrOfNumber n).isSome = true := by
  decide

/-- The CSR that a listed number names exists (10_state.md R43). -/
theorem csrExists_of_listed (p : Params) (n : Byte) (h : n ≤ 0x0B#8 ∨ (0x10#8 ≤ n ∧ n ≤ 0x13#8) ∨
    (0x40 ≤ n.toNat ∧ n.toNat < 0x40 + p.kMax ∧ n.toNat ≤ 0x7F)) :
    ∃ c : Csr, csrOfNumber n = some c ∧ csrExists p c = true := by
  obtain ⟨c, hc⟩ := Option.isSome_iff_exists.mp (csrOfNumber_isSome_of_listed n
    (h.imp_right (Or.imp_right fun ⟨hlo, _, hhi⟩ => ⟨hlo, hhi⟩)))
  refine ⟨c, hc, ?_⟩
  cases c with
  | idx j =>
    have hn := toNat_csrNumber_idx j
    rw [csrNumber_of_csrOfNumber n _ hc] at hn
    rcases h with h | ⟨-, h⟩ | ⟨-, h, -⟩
    · have hle : n.toNat ≤ 0x0B := h
      omega
    · have hle : n.toNat ≤ 0x13 := h
      omega
    · exact decide_eq_true (by omega)
  | _ => rfl

/-- A command's row meets the table's constraints (R77, R89). -/
theorem meetsConstraints_of_decodesTo (p : Params) (w : Cmd) (i : Instr)
    (h : DecodesTo p (cmdOp w) (cmdA w) (cmdD w) i) : meetsConstraints p w = true := by
  unfold meetsConstraints
  generalize cmdOp w = op, cmdA w = a, cmdD w = d at h ⊢
  cases h with
  | csrRd a c hnumber hexists =>
    rw [if_pos rfl, ← csrNumber_of_csrOfNumber a c hnumber]
    exact decide_eq_true (csrNumber_listed p c hexists)
  | hFinal a d hhigh hfits =>
    have hd := (tailFits_iff _ d).mp hfits
    rw [BitVec.extractLsb'_toNat] at hd
    exact decide_eq_true hd
  | idxWr a d hhigh hlane =>
    have hj := of_decide_eq_true hlane
    rw [BitVec.extractLsb'_toNat] at hj
    exact decide_eq_true hj
  | nop | reset | cfg | errClr | hInit | hAbsorb | pGen | idxClr | bSet | bTest | bClear | mRd | mWr | fAdd | fHas => rfl

/-- A command stands for itself. -/
theorem expand_of_command (i : Instr) (hi : i.isPseudo = false) : expand i = [i] := by
  cases i with
  | new | hash | add | has | clear => cases hi
  | _ => rfl

/-- Every command's word selects a row (R89). -/
theorem selectsRow_of_encodeCommand (p : Params) (i : Instr) (w : Cmd) (hwf : i.wf p = true)
    (hw : encodeCommand i = some w) : ∃ row ∈ opcodeTable, selectsRow w row = true := by
  have of_statement : i.isPseudo = false → Laws.TableRow.Statement i →
      ∃ row ∈ opcodeTable, selectsRow w row = true := by
    intro hi hrow
    refine hrow p hwf w ?_
    simp [encode, expand_of_command i hi, hw]
  cases i with
  | nop => exact of_statement rfl Laws.TableRow.nop
  | reset => exact of_statement rfl Laws.TableRow.reset
  | cfg e k => exact of_statement rfl (Laws.TableRow.cfg e k)
  | csrRd c => exact of_statement rfl (Laws.TableRow.csrRd c)
  | errClr => exact of_statement rfl Laws.TableRow.errClr
  | hInit => exact of_statement rfl Laws.TableRow.hInit
  | hAbsorb m => exact of_statement rfl (Laws.TableRow.hAbsorb m)
  | hFinal n tail => exact of_statement rfl (Laws.TableRow.hFinal n tail)
  | pGen => exact of_statement rfl Laws.TableRow.pGen
  | idxWr j x => exact of_statement rfl (Laws.TableRow.idxWr j x)
  | idxClr => exact of_statement rfl Laws.TableRow.idxClr
  | bSet => exact of_statement rfl Laws.TableRow.bSet
  | bTest => exact of_statement rfl Laws.TableRow.bTest
  | bClear => exact of_statement rfl Laws.TableRow.bClear
  | mRd addr => exact of_statement rfl (Laws.TableRow.mRd addr)
  | mWr addr v => exact of_statement rfl (Laws.TableRow.mWr addr v)
  | fAdd => exact of_statement rfl Laws.TableRow.fAdd
  | fHas => exact of_statement rfl Laws.TableRow.fHas
  | new | hash | add | has | clear => cases hw

/-- Bits that a full mask keeps are zero when the masked word is. -/
theorem extractLsb'_eq_zero_of_and {n : Nat} (x m : BitVec n) (i k : Nat) (hm : m.extractLsb' i k = BitVec.allOnes k)
    (h : x &&& m = 0#n) : x.extractLsb' i k = 0#k := by
  have hcut := congrArg (BitVec.extractLsb' i k) h
  rwa [BitVec.extractLsb'_and, hm, BitVec.and_allOnes, BitVec.extractLsb'_zero] at hcut

/-- The command of a word that selects a row of all 80 bits: the row's own word. -/
theorem decode_of_wholeRow (p : Params) (w v : Cmd) (i : Instr) (h : selectsRow w (v, 0xffffffffffffffffffff#80) = true)
    (hv : decode p v = .ok i) : ∃ i : Instr, decode p w = .ok i := by
  have hw : w &&& BitVec.allOnes 80 = v := eq_of_beq h
  rw [BitVec.and_allOnes] at hw
  exact ⟨i, hw ▸ hv⟩

/-- The constraint on CSR_RD's number (R77, R89). -/
theorem meetsConstraints_of_opCsrRd (p : Params) (w : Cmd) (h : cmdOp w = opCsrRd) :
    meetsConstraints p w = decide (cmdA w ≤ 0x0B#8 ∨ (0x10#8 ≤ cmdA w ∧ cmdA w ≤ 0x13#8) ∨
      (0x40 ≤ (cmdA w).toNat ∧ (cmdA w).toNat < 0x40 + p.kMax ∧ (cmdA w).toNat ≤ 0x7F)) :=
  if_pos h

/-- The constraint on H_FINAL's long operand (R77, R89). -/
theorem meetsConstraints_of_opHFinal (p : Params) (w : Cmd) (h : cmdOp w = opHFinal) :
    meetsConstraints p w = decide ((cmdD w).toNat < 2 ^ (8 * ((cmdA w).toNat % 8))) := by
  rw [meetsConstraints, h]
  rfl

/-- The constraint on IDX_WR's lane (R77, R89). -/
theorem meetsConstraints_of_opIdxWr (p : Params) (w : Cmd) (h : cmdOp w = opIdxWr) :
    meetsConstraints p w = decide ((cmdA w).toNat % 64 < p.kMax) := by
  rw [meetsConstraints, h]
  rfl

/-- A word that selects a row and meets the row's constraints is a command. -/
theorem decode_of_selectsRow (p : Params) (w : Cmd) (row : Cmd × Cmd) (hrow : row ∈ opcodeTable)
    (h : selectsRow w row = true) (hmeets : meetsConstraints p w = true) : ∃ i : Instr, decode p w = .ok i := by
  have hop := cmdOp_of_selectsRow w row hrow h
  obtain ⟨-, ha, hd⟩ := (selectsRow_iff_fields w row.1 row.2).mp h
  have of_row : ∀ (op : Byte) (i : Instr), cmdOp w = op → DecodesTo p op (cmdA w) (cmdD w) i →
      ∃ i : Instr, decode p w = .ok i := fun op i ho hi => ⟨i, (decode_eq_ok_iff p w i).mpr (ho ▸ hi)⟩
  simp only [opcodeTable, List.mem_append, List.mem_cons, List.not_mem_nil, or_false] at hrow
  rcases hrow with (rfl | rfl | rfl | rfl | rfl | rfl | rfl | rfl | rfl) |
    (rfl | rfl | rfl | rfl | rfl | rfl | rfl | rfl | rfl)
  · exact decode_of_wholeRow p w _ .nop h rfl
  · exact decode_of_wholeRow p w _ .reset h rfl
  · exact of_row opCfg _ hop (.cfg _ _ (extractLsb'_eq_zero_of_and _ 0x80#8 7 1 (by decide) ha)
      (extractLsb'_eq_zero_of_and _ 0xffffffffffffffc0#64 6 58 (by decide) hd))
  · have hd0 : cmdD w = 0#64 := BitVec.and_allOnes.symm.trans hd
    rw [meetsConstraints_of_opCsrRd p w hop, decide_eq_true_iff] at hmeets
    obtain ⟨c, hnumber, hexists⟩ := csrExists_of_listed p (cmdA w) hmeets
    exact of_row opCsrRd (.csrRd c) hop (hd0.symm ▸ .csrRd _ c hnumber hexists)
  · exact decode_of_wholeRow p w _ .errClr h rfl
  · exact decode_of_wholeRow p w _ .hInit h rfl
  · have ha0 : cmdA w = 0#8 := BitVec.and_allOnes.symm.trans ha
    exact of_row opHAbsorb (.hAbsorb (cmdD w)) hop (ha0.symm ▸ .hAbsorb (cmdD w))
  · rw [meetsConstraints_of_opHFinal p w hop, decide_eq_true_iff] at hmeets
    refine of_row opHFinal _ hop (.hFinal _ _ (extractLsb'_eq_zero_of_and _ 0xf8#8 3 5 (by decide) ha) ?_)
    rwa [tailFits_iff, BitVec.extractLsb'_toNat]
  · exact decode_of_wholeRow p w _ .pGen h rfl
  · rw [meetsConstraints_of_opIdxWr p w hop] at hmeets
    refine of_row opIdxWr _ hop (.idxWr _ _ (extractLsb'_eq_zero_of_and _ 0xc0#8 6 2 (by decide) ha) ?_)
    rwa [laneExists, BitVec.extractLsb'_toNat]
  · exact decode_of_wholeRow p w _ .idxClr h rfl
  · exact decode_of_wholeRow p w _ .bSet h rfl
  · exact decode_of_wholeRow p w _ .bTest h rfl
  · exact decode_of_wholeRow p w _ .bClear h rfl
  · have ha0 : cmdA w = 0#8 := BitVec.and_allOnes.symm.trans ha
    exact of_row opMRd (.mRd (cmdD w)) hop (ha0.symm ▸ .mRd (cmdD w))
  · exact of_row opMWr _ hop (.mWr _ _)
  · exact decode_of_wholeRow p w _ .fAdd h rfl
  · exact decode_of_wholeRow p w _ .fHas h rfl

/-- Settles O4: a command's word selects its row and meets its constraints, such a word has a row's fields, and no two rows have
one opcode. -/
theorem opcodeTableSelectsTheCommands : Obligations.OpcodeTableSelectsTheCommands := by
  refine ⟨fun p w => ⟨?_, ?_⟩, row_unique⟩
  · rintro ⟨i, hi⟩
    have hrow := (decode_eq_ok_iff p w i).mp hi
    obtain ⟨hw, hwf⟩ := encodeCommand_of_decodesTo p _ _ _ i hrow
    rw [cmdWord_fields] at hw
    exact ⟨selectsRow_of_encodeCommand p i w hwf hw, meetsConstraints_of_decodesTo p w i hrow⟩
  · rintro ⟨⟨row, hrow, h⟩, hmeets⟩
    exact decode_of_selectsRow p w row hrow h hmeets

/-! ### Pseudo-commands (R81 to R85, R89) -/

/-- A command with a word, well-formed under the parameters. -/
def IsCommandOf (p : Params) (i : Instr) : Prop := i.wf p = true ∧ ∃ w : Cmd, encodeCommand i = some w

/-- The commands of a hash are well-formed and have a word (R82). -/
theorem isCommandOf_hashCommands (p : Params) (bytes : List Byte) : ∀ c ∈ hashCommands bytes, IsCommandOf p c := by
  intro c hc
  simp only [hashCommands, List.cons_append, List.mem_cons, List.mem_append, List.mem_map, List.not_mem_nil,
    or_false] at hc
  rcases hc with rfl | ⟨m, -, rfl⟩ | rfl
  · exact ⟨rfl, _, rfl⟩
  · exact ⟨rfl, _, rfl⟩
  · exact ⟨decide_eq_true ((tailFits_iff _ _).mp (Machine.tailOperand_fits bytes)), _, rfl⟩

/-- The commands of every expansion are well-formed and have a word (R81 to R85). -/
theorem isCommandOf_expand (p : Params) (i : Instr) (hi : i.isPseudo = true) : ∀ c ∈ expand i, IsCommandOf p c := by
  have of_single : ∀ f : Instr, IsCommandOf p f → ∀ c ∈ [f], IsCommandOf p c := fun f hf c hc => by
    rwa [List.mem_singleton.mp hc]
  have hash := isCommandOf_hashCommands p
  cases i with
  | new e k => exact of_single _ ⟨rfl, _, rfl⟩
  | hash bytes => exact hash bytes
  | add bytes => exact fun c hc => (List.mem_append.mp hc).elim (hash bytes c) (of_single .fAdd ⟨rfl, _, rfl⟩ c)
  | has bytes => exact fun c hc => (List.mem_append.mp hc).elim (hash bytes c) (of_single .fHas ⟨rfl, _, rfl⟩ c)
  | clear => exact of_single _ ⟨rfl, _, rfl⟩
  | _ => cases hi

/-- The words of commands decode to the commands, in order. -/
theorem map_decode_encodeCommand (p : Params) (is : List Instr) (h : ∀ c ∈ is, IsCommandOf p c) :
    (is.filterMap encodeCommand).map (decode p) = is.map .ok := by
  induction is with
  | nil => rfl
  | cons c is ih =>
    obtain ⟨hwf, w, hw⟩ := h c List.mem_cons_self
    rw [List.filterMap_cons_some hw, List.map_cons, List.map_cons, ih fun c hc => h c (List.mem_cons_of_mem _ hc),
      encodedCommandDecodesToItself p c w hwf hw]

/-- Settles O5: every command of an expansion is well-formed, so its word decodes to it. -/
theorem pseudoWordsDecodeToExpansion : Obligations.PseudoWordsDecodeToExpansion := fun p i hi =>
  map_decode_encodeCommand p (expand i) (isCommandOf_expand p i hi)

/-- Settles O1: each word is the one that the encoder gives its command, which is well-formed under the standard parameters. -/
theorem specWordsDecodeToTheirCommands : Obligations.SpecWordsDecodeToTheirCommands :=
  have of_encode := encodedCommandDecodesToItself Params.standard
  ⟨of_encode _ _ rfl rfl, of_encode _ _ rfl rfl, of_encode _ _ rfl rfl, of_encode _ _ rfl rfl, of_encode _ _ rfl rfl,
    of_encode _ _ rfl rfl, of_encode _ _ rfl rfl, of_encode _ _ rfl rfl⟩

end Sys2Proof
end

section
/-! The step (30_encoding.md R71, 70_reset_and_hazards.md R195 to R204): what it takes and what it can leave, the words of a
pseudo-command stepped one after another, and O7, O8, O11, O43, O53. -/

namespace Sys2Proof.Machine

/-! ### What a step takes -/

/-- A word that decodes is run as its command (R71). -/
theorem runCommand_of_decode (w : Cmd) (s : State) (i : Instr) (h : decode s.params w = .ok i) :
    runCommand w s = exec i s := by
  simp only [runCommand, h]

/-- Settles O7: the word leaves the stream, and the command it decodes to is run on what is left. -/
theorem stepRunsTheDecodedCommand : Obligations.StepRunsTheDecodedCommand := fun s w rest i hs hw =>
  (step_of_command s w rest hs).trans (runCommand_of_decode w { s with host := rest } i hw)

/-- A table row's bits that decode are a word that decodes under the standard parameters. -/
theorem decode_tableWord (nbits w : Nat) (i : Instr) (h : decodeTableWord nbits w = some i) :
    decode Params.standard (tableWord nbits w) = .ok i := by
  unfold decodeTableWord at h
  split at h
  · next i' hi' => exact hi'.trans (congrArg _ (Option.some.inj h))
  · cases h

/-- Settles O8: the placed word is the oldest input, and taking it leaves the stream as it was. -/
theorem placedTableWordIsExecuted : Obligations.PlacedTableWordIsExecuted := fun s nbits w i hp hw =>
  stepRunsTheDecodedCommand (s.withFetchWord nbits w) (tableWord nbits w) s.host i rfl
    ((congrArg (decode · _) hp).trans (decode_tableWord nbits w i hw))

/-- With no input left a step changes nothing (R198). -/
theorem step_of_no_input (s : State) (hs : s.host = []) : step s = .next s := by
  simp only [step, hostTurn, hs]

/-- A second outstanding command stops the model (R204). -/
theorem step_of_secondCommand (s : State) (w : Cmd) (rest : List HostInput) (hs : s.host = .secondCommand w :: rest) :
    step s = .fault .commandOverrun := by
  simp only [step, hostTurn, hs, takeInput]

/-- Another agent's write of MEM is refused (60_exceptions.md R190). -/
theorem step_of_foreignWrite (s : State) (a : Nat) (v : Byte) (rest : List HostInput)
    (hs : s.host = .foreignWrite a v :: rest) : step s = .refused .foreignWriter := by
  simp only [step, hostTurn, hs, takeInput]

/-- Settles O11: one answer for each of the three inputs, by the model's own choice (log entries 2, 6, 8). -/
theorem otherInputsWaitOrStop : Obligations.OtherInputsWaitOrStop := fun s rest w a v =>
  ⟨step_of_no_input s, step_of_secondCommand s w rest, step_of_foreignWrite s a v rest⟩

/-! ### What a step can leave -/

/-- Every next state of a step: the idle step's, a reset's, that of a command which completes, that of an error taken. -/
theorem step_next_cases (s t : State) (h : step s = .next t) :
    t = s ∨ ∃ (rest : List HostInput) (u : State), u = { s with host := rest } ∧
      (t = u.toReset ∨ (∃ (i : Instr) (v : State) (d : Word), Effect i u v d ∧ t = v.respond ⟨0#8, d⟩) ∨
        ∃ (op : Byte) (e : ErrCode), t = u.takeError op e) := by
  cases hs : s.host with
  | nil => exact .inl (Host.Outcome.next.inj (h.symm.trans (step_of_no_input s hs)))
  | cons x rest =>
    refine .inr ⟨rest, _, rfl, ?_⟩
    cases x with
    | reset => exact .inl (Host.Outcome.next.inj (h.symm.trans (step_of_reset s _ rest 0#80 (.inl rfl) hs)))
    | resetDuring w => exact .inl (Host.Outcome.next.inj (h.symm.trans (step_of_reset s _ rest w (.inr rfl) hs)))
    | secondCommand w => cases h.symm.trans (step_of_secondCommand s w rest hs)
    | foreignWrite a v => cases h.symm.trans (step_of_foreignWrite s a v rest hs)
    | command w =>
      refine .inr ?_
      rcases step_command_cases s w rest hs with ⟨i, hi, hstep⟩ | hw
      · have hexec := hstep.symm.trans h
        rcases exec_command i { s with host := rest } (decode_isPseudo s.params w i hi) with
          ⟨e, he⟩ | ⟨v, d, heffect, hv⟩ | ⟨hfault, -⟩
        · exact .inr ⟨_, e, Host.Outcome.next.inj (hexec.symm.trans he)⟩
        · exact .inl ⟨i, v, d, heffect, Host.Outcome.next.inj (hexec.symm.trans hv)⟩
        · cases hexec.symm.trans hfault
      · have hrun := (step_of_command s w rest hs).trans (runCommand_of_no_decode w { s with host := rest } hw)
        exact .inr ⟨_, _, Host.Outcome.next.inj (h.symm.trans hrun)⟩

/-- No command changes a parameter. -/
theorem Effect.params {i : Instr} {s u : State} {d : Word} (h : Effect i s u d) : u.params = s.params := by
  cases h <;> rfl

/-- Settles O53: no command that completes changes a parameter, and neither does a reset or an error. -/
theorem noStepChangesTheParameters : Obligations.NoStepChangesTheParameters := by
  intro s t h
  rcases step_next_cases s t h with rfl | ⟨rest, u, rfl, rfl | ⟨i, v, d, heffect, rfl⟩ | ⟨op, e, rfl⟩⟩
  · rfl
  · rfl
  · exact heffect.params
  · rfl

/-! ### The words of a pseudo-command, stepped (30_encoding.md R81 to R85) -/

/-- The machine's run of `n` steps, as an outcome of its own state. -/
def runSteps (n : Nat) (s : State) : Outcome := Host.Core.run Sys2Proof.core n s

/-- A run is one step and then the rest of the run. -/
theorem runSteps_succ (n : Nat) (s : State) : runSteps (n + 1) s = andThen (step s) (runSteps n) := by
  have hrun : ∀ (M : Host.Core) (x : M.State), M.run (n + 1) x =
      match M.step x with | .next u => M.run n u | .fault r => .fault r | .refused r => .refused r := fun _ _ => rfl
  refine (hrun Sys2Proof.core s).trans ?_
  show _ = andThen (Host.Core.step Sys2Proof.core s) (runSteps n)
  cases Host.Core.step Sys2Proof.core s <;> rfl

/-- The step that takes a well-formed command's word runs the command. -/
theorem step_of_encodeCommand (i : Instr) (s : State) (w : Cmd) (rest : List HostInput) (hwf : i.wf s.params = true)
    (hw : encodeCommand i = some w) : step { s with host := .command w :: rest } = exec i { s with host := rest } :=
  stepRunsTheDecodedCommand _ w rest i rfl (encodedCommandDecodesToItself s.params i w hwf hw)

/-- An instruction with a word is a command (R89). -/
theorem isPseudo_of_encodeCommand (i : Instr) (w : Cmd) (h : encodeCommand i = some w) : i.isPseudo = false := by
  cases i with
  | new | hash | add | has | clear => cases h
  | _ => rfl

/-- Stepping the words of commands runs the commands, whatever inputs stand behind the words. -/
theorem runSteps_words (is : List Instr) (s : State) (rest : List HostInput)
    (h : ∀ p : Params, ∀ c ∈ is, IsCommandOf p c) :
    runSteps (is.filterMap encodeCommand).length
        { s with host := (is.filterMap encodeCommand).map .command ++ rest } =
      runAll is { s with host := rest } := by
  induction is generalizing s with
  | nil => rfl
  | cons c is ih =>
    obtain ⟨hwf, w, hw⟩ := h s.params c List.mem_cons_self
    have hcommand := isPseudo_of_encodeCommand c w hw
    rw [List.filterMap_cons_some hw, List.length_cons, List.map_cons, List.cons_append, runSteps_succ,
      step_of_encodeCommand c s w _ hwf hw, runAll, exec_host c s _ hcommand, exec_host c s rest hcommand]
    cases exec c s with
    | next u => exact ih u fun p c hc => h p c (List.mem_cons_of_mem _ hc)
    | fault r => rfl
    | refused r => rfl

/-- Settles O43: a pseudo-command is the run of its expansion's commands, each of which its word decodes to. -/
theorem pseudoCommandIsItsWordsStepped : Obligations.PseudoCommandIsItsWordsStepped := fun i s rest hi =>
  (runSteps_words (expand i) s rest fun p => isCommandOf_expand p i hi).trans (exec_pseudo i { s with host := rest } hi).symm

end Sys2Proof.Machine
end

section
/-! The invariant (10_state.md R49): what each update of the state keeps of it, and O51, O52, O54. -/

namespace Sys2Proof.Machine

/-! ### Cells of the memory operations stay where bytes have been zeroed -/

/-- Every listed byte of `m` has been zeroed once. -/
def Memory.ListedZeroed (m : Memory) : Prop := ∀ c ∈ m.cells, c.1 < m.zeroed

/-- A write to a byte that has been zeroed lists no other kind of byte. -/
theorem Memory.ListedZeroed.write {m : Memory} (h : m.ListedZeroed) (a : Nat) (v : Byte) (ha : a < m.zeroed) :
    (m.write a v).ListedZeroed := by
  intro c hc
  rcases Memory.mem_write_cells m a v c hc with ⟨rfl, -⟩ | ⟨hold, -⟩
  · exact ha
  · exact h c hold

/-- Setting bits of bytes that have been zeroed lists no other kind of byte. -/
theorem Memory.ListedZeroed.setBits {m : Memory} (h : m.ListedZeroed) (xs : List Word)
    (hxs : ∀ x ∈ xs, byteOf x < m.zeroed) : (m.setBits xs).ListedZeroed := by
  induction xs generalizing m with
  | nil => exact h
  | cons x xs ih =>
    exact ih (h.write _ _ (hxs x List.mem_cons_self)) fun y hy => hxs y (List.mem_cons_of_mem x hy)

/-- Zeroing lists no byte. -/
theorem Memory.ListedZeroed.clearBelow {m : Memory} (h : m.ListedZeroed) (n : Nat) :
    (Memory.clearBelow n m).ListedZeroed := fun c hc =>
  Nat.lt_of_lt_of_le (h c ((Memory.mem_clearBelow_cells n m c).mp hc).1) (Nat.le_max_left _ _)

/-! ### What keeps the invariant, by the part of the state that changes -/

/-- The registers that the invariant does not speak of are free: the hash, RESULT, the queues, the counter of losses. -/
theorem StateInv.of_unspoken {s : State} (h : StateInv s) (v : HashWords) (len : Byte) (phase : HPhase) (digest : Word)
    (result : Bool) (fresh : Nat) (host : List HostInput) (rsps : List Response) :
    StateInv { s with
      v := v, len := len, hphase := phase, digest := digest, result := result, fresh := fresh, host := host
      rsps := rsps } :=
  ⟨h.paramsLegal, h.config, h.lanes, h.testVecWidth, h.errPair, h.memWf, h.memListed, h.memExtent, h.memValue⟩

theorem StateInv.respond {s : State} (h : StateInv s) (r : Response) : StateInv (s.respond r) :=
  h.of_unspoken s.v s.len s.hphase s.digest s.result s.fresh s.host (r :: s.rsps)

theorem StateInv.withHost {s : State} (h : StateInv s) (host : List HostInput) : StateInv { s with host := host } :=
  h.of_unspoken s.v s.len s.hphase s.digest s.result s.fresh host s.rsps

/-- Another memory in the form that the invariant asks for, zeroed as far. -/
theorem StateInv.withMem {s : State} (h : StateInv s) (m : Memory) (hwf : m.wf) (hlisted : m.ListedZeroed)
    (hzeroed : m.zeroed = s.mem.zeroed) : StateInv { s with mem := m } :=
  ⟨h.paramsLegal, h.config, h.lanes, h.testVecWidth, h.errPair, hwf, hlisted, hzeroed ▸ h.memExtent,
    hzeroed ▸ h.memValue⟩

/-- Other lanes whose valid ones exist and are in range (R49 (b)). -/
theorem StateInv.withLanes {s : State} (h : StateInv s) (idx : Vector Word 64) (mask : Word) (fresh : Nat)
    (hlanes : ∀ j : Lane, mask.getLsbD j.toNat = true →
      s.cfgValid = true ∧ j.toNat < s.params.kMax ∧ (idx[j.toNat]'(j.isLt)).toNat < 2 ^ s.exp.toNat) :
    StateInv { s with idx := idx, laneMask := mask, fresh := fresh } :=
  ⟨h.paramsLegal, h.config, hlanes, h.testVecWidth, h.errPair, h.memWf, h.memListed, h.memExtent, h.memValue⟩

/-- No lane of an empty mask is valid. -/
theorem getLsbD_zero_ne_true (j : Lane) {P : Prop} (h : (0#64).getLsbD j.toNat = true) : P := by
  simp at h

/-! ### Errors and resets -/

/-- The error codes are 1 to 6 (60_exceptions.md R175). -/
theorem ErrCode.toNat_code_le (e : ErrCode) : e.code.toNat ≤ 6 := by cases e <;> decide

/-- Taking an error records a code with its opcode, or leaves the pair (R49 (d)). -/
theorem StateInv.takeError {s : State} (h : StateInv s) (op : Byte) (e : ErrCode) : StateInv (s.takeError op e) := by
  refine ⟨h.paramsLegal, h.config, h.lanes, h.testVecWidth, ?_, h.memWf, h.memListed, h.memExtent, h.memValue⟩
  unfold State.takeError
  by_cases herr : s.err = 0#8
  · simp only [if_pos herr]
    exact ⟨fun h0 => absurd h0 e.code_ne_zero, e.toNat_code_le⟩
  · simp only [if_neg herr]
    exact h.errPair

/-- Nothing is configured, valid, listed or zeroed after a reset (R48). -/
theorem stateInv_resetOf (p : Params) (n : Nat) (hp : p.Legal) : StateInv (State.resetOf p n) where
  paramsLegal := hp
  config := nofun
  lanes j hj := getLsbD_zero_ne_true j hj
  testVecWidth j hj := getLsbD_zero_ne_true j hj
  errPair := ⟨fun _ => rfl, (by decide : (0#8).toNat ≤ 6)⟩
  memWf := Memory.wf_lost n
  memListed := nofun
  memExtent := Nat.zero_le _
  memValue := nofun

/-- Settles O51: the standard parameters are legal, so the machine's reset state is a case of the other. -/
theorem resetStateMeetsTheInvariant : Obligations.ResetStateMeetsTheInvariant :=
  ⟨stateInv_resetOf, stateInv_resetOf Params.standard 0 (by decide)⟩

theorem StateInv.toReset {s : State} (h : StateInv s) : StateInv s.toReset :=
  have hreset := stateInv_resetOf s.params s.fresh h.paramsLegal
  hreset.of_unspoken _ _ _ _ _ _ s.host s.rsps

/-! ### Commands that complete -/

theorem StateInv.clearError {s : State} (h : StateInv s) : StateInv s.clearError :=
  ⟨h.paramsLegal, h.config, h.lanes, h.testVecWidth, ⟨fun _ => rfl, (by decide : (0#8).toNat ≤ 6)⟩, h.memWf,
    h.memListed, h.memExtent, h.memValue⟩

/-- A legal CFG zeroes an array that fits in the memory (44_system_ops.md R152). -/
theorem StateInv.configure {s : State} (h : StateInv s) (e : BitVec 6) (n : BitVec 7)
    (hlegal : configLegal s.params e n = true) : StateInv (s.configure e n) := by
  have hbounds := (configLegal_iff s.params e n).mp hlegal
  have ⟨_, heMax, _⟩ := hbounds
  have hfits : 2 ^ e.toNat / 8 ≤ 2 ^ s.params.expMax / 8 :=
    Nat.div_le_div_right (Nat.pow_le_pow_right (by decide) heMax)
  exact
    { paramsLegal := h.paramsLegal
      config := fun _ => hbounds
      lanes := fun j hj => getLsbD_zero_ne_true j hj
      testVecWidth := fun j hj => getLsbD_zero_ne_true j hj
      errPair := h.errPair
      memWf := Memory.wf_clearBelow _ _ h.memWf
      memListed := Memory.ListedZeroed.clearBelow h.memListed _
      memExtent := Nat.max_le.mpr ⟨h.memExtent, hfits⟩
      memValue := fun _ => Nat.le_max_right _ _ }

theorem StateInv.dropLanes {s : State} (h : StateInv s) : StateInv s.dropLanes :=
  h.withLanes _ _ _ fun j hj => getLsbD_zero_ne_true j hj

/-- P_GEN's lanes hold probes, which are in range (42_probe_engine.md R128). -/
theorem StateInv.genLanes {s : State} (h : StateInv s) (hc : s.cfgValid = true) : StateInv s.genLanes := by
  refine h.withLanes _ _ _ fun j hj => ?_
  have hvalid := getLsbD_genLanes s j
  rw [show s.genLanes.laneMask.getLsbD j.toNat = true from hj] at hvalid
  have hlane := (laneValid_genLanes_iff s j).mp ((laneValid_genLanes s j).trans hvalid.symm)
  refine ⟨hc, hlane.1, ?_⟩
  have hprobe : s.genLanes.idxAt j = s.probeAt j := idxAt_genLanes_of_mask s j hj
  exact (congrArg BitVec.toNat hprobe).trans_lt (probe_lt _ _ _ _)

/-- IDX_WR's checks are what R49 (b) asks of the lane it writes (41_bitset_port.md R111). -/
theorem StateInv.writeLane {s : State} (h : StateInv s) (j : Lane) (x : Word) (hc : s.cfgValid = true)
    (hj : j.toNat < s.params.kMax) (hx : x.toNat < 2 ^ s.exp.toNat) : StateInv (s.writeLane j x) := by
  refine h.withLanes _ _ s.fresh fun l hl => ?_
  have hmask := getLsbD_writeLane s j l x
  have hidx : (s.writeLane j x).idxAt l = _ := idxAt_writeLane s j l x
  rw [show (s.writeLane j x).laneMask.getLsbD l.toNat = true from hl] at hmask
  show s.cfgValid = true ∧ l.toNat < s.params.kMax ∧ ((s.writeLane j x).idxAt l).toNat < 2 ^ s.exp.toNat
  rw [hidx]
  by_cases hjl : j = l
  · subst hjl
    rw [if_pos rfl]
    exact ⟨hc, hj, hx⟩
  · rw [if_neg hjl]
    exact h.lanes l (by simpa [Ne.symm hjl] using hmask.symm)

/-- The invariant keeps valid lanes in range (R49 (b)). -/
theorem StateInv.lanesInRange {s : State} (h : StateInv s) : s.lanesInRange = true := by
  rw [lanesInRange_iff]
  intro j hj
  obtain ⟨-, hmask⟩ := (laneValid_iff s j).mp hj
  obtain ⟨-, -, hidx⟩ := h.lanes j hmask
  exact hidx

/-- A byte of the array has been zeroed. -/
theorem StateInv.lt_zeroed {s : State} (h : StateInv s) (hc : s.cfgValid = true) {a : Nat}
    (ha : a < s.byteCount) : a < s.mem.zeroed :=
  Nat.lt_of_lt_of_le ha (h.memValue hc)

/-- An array of a legal EXP has whole bytes (10_state.md R44). -/
theorem eight_mul_byteCount (n : Nat) (h : 9 ≤ n) : 8 * (2 ^ n / 8) = 2 ^ n :=
  Nat.mul_div_cancel' (Nat.pow_dvd_pow 2 (by omega : 3 ≤ n))

/-- The byte of an index below BITCOUNT is a byte of the array (41_bitset_port.md R114). -/
theorem div_eight_lt_byteCount (s : State) (h : 9 ≤ s.exp.toNat) (n : Nat) (hn : n < 2 ^ s.exp.toNat) :
    n / 8 < s.byteCount := by
  have hbytes := eight_mul_byteCount s.exp.toNat h
  rw [State.byteCount, State.bitCount]
  omega

/-- With a filter an index below BITCOUNT lies in the array (41_bitset_port.md R114). -/
theorem StateInv.byteOf_lt {s : State} (h : StateInv s) (hc : s.cfgValid = true) (x : Word)
    (hx : x.toNat < 2 ^ s.exp.toNat) : byteOf x < s.byteCount := by
  obtain ⟨hexp, -⟩ := h.config hc
  rw [byteOf_eq]
  exact div_eight_lt_byteCount s hexp x.toNat hx

/-- Setting the valid lanes' bits stays in the array (R115). -/
theorem StateInv.setLanes {s : State} (h : StateInv s) (hc : s.cfgValid = true) : StateInv s.setLanes := by
  refine h.withMem _ (Memory.wf_setBits _ _ h.memWf) (Memory.ListedZeroed.setBits h.memListed _ fun x hx => ?_)
    (Memory.setBits_zeroed _ _)
  obtain ⟨j, hj, rfl⟩ := List.mem_map.mp hx
  have hrange := (lanesInRange_iff s).mp h.lanesInRange j ((mem_validLanes s j).mp hj)
  exact h.lt_zeroed hc (h.byteOf_lt hc _ hrange)

/-- A test records bits of valid lanes only (R116). -/
theorem StateInv.recordTest {s : State} (h : StateInv s) : StateInv s.recordTest := by
  refine ⟨h.paramsLegal, h.config, h.lanes, fun j hj => ?_, h.errPair, h.memWf, h.memListed, h.memExtent, h.memValue⟩
  have hbit := (getLsbD_testedBits s j).symm.trans hj
  rw [Bool.and_eq_true, laneValid_iff] at hbit
  exact hbit.1.1

/-- B_CLEAR zeroes what has been zeroed once (R117). -/
theorem StateInv.clearArray {s : State} (h : StateInv s) (hc : s.cfgValid = true) : StateInv s.clearArray :=
  h.withMem _ (Memory.wf_clearBelow _ _ h.memWf) (Memory.ListedZeroed.clearBelow h.memListed _)
    (Nat.max_eq_left (h.memValue hc))

/-- M_WR writes a byte of the array (R122). -/
theorem StateInv.writeByte {s : State} (h : StateInv s) (hc : s.cfgValid = true) (a : Nat) (v : Byte)
    (ha : a < s.byteCount) : StateInv { s with mem := s.mem.write a v } :=
  h.withMem _ (Memory.wf_write _ _ _ h.memWf) (Memory.ListedZeroed.write h.memListed _ _ (h.lt_zeroed hc ha)) rfl

/-- A command that completes keeps the invariant. -/
theorem Effect.stateInv {i : Instr} {s u : State} {d : Word} (heffect : Effect i s u d) (h : StateInv s) : StateInv u := by
  cases heffect with
  | nop | csrRd | mRd => exact h
  | reset => exact h.toReset
  | cfg _ e n hlegal => exact h.configure e n hlegal
  | errClr => exact h.clearError
  | hInit | hAbsorb | hFinal => exact h.of_unspoken _ _ _ _ s.result _ s.host s.rsps
  | pGen _ hc => exact h.genLanes hc
  | idxWr _ j x hj hc hx => exact h.writeLane j x hc hj hx
  | idxClr => exact h.dropLanes
  | bSet _ hc => exact h.setLanes hc
  | bTest => exact h.recordTest
  | bClear _ hc => exact h.clearArray hc
  | mWr _ a v hc ha => exact h.writeByte hc a.toNat v ha
  | fAdd _ hc => exact (h.genLanes hc).setLanes hc
  | fHas _ hc => exact (h.genLanes hc).recordTest

/-- Settles O52: whatever a step leaves, a command's effect, a reset or an error, keeps the invariant. -/
theorem everyStepKeepsTheInvariant : Obligations.EveryStepKeepsTheInvariant := by
  intro s t h ht
  rcases step_next_cases s t ht with rfl | ⟨rest, u, rfl, rfl | ⟨i, v, d, heffect, rfl⟩ | ⟨op, e, rfl⟩⟩
  · exact h
  · exact (h.withHost rest).toReset
  · exact (heffect.stateInv (h.withHost rest)).respond _
  · exact (h.withHost rest).takeError op e

/-! ### Progress (R27, R56) -/

/-- No command meets the source's undefined index from a state of the invariant (20_memory.md R56). -/
theorem exists_exec_next (i : Instr) (s : State) (hi : i.isPseudo = false) (h : StateInv s) :
    ∃ t : State, exec i s = .next t := by
  rcases exec_command i s hi with ⟨e, he⟩ | ⟨u, d, -, hu⟩ | ⟨-, hl⟩
  · exact ⟨_, he⟩
  · exact ⟨_, hu⟩
  · rw [h.lanesInRange] at hl
    cases hl

/-- Settles O54: with no input the step idles, a reset completes, and a word is a command that completes or faults. -/
theorem everyContractInputCompletes : Obligations.EveryContractInputCompletes := by
  intro s h hcontract
  cases hs : s.host with
  | nil => exact ⟨_, step_of_no_input s hs⟩
  | cons x rest =>
    have hx : x.inContract = true := hcontract x (hs ▸ List.mem_cons_self)
    cases x with
    | reset => exact ⟨_, step_of_reset s _ rest 0#80 (.inl rfl) hs⟩
    | resetDuring w => exact ⟨_, step_of_reset s _ rest w (.inr rfl) hs⟩
    | secondCommand w => cases hx
    | foreignWrite a v => cases hx
    | command w =>
      rcases step_command_cases s w rest hs with ⟨i, hi, hstep⟩ | hw
      · rw [hstep]
        exact exists_exec_next i _ (decode_isPseudo s.params w i hi) (h.withHost rest)
      · obtain ⟨t, ht, -⟩ := step_of_no_decode s w rest hs hw
        exact ⟨t, ht⟩

end Sys2Proof.Machine
end

section
/-! Registers without a value (10_state.md R47): what two states that show alike have in common after each update, and O55. -/

namespace Sys2Proof.Machine

/-! ### Updates keep states alike -/

theorem SameShown.respond {s t : State} (h : SameShown s t) (r : Response) : SameShown (s.respond r) (t.respond r) :=
  ⟨h.params, h.hphase, h.cfgValid, h.laneMask, h.testVec, h.result, h.err, h.errop, h.host, congrArg (r :: ·) h.rsps,
    h.words, h.digest, h.config, h.array, h.indices⟩

theorem SameShown.withHost {s t : State} (h : SameShown s t) (host : List HostInput) :
    SameShown { s with host := host } { t with host := host } :=
  ⟨h.params, h.hphase, h.cfgValid, h.laneMask, h.testVec, h.result, h.err, h.errop, rfl, h.rsps, h.words, h.digest,
    h.config, h.array, h.indices⟩

/-- The error pair is shown, so the same error leaves it alike (60_exceptions.md R182). -/
theorem SameShown.takeError {s t : State} (h : SameShown s t) (op : Byte) (e : ErrCode) :
    SameShown (s.takeError op e) (t.takeError op e) := by
  refine ⟨h.params, h.hphase, h.cfgValid, h.laneMask, h.testVec, h.result, ?_, ?_, h.host, congrArg (_ :: ·) h.rsps,
    h.words, h.digest, h.config, h.array, h.indices⟩
  · simp only [State.takeError, h.err]
  · simp only [State.takeError, h.err, h.errop]

/-- After a reset only the registers with a reset value have a value (R48). -/
theorem SameShown.toReset {s t : State} (h : SameShown s t) : SameShown s.toReset t.toReset :=
  ⟨h.params, rfl, rfl, rfl, rfl, rfl, rfl, rfl, h.host, h.rsps, fun hp => absurd rfl hp, nofun, nofun, nofun,
    fun j hj => getLsbD_zero_ne_true j hj⟩

theorem SameShown.clearError {s t : State} (h : SameShown s t) : SameShown s.clearError t.clearError :=
  ⟨h.params, h.hphase, h.cfgValid, h.laneMask, h.testVec, h.result, rfl, rfl, h.host, h.rsps, h.words, h.digest,
    h.config, h.array, h.indices⟩

/-- Another array, alike where the filter makes it accessible. -/
theorem SameShown.withMem {s t : State} (h : SameShown s t) (m m' : Memory)
    (harray : s.cfgValid = true → ∀ a : Nat, a < 2 ^ s.exp.toNat / 8 → m'.read a = m.read a) :
    SameShown { s with mem := m } { t with mem := m' } :=
  ⟨h.params, h.hphase, h.cfgValid, h.laneMask, h.testVec, h.result, h.err, h.errop, h.host, h.rsps, h.words, h.digest,
    h.config, harray, h.indices⟩

/-- Other lanes, the same ones valid and those alike. -/
theorem SameShown.withLanes {s t : State} (h : SameShown s t) (idx idx' : Vector Word 64) (mask mask' : Word)
    (fresh fresh' : Nat) (hmask : mask' = mask)
    (hidx : ∀ j : Lane, mask.getLsbD j.toNat = true → idx'[j.toNat]'(j.isLt) = idx[j.toNat]'(j.isLt)) :
    SameShown { s with idx := idx, laneMask := mask, fresh := fresh }
      { t with idx := idx', laneMask := mask', fresh := fresh' } :=
  ⟨h.params, h.hphase, h.cfgValid, hmask, h.testVec, h.result, h.err, h.errop, h.host, h.rsps, h.words, h.digest,
    h.config, h.array, hidx⟩

/-- Another phase of the hash, alike in what has a value in it (R47). -/
theorem SameShown.withHash {s t : State} (h : SameShown s t) (v v' : HashWords) (len len' : Byte) (phase : HPhase)
    (digest digest' : Word) (fresh fresh' : Nat) (hwords : v' = v ∧ len' = len)
    (hdigest : phase = .done → digest' = digest) :
    SameShown { s with v := v, len := len, hphase := phase, digest := digest, fresh := fresh }
      { t with v := v', len := len', hphase := phase, digest := digest', fresh := fresh' } :=
  ⟨h.params, rfl, h.cfgValid, h.laneMask, h.testVec, h.result, h.err, h.errop, h.host, h.rsps, fun _ => hwords, hdigest,
    h.config, h.array, h.indices⟩

theorem SameShown.dropLanes {s t : State} (h : SameShown s t) : SameShown s.dropLanes t.dropLanes :=
  h.withLanes _ _ _ _ _ _ rfl fun j hj => getLsbD_zero_ne_true j hj

/-- A new filter has the configuration it is given and a zeroed array (44_system_ops.md R152). -/
theorem SameShown.configure {s t : State} (h : SameShown s t) (e : BitVec 6) (n : BitVec 7) :
    SameShown (s.configure e n) (t.configure e n) := by
  refine ⟨h.params, h.hphase, rfl, rfl, rfl, rfl, h.err, h.errop, h.host, h.rsps, h.words, h.digest, fun _ => ⟨rfl, rfl⟩,
    fun _ a ha => ?_, fun j hj => getLsbD_zero_ne_true j hj⟩
  rw [State.configure_mem, State.configure_mem, Memory.read_clearBelow, Memory.read_clearBelow, if_pos, if_pos] <;> exact ha

theorem SameShown.hashInit {s t : State} (h : SameShown s t) : SameShown s.hashInit t.hashInit :=
  h.withHash _ _ _ _ .absorb _ _ _ _ ⟨congrArg initialWords h.params, rfl⟩ nofun

/-- In phase ABSORB the words and LEN have a value (R47). -/
theorem SameShown.hashAbsorb {s t : State} (h : SameShown s t) (hp : s.hphase = .absorb) (m : Word) :
    SameShown (s.hashAbsorb m) (t.hashAbsorb m) := by
  obtain ⟨hv, hlen⟩ := h.words (by rw [hp]; nofun)
  refine ⟨h.params, h.hphase, h.cfgValid, h.laneMask, h.testVec, h.result, h.err, h.errop, h.host, h.rsps, fun _ => ?_,
    h.digest, h.config, h.array, h.indices⟩
  simp only [State.hashAbsorb, h.params, hv, hlen, and_self]

/-- In phase ABSORB the digest is made of registers that have a value (R47). -/
theorem SameShown.hashFinal {s t : State} (h : SameShown s t) (hp : s.hphase = .absorb) (n : BitVec 3) (d : Word) :
    (t.hashFinal n d).digest = (s.hashFinal n d).digest ∧ SameShown (s.hashFinal n d) (t.hashFinal n d) := by
  obtain ⟨hv, hlen⟩ := h.words (by rw [hp]; nofun)
  have hdigest : (t.hashFinal n d).digest = (s.hashFinal n d).digest := by
    simp only [State.hashFinal, h.params, hv, hlen]
  refine ⟨hdigest, h.withHash _ _ _ _ .done _ _ s.fresh t.fresh ?_ fun _ => hdigest⟩
  simp only [h.params, hv, hlen, and_self]

/-! ### Lanes and the array -/

/-- The same lanes are valid. -/
theorem SameShown.laneValid_eq {s t : State} (h : SameShown s t) (j : Lane) : t.laneValid j = s.laneValid j := by
  rw [State.laneValid, State.laneValid, h.params, h.laneMask]

/-- The valid lanes hold the same indices. -/
theorem SameShown.idxAt_eq {s t : State} (h : SameShown s t) (j : Lane) (hj : s.laneValid j = true) : t.idxAt j = s.idxAt j :=
  h.indices j ((laneValid_iff s j).mp hj).2

/-- With a filter and a digest the probes are the same (42_probe_engine.md R129). -/
theorem SameShown.genLanes {s t : State} (h : SameShown s t) (hc : s.cfgValid = true) (hp : s.hphase = .done) :
    SameShown s.genLanes t.genLanes := by
  obtain ⟨hexp, hk⟩ := h.config hc
  have hmask : t.genLanes.laneMask = s.genLanes.laneMask :=
    mask_ext _ _ fun j => by rw [getLsbD_genLanes, getLsbD_genLanes, h.params, hk]
  refine h.withLanes _ _ _ _ _ _ hmask fun j hj => ?_
  show t.genLanes.idxAt j = s.genLanes.idxAt j
  rw [idxAt_genLanes_of_mask s j hj, idxAt_genLanes_of_mask t j (hmask ▸ hj), State.probeAt, State.probeAt, hexp,
    h.digest hp]

theorem SameShown.writeLane {s t : State} (h : SameShown s t) (j : Lane) (x : Word) :
    SameShown (s.writeLane j x) (t.writeLane j x) := by
  refine h.withLanes _ _ _ _ s.fresh t.fresh (congrArg (· ||| _) h.laneMask) fun l hl => ?_
  show (t.writeLane j x).idxAt l = (s.writeLane j x).idxAt l
  rw [idxAt_writeLane, idxAt_writeLane]
  by_cases hjl : j = l
  · rw [if_pos hjl, if_pos hjl]
  · have hold := (getLsbD_writeLane s j l x).symm.trans hl
    rw [if_neg hjl, if_neg hjl, h.indices l (by simpa [Ne.symm hjl] using hold)]

/-- The same bits are set in arrays that are alike (41_bitset_port.md R115). -/
theorem SameShown.setLanes {s t : State} (h : SameShown s t) : SameShown s.setLanes t.setLanes := by
  refine h.withMem _ _ fun hc a ha => byte_ext _ _ fun i hi => ?_
  rw [Bool.eq_iff_iff]
  refine (getLsbD_read_setLanes t a i hi).trans (Iff.trans ?_ (getLsbD_read_setLanes s a i hi).symm)
  rw [h.array hc a ha]
  refine or_congr_right (exists_congr fun j => ?_)
  rw [h.laneValid_eq]
  exact and_congr_right fun hj => by rw [h.idxAt_eq j hj]

/-- The valid lanes, which are in range, test the same bits (41_bitset_port.md R116). -/
theorem SameShown.laneBit_eq {s t : State} (h : SameShown s t) (hs : StateInv s) (hc : s.cfgValid = true) (j : Lane)
    (hj : s.laneValid j = true) : t.laneBit j = s.laneBit j := by
  have hrange := (lanesInRange_iff s).mp hs.lanesInRange j hj
  rw [State.laneBit, State.laneBit, h.idxAt_eq j hj, Memory.bit, Memory.bit, h.array hc _ (hs.byteOf_lt hc _ hrange)]

/-- A test finds the same in arrays that are alike (R116). -/
theorem SameShown.testedAll_eq {s t : State} (h : SameShown s t) (hs : StateInv s) (hc : s.cfgValid = true) :
    t.testedAll = s.testedAll := by
  rw [Bool.eq_iff_iff, testedAll_iff, testedAll_iff]
  refine forall_congr' fun j => ?_
  rw [h.laneValid_eq]
  exact forall_congr' fun hj => by rw [h.laneBit_eq hs hc j hj]

/-- A test records the same bits from arrays that are alike (R116). -/
theorem SameShown.testedBits_eq {s t : State} (h : SameShown s t) (hs : StateInv s) (hc : s.cfgValid = true) :
    t.testedBits = s.testedBits := by
  refine mask_ext _ _ fun j => ?_
  rw [getLsbD_testedBits, getLsbD_testedBits, h.laneValid_eq]
  cases hj : s.laneValid j
  · rfl
  · rw [h.laneBit_eq hs hc j hj]

theorem SameShown.recordTest {s t : State} (h : SameShown s t) (hs : StateInv s) (hc : s.cfgValid = true) :
    SameShown s.recordTest t.recordTest :=
  ⟨h.params, h.hphase, h.cfgValid, h.laneMask, h.testedBits_eq hs hc, h.testedAll_eq hs hc, h.err, h.errop, h.host, h.rsps,
    h.words, h.digest, h.config, h.array, h.indices⟩

/-- The array has the same size (10_state.md R34). -/
theorem SameShown.byteCount_eq {s t : State} (h : SameShown s t) (hc : s.cfgValid = true) : t.byteCount = s.byteCount := by
  rw [State.byteCount, State.byteCount, State.bitCount, State.bitCount, (h.config hc).1]

theorem SameShown.clearArray {s t : State} (h : SameShown s t) : SameShown s.clearArray t.clearArray := by
  refine h.withMem _ _ fun hc a ha => ?_
  rw [Memory.read_clearBelow, Memory.read_clearBelow, h.byteCount_eq hc, if_pos, if_pos] <;> exact ha

theorem SameShown.writeByte {s t : State} (h : SameShown s t) (a : Nat) (v : Byte) :
    SameShown { s with mem := s.mem.write a v } { t with mem := t.mem.write a v } := by
  refine h.withMem _ _ fun hc b hb => ?_
  rw [Memory.read_write, Memory.read_write, h.array hc b hb]

/-! ### Commands make the same checks -/

/-- A command's `Protocol` cause is shown (60_exceptions.md R177). -/
theorem SameShown.outOfOrder_eq {s t : State} (h : SameShown s t) (i : Instr) : outOfOrder t i = outOfOrder s i := by
  have hcsr : ∀ c : Csr, csrOutOfOrder t c = csrOutOfOrder s c := fun c => by
    cases c <;> simp only [csrOutOfOrder, h.hphase, h.laneMask]
  cases i <;> simp only [outOfOrder, hcsr, h.hphase]

/-- A command's value check compares with the configuration, which has a value where the command needs it (R175). -/
theorem SameShown.valueError_eq {s t : State} (h : SameShown s t) (i : Instr)
    (hc : needsFilter i = false ∨ s.cfgValid = true) : valueError t i = valueError s i := by
  have hexp : needsFilter i = true → t.exp = s.exp := fun hn => (h.config (hc.resolve_left (by simp [hn]))).1
  cases i with
  | idxWr j x => simp only [valueError, hexp rfl]
  | mRd a => simp only [valueError, hexp rfl]
  | mWr a v => simp only [valueError, hexp rfl]
  | _ => simp only [valueError, h.params]

/-- The same check fails first (R181). -/
theorem SameShown.firstError_eq {s t : State} (h : SameShown s t) (i : Instr) : firstError i t = firstError i s := by
  unfold firstError
  rw [h.params, h.cfgValid, h.outOfOrder_eq]
  cases hn : needsFilter i && !s.cfgValid
  · rw [h.valueError_eq i (by simpa [or_comm, imp_iff_not_or] using hn)]
  · rfl

/-- Different errors have different codes (60_exceptions.md R175). -/
theorem ErrCode.code_injective : Function.Injective ErrCode.code := by
  intro e e' h
  revert h
  cases e <;> cases e' <;> decide

/-- A command of the invariant takes the error of its first failing check, or completes with its effect (R181). -/
theorem exec_faults_or_completes (i : Instr) (s : State) (hi : i.isPseudo = false) (h : StateInv s) :
    (∃ e : ErrCode, firstError i s = e.code ∧ exec i s = .next (s.takeError i.opcode e)) ∨
    (firstError i s = 0#8 ∧ ∃ (u : State) (d : Word), Effect i s u d ∧ exec i s = .next (u.respond ⟨0#8, d⟩)) := by
  cases exec_inOrder i s hi h.lanesInRange with
  | faults e hcode ho => exact .inl ⟨e, hcode, ho⟩
  | completes v d hcode hrsps ho =>
    refine .inr ⟨hcode, ?_⟩
    rcases exec_command i s hi with ⟨e, he⟩ | heffect | ⟨hfault, -⟩
    · have hrsps := congrArg State.rsps (Host.Outcome.next.inj (ho.symm.trans he))
      exact absurd (congrArg Response.err (List.cons.inj hrsps).1).symm e.code_ne_zero
    · exact heffect
    · cases ho.symm.trans hfault

/-! ### Commands answer the same -/

/-- A command whose checks all pass has the filter it needs and no `Protocol` cause (R181). -/
theorem checks_of_firstError_eq_zero (i : Instr) (s : State) (h : firstError i s = 0#8) :
    (needsFilter i = true → s.cfgValid = true) ∧ outOfOrder s i = false := by
  unfold firstError at h
  split at h
  · cases h
  split at h
  · cases h
  next hfilter =>
  split at h
  · cases h
  next horder =>
  refine ⟨fun hn => ?_, Bool.eq_false_iff.mpr horder⟩
  rw [hn, Bool.true_and, Bool.not_eq_true', Bool.not_eq_false] at hfilter
  exact hfilter

/-- CSR_RD answers the same: past its checks the register has a value (10_state.md R31 to R43, R47). -/
theorem SameShown.csrValue_eq {s t : State} (h : SameShown s t) (c : Csr) (hok : firstError (.csrRd c) s = 0#8) :
    t.csrValue c = s.csrValue c := by
  obtain ⟨hfilter, hvalue⟩ := checks_of_firstError_eq_zero _ s hok
  have hdone : decide (s.hphase ≠ .done) = false → t.digest = s.digest := fun hp =>
    h.digest (not_not.mp (of_decide_eq_false hp))
  have hhash : decide (s.hphase = .idle) = false → t.v = s.v ∧ t.len = s.len := fun hp => h.words (of_decide_eq_false hp)
  cases c with
  | status => simp only [State.csrValue, State.statusWord, h.cfgValid, h.hphase, h.result, h.err, h.errop]
  | exp | bitCount | shift => simp only [State.csrValue, (h.config (hfilter rfl)).1]
  | k => simp only [State.csrValue, (h.config (hfilter rfl)).2]
  | digest => exact hdone hvalue
  | low | high => simp only [State.csrValue, (h.config (hfilter rfl)).1, hdone hvalue]
  | laneMask => simp only [State.csrValue, h.laneMask, h.params]
  | testVec => simp only [State.csrValue, h.testVec, h.params]
  | params => simp only [State.csrValue, h.params]
  | len => simp only [State.csrValue, (hhash hvalue).2]
  | v0 | v1 | v2 | v3 => simp only [State.csrValue, (hhash hvalue).1]
  | idx j => exact h.indices j (by simpa [outOfOrder, csrOutOfOrder] using hvalue)

/-- A command that completes in two states that show alike answers the same, and leaves states that show alike. -/
theorem Effect.sameShown {i : Instr} {s t u u' : State} {d d' : Word} (heffect : Effect i s u d) (heffect' : Effect i t u' d')
    (h : SameShown s t) (hs : StateInv s) (hok : firstError i s = 0#8) : d' = d ∧ SameShown u u' := by
  cases heffect with
  | nop => cases heffect'; exact ⟨rfl, h⟩
  | reset => cases heffect'; exact ⟨rfl, h.toReset⟩
  | cfg _ e n => cases heffect'; exact ⟨rfl, h.configure e n⟩
  | csrRd _ c => cases heffect'; exact ⟨h.csrValue_eq c hok, h⟩
  | errClr => cases heffect'; exact ⟨rfl, h.clearError⟩
  | hInit => cases heffect'; exact ⟨rfl, h.hashInit⟩
  | hAbsorb _ m hp => cases heffect'; exact ⟨rfl, h.hashAbsorb hp m⟩
  | hFinal _ n tail hp => cases heffect'; exact h.hashFinal hp n tail
  | pGen _ hc hp => cases heffect'; exact ⟨rfl, h.genLanes hc hp⟩
  | idxWr _ j x => cases heffect'; exact ⟨rfl, h.writeLane j x⟩
  | idxClr => cases heffect'; exact ⟨rfl, h.dropLanes⟩
  | bSet => cases heffect'; exact ⟨rfl, h.setLanes⟩
  | bTest _ hc => cases heffect'; exact ⟨congrArg resultData (h.testedAll_eq hs hc), h.recordTest hs hc⟩
  | bClear => cases heffect'; exact ⟨rfl, h.clearArray⟩
  | mRd _ a hc ha => cases heffect'; exact ⟨congrArg _ (h.array hc _ ha), h⟩
  | mWr _ a v => cases heffect'; exact ⟨rfl, h.writeByte a.toNat v⟩
  | fAdd _ hc hp => cases heffect'; exact ⟨rfl, (h.genLanes hc hp).setLanes⟩
  | fHas _ hc hp =>
    cases heffect'
    have hgen := h.genLanes hc hp
    have hinv := hs.genLanes hc
    exact ⟨congrArg resultData (hgen.testedAll_eq hinv hc), hgen.recordTest hinv hc⟩

/-- A command in two states that show alike: the same error, or effects that are alike. -/
theorem exec_sameOutcome (i : Instr) (s t : State) (hi : i.isPseudo = false) (hs : StateInv s) (ht : StateInv t)
    (h : SameShown s t) : SameOutcome (exec i s) (exec i t) := by
  have hcode := h.firstError_eq i
  rcases exec_faults_or_completes i s hi hs with ⟨e, he, ho⟩ | ⟨hok, u, d, heffect, ho⟩ <;>
    rcases exec_faults_or_completes i t hi ht with ⟨e', he', ho'⟩ | ⟨hok', u', d', heffect', ho'⟩
  · have hsame : e' = e := ErrCode.code_injective (he'.symm.trans (hcode.trans he))
    rw [ho, ho', hsame]
    exact h.takeError i.opcode e
  · exact absurd ((hcode.symm.trans hok').symm.trans he).symm e.code_ne_zero
  · exact absurd (he'.symm.trans (hcode.trans hok)) e'.code_ne_zero
  · obtain ⟨rfl, hshown⟩ := heffect.sameShown heffect' h hs hok
    rw [ho, ho']
    exact hshown.respond _

/-- A command word in two states that show alike decodes to the same command, or is no command in both. -/
theorem runCommand_sameOutcome (w : Cmd) (s t : State) (hs : StateInv s) (ht : StateInv t) (h : SameShown s t) :
    SameOutcome (runCommand w s) (runCommand w t) := by
  unfold runCommand
  rw [h.params]
  cases hw : decode s.params w with
  | ok i => exact exec_sameOutcome i s t (decode_isPseudo s.params w i hw) hs ht h
  | error e => exact h.takeError (cmdOp w) .illegalCommand

/-- Settles O55: the stream is shown, so both states take the same input, and a command's checks and effect use only what has a
value. -/
theorem valuelessRegistersAreNeverObserved : Obligations.ValuelessRegistersAreNeverObserved := by
  intro s t hs ht h
  cases hhost : s.host with
  | nil =>
    rw [step_of_no_input s hhost, step_of_no_input t (h.host.trans hhost)]
    exact h
  | cons x rest =>
    have hhost' := h.host.trans hhost
    have hrest := h.withHost rest
    cases x with
    | command w =>
      rw [step_of_command s w rest hhost, step_of_command t w rest hhost']
      exact runCommand_sameOutcome w _ _ (hs.withHost rest) (ht.withHost rest) hrest
    | reset =>
      rw [step_of_reset s _ rest 0#80 (.inl rfl) hhost, step_of_reset t _ rest 0#80 (.inl rfl) hhost']
      exact hrest.toReset
    | resetDuring w =>
      rw [step_of_reset s _ rest w (.inr rfl) hhost, step_of_reset t _ rest w (.inr rfl) hhost']
      exact hrest.toReset
    | secondCommand w =>
      rw [step_of_secondCommand s w rest hhost, step_of_secondCommand t w rest hhost']
      rfl
    | foreignWrite a v =>
      rw [step_of_foreignWrite s a v rest hhost, step_of_foreignWrite t a v rest hhost']
      rfl

end Sys2Proof.Machine
end

section
/-! A message as words (20_memory.md R50, R51): its blocks and its tail word, byte by byte, and O6. -/

namespace Sys2Proof.Machine

/-! ### Bytes of a joined word -/

/-- Byte `j` of the word that joins up to eight bytes is byte `j` of the list. -/
theorem extractLsb'_le64 (bs : List Byte) (j : Nat) (hj : j < 8) :
    (le64 bs).extractLsb' (8 * j) 8 = bs.getD j 0#8 := by
  refine byte_ext _ _ fun i hi => ?_
  have hdiv : (8 * j + i) / 8 = j := by omega
  have hmod : (8 * j + i) % 8 = i := by omega
  rw [BitVec.getLsbD_extractLsb', getLsbD_le64 bs (8 * j + i) (by omega), hdiv, hmod]
  simp [hi]

/-! ### The blocks -/

/-- Byte `j` of block `b` is byte `8b + j` of the message. -/
theorem extractLsb'_messageBlocks (m : List Byte) (b j : Nat) (hb : b < m.length / 8) (hj : j < 8) :
    ((messageBlocks m).getD b 0#64).extractLsb' (8 * j) 8 = m.getD (8 * b + j) 0#8 := by
  induction m using messageBlocks.induct generalizing b with
  | case1 b0 b1 b2 b3 b4 b5 b6 b7 rest ih =>
    cases b with
    | zero =>
      have hfirst : (b0 :: b1 :: b2 :: b3 :: b4 :: b5 :: b6 :: b7 :: rest).getD j 0#8 =
          [b0, b1, b2, b3, b4, b5, b6, b7].getD j 0#8 :=
        List.getD_append [b0, b1, b2, b3, b4, b5, b6, b7] rest _ _ hj
      rw [messageBlocks, List.getD_cons_zero, extractLsb'_le64 _ j hj, Nat.mul_zero, Nat.zero_add, hfirst]
    | succ b =>
      rw [messageBlocks, List.getD_cons_succ, ih b (by simp only [List.length_cons] at hb; omega),
        show 8 * (b + 1) + j = 8 * b + j + 8 by omega]
      rfl
  | case2 m hshort =>
    rw [← messageBlocks_length, messageBlocks.eq_2 m hshort] at hb
    cases hb

/-! ### The tail word -/

/-- The trailing bytes are what the full blocks leave. -/
theorem trailingBytes_eq_drop (m : List Byte) : trailingBytes m = m.drop (8 * (m.length / 8)) := by
  induction m using trailingBytes.induct with
  | case1 b0 b1 b2 b3 b4 b5 b6 b7 rest ih =>
    have hlen : (b0 :: b1 :: b2 :: b3 :: b4 :: b5 :: b6 :: b7 :: rest).length / 8 = rest.length / 8 + 1 := by
      simp only [List.length_cons]
      omega
    rw [trailingBytes, ih, hlen]
    rfl
  | case2 m hshort =>
    have hlen := trailingBytes_length m
    rw [trailingBytes.eq_2 m hshort] at hlen
    rw [trailingBytes.eq_2 m hshort, show 8 * (m.length / 8) = 0 by omega, List.drop_zero]

/-- Below its top byte the tail word is the tail operand. -/
theorem getLsbD_tailWord_low (m : List Byte) (i : Nat) (hi : i < 56) :
    (tailWord m).getLsbD i = (tailOperand m).getLsbD i := by
  rw [tailWord, BitVec.getLsbD_or, BitVec.getLsbD_shiftLeft]
  simp [hi]

/-- The tail operand is zero above the trailing bytes. -/
theorem getLsbD_tailOperand_high (m : List Byte) (i : Nat) (hi : 8 * (m.length % 8) ≤ i) (h64 : i < 64) :
    (tailOperand m).getLsbD i = false := by
  have hlen : (trailingBytes m).length ≤ i / 8 := by
    rw [trailingBytes_length]
    omega
  rw [tailOperand, getLsbD_le64 _ i h64, List.getD_eq_default _ _ hlen, BitVec.getLsbD_zero]

/-- Byte `j` of the tail word is the message's byte behind its full blocks. -/
theorem extractLsb'_tailWord (m : List Byte) (j : Nat) (hj : j < m.length % 8) :
    (tailWord m).extractLsb' (8 * j) 8 = m.getD (8 * (m.length / 8) + j) 0#8 := by
  have hlow : (tailWord m).extractLsb' (8 * j) 8 = (tailOperand m).extractLsb' (8 * j) 8 := by
    refine byte_ext _ _ fun i hi => ?_
    rw [BitVec.getLsbD_extractLsb', BitVec.getLsbD_extractLsb', getLsbD_tailWord_low m _ (by omega)]
  rw [hlow, tailOperand, extractLsb'_le64 _ j (by omega), trailingBytes_eq_drop]
  simp only [List.getD_eq_getElem?_getD, List.getElem?_drop]

/-- The top byte of the tail word is the length modulo 256. -/
theorem extractLsb'_tailWord_top (m : List Byte) : (tailWord m).extractLsb' 56 8 = BitVec.ofNat 8 (m.length % 256) := by
  refine byte_ext _ _ fun i hi => ?_
  have hzero := getLsbD_tailOperand_high m (56 + i) (by omega) (by omega)
  rw [BitVec.getLsbD_extractLsb', tailWord, BitVec.getLsbD_or, BitVec.getLsbD_shiftLeft, hzero, BitVec.getLsbD_ofNat,
    BitVec.getLsbD_ofNat]
  simp [hi, show 56 + i < 64 by omega, show i < 64 by omega]

/-- Settles O6: the blocks take the bytes eight at a time, the tail word takes what is left, below the length byte. -/
theorem messageIsCutIntoWords : Obligations.MessageIsCutIntoWords := fun m =>
  ⟨messageBlocks_length m, extractLsb'_messageBlocks m, extractLsb'_tailWord m,
    fun i hi h56 => (getLsbD_tailWord_low m i h56).trans (getLsbD_tailOperand_high m i hi (by omega)),
    extractLsb'_tailWord_top m⟩

end Sys2Proof.Machine
end

section
/-! KHM (40_hash_mixer.md): the round undone, what H_ABSORB and H_FINAL leave, HASH of a message, and O18, O20 to O23. -/

namespace Sys2Proof.Machine

/-! ### The round is a bijection (R91) -/

/-- A bit of a rotated word (00_scope.md R12). -/
theorem getLsbD_rotl64 (x : Word) (r i : Nat) (hi : i < 64) :
    (rotl64 x r).getLsbD i = if i < r then x.getLsbD (64 - r + i) else x.getLsbD (i - r) := by
  have hhigh : x.getLsbD (64 - r + i) = false ∨ i < r := by
    by_cases hr : i < r
    · exact .inr hr
    · exact .inl (BitVec.getLsbD_of_ge x _ (by omega))
  rw [rotl64, BitVec.getLsbD_or, BitVec.getLsbD_shiftLeft, BitVec.getLsbD_ushiftRight]
  by_cases hr : i < r
  · simp [hr]
  · simp [hr, hi, hhigh.resolve_right hr]

/-- Rotating back by the rest of the 64 places undoes a rotation. -/
theorem rotl64_rotl64 (x : Word) (r q : Nat) (h : r + q = 64) : rotl64 (rotl64 x r) q = x := by
  refine BitVec.eq_of_getLsbD_eq fun i hi => ?_
  rw [getLsbD_rotl64 _ q i hi]
  by_cases hq : i < q
  · rw [if_pos hq, getLsbD_rotl64 x r _ (by omega), if_neg (by omega), show 64 - q + i - r = i by omega]
  · rw [if_neg hq, getLsbD_rotl64 x r _ (by omega), if_pos (by omega), show 64 - r + (i - q) = i by omega]

/-- The step that a round makes of two words, four times: add, rotate, XOR (R91). -/
def mixPair (r : Nat) (x : Word × Word) : Word × Word := (x.1 + x.2, rotl64 x.2 r ^^^ (x.1 + x.2))

/-- `mixPair` undone. -/
def unmixPair (r : Nat) (y : Word × Word) : Word × Word :=
  (y.1 - rotl64 (y.2 ^^^ y.1) (64 - r), rotl64 (y.2 ^^^ y.1) (64 - r))

theorem unmixPair_mixPair (r : Nat) (hr : r ≤ 64) (x : Word × Word) : unmixPair r (mixPair r x) = x := by
  have hrot := rotl64_rotl64 x.2 r (64 - r) (by omega)
  simp only [unmixPair, mixPair, BitVec.xor_assoc, BitVec.xor_self, BitVec.xor_zero, hrot, BitVec.add_sub_cancel]

theorem mixPair_unmixPair (r : Nat) (hr : r ≤ 64) (y : Word × Word) : mixPair r (unmixPair r y) = y := by
  have hrot := rotl64_rotl64 (y.2 ^^^ y.1) (64 - r) r (by omega)
  simp only [unmixPair, mixPair, BitVec.sub_add_cancel, hrot, BitVec.xor_assoc, BitVec.xor_self, BitVec.xor_zero]

/-- A round undone: its four steps in the opposite order. -/
def unSipRound (w : HashWords) : HashWords :=
  let y := unmixPair 17 (rotl64 w.v2 32, w.v1)
  let x := unmixPair 21 (w.v0, w.v3)
  let p := unmixPair 13 (rotl64 x.1 32, y.2)
  let q := unmixPair 16 (y.1, x.2)
  ⟨p.1, p.2, q.1, q.2⟩

/-- A round is four steps on pairs of words, and two rotations by 32 (R91). -/
theorem sipRound_eq_mixPairs (v : HashWords) :
    sipRound v =
      let p := mixPair 13 (v.v0, v.v1)
      let q := mixPair 16 (v.v2, v.v3)
      let x := mixPair 21 (rotl64 p.1 32, q.2)
      let y := mixPair 17 (q.1, p.2)
      ⟨x.1, y.2, rotl64 y.1 32, x.2⟩ := rfl

theorem unSipRound_sipRound (v : HashWords) : unSipRound (sipRound v) = v := by
  simp only [sipRound_eq_mixPairs, unSipRound, rotl64_rotl64 _ 32 32 rfl, Prod.mk.eta,
    unmixPair_mixPair 17 (by decide), unmixPair_mixPair 21 (by decide), unmixPair_mixPair 13 (by decide),
    unmixPair_mixPair 16 (by decide)]

theorem sipRound_unSipRound (w : HashWords) : sipRound (unSipRound w) = w := by
  simp only [sipRound_eq_mixPairs, unSipRound, rotl64_rotl64 _ 32 32 rfl, Prod.mk.eta,
    mixPair_unmixPair 17 (by decide), mixPair_unmixPair 21 (by decide), mixPair_unmixPair 13 (by decide),
    mixPair_unmixPair 16 (by decide)]

/-- Settles O18: `unSipRound` undoes the round from both sides; the check value and the fixed point are computed. -/
theorem sipRoundIsABijection : Obligations.SipRoundIsABijection :=
  ⟨Function.bijective_iff_has_inverse.mpr ⟨unSipRound, unSipRound_sipRound, sipRound_unSipRound⟩, by decide, by decide⟩

/-! ### H_ABSORB and H_FINAL (R93, R96, R97) -/

/-- The model's rounds are the round iterated. -/
theorem sipRounds_eq_iterate (n : Nat) (v : HashWords) : sipRounds n v = sipRound^[n] v := by
  induction n generalizing v with
  | zero => rfl
  | succ n ih => exact ih (sipRound v)

/-- C_ROUNDS rounds (R92). -/
theorem sipRounds_roundCount (p : Params) (v : HashWords) :
    sipRounds (roundCount p.cRounds) v = sipRound^[match p.cRounds with | .two => 2 | .four => 4] v := by
  rw [sipRounds_eq_iterate]
  cases p.cRounds <;> rfl

/-- H_ABSORB in phase ABSORB (R96). -/
theorem exec_hAbsorb_of_absorb (s : State) (m : Word) (h : s.hphase = .absorb) :
    exec (.hAbsorb m) s = .next ((s.hashAbsorb m).respond ⟨0#8, 0#64⟩) :=
  if_neg (not_not.mpr h)

/-- H_ABSORB in another phase (R96). -/
theorem exec_hAbsorb_of_not_absorb (s : State) (m : Word) (h : s.hphase ≠ .absorb) :
    exec (.hAbsorb m) s = .next (s.takeError opHAbsorb .protocol) :=
  if_pos h

/-- LEN counts modulo 256 (R96, R97). -/
theorem len_add_eq_ofNat (len d : Byte) : len + d = BitVec.ofNat 8 (len.toNat + d.toNat) := by
  rw [BitVec.ofNat_add, BitVec.ofNat_toNat, BitVec.ofNat_toNat, BitVec.setWidth_eq, BitVec.setWidth_eq]

/-- An H_ABSORB word with a bit of the short operand faults (30_encoding.md R77). -/
theorem wordsFault_opHAbsorb : WordsFault opHAbsorb (hasBitOf 0x00ff0000000000000000#80) := by
  refine wordsFault_of_no_row _ _ fun p w i hrow hbit => ?_
  generalize hop : opHAbsorb = op, ha : cmdA w = a, cmdD w = d at hrow
  cases hrow
  case hAbsorb => exact hbit (and_shortOperandMask w 0xff#8 (by rw [ha]; decide))
  all_goals exact absurd hop (by decide)

/-- Settles O20: past the one check H_ABSORB leaves `hashAbsorb`, whose rounds are the round iterated. -/
theorem hAbsorbMixesOneBlock : Obligations.HAbsorbMixesOneBlock := by
  refine ⟨fun s m => ⟨fun h => ⟨_, sipRounds_roundCount s.params _, ?_⟩, fun h => ?_⟩, wordsFault_opHAbsorb⟩
  · rw [exec_hAbsorb_of_absorb s m h, State.hashAbsorb, len_add_eq_ofNat]
    rfl
  · exact ⟨_, exec_hAbsorb_of_not_absorb s m h, faulted_takeError s _ .protocol⟩

/-- H_FINAL with stray bits above its trailing bytes (R97). -/
theorem exec_hFinal_of_stray_bits (s : State) (n : BitVec 3) (d : Word) (h : 2 ^ (8 * n.toNat) ≤ d.toNat) :
    exec (.hFinal n d) s = .next (s.takeError opHFinal .illegalCommand) := by
  have hfits : ¬ tailFits n d = true := fun hf => Nat.not_lt.mpr h ((tailFits_iff n d).mp hf)
  simp [exec, execHFinal, hfits, raise_eq]

/-- H_FINAL with operands that fit, in another phase than ABSORB (R97). -/
theorem exec_hFinal_of_not_absorb (s : State) (n : BitVec 3) (d : Word) (hd : d.toNat < 2 ^ (8 * n.toNat))
    (h : s.hphase ≠ .absorb) : exec (.hFinal n d) s = .next (s.takeError opHFinal .protocol) := by
  have hfits : tailFits n d = true := (tailFits_iff n d).mpr hd
  simp [exec, execHFinal, hfits, h, raise_eq]

/-- An H_FINAL word with a bit at `a[7:3]`, or with stray bits, faults (30_encoding.md R77). -/
theorem wordsFault_opHFinal : WordsFault opHFinal (fun p w =>
    hasBitOf 0x00f80000000000000000#80 p w ∨ 2 ^ (8 * (w.extractLsb' 64 3).toNat) ≤ (w.extractLsb' 0 64).toNat) := by
  refine wordsFault_of_no_row _ _ fun p w i hrow => ?_
  have hcount : (cmdA w).extractLsb' 0 3 = w.extractLsb' 64 3 := by
    refine BitVec.eq_of_getLsbD_eq fun i hi => ?_
    simp only [cmdA, BitVec.getLsbD_extractLsb', Nat.zero_add, hi, show i < 8 by omega, decide_true, Bool.true_and]
  generalize hop : opHFinal = op, ha : cmdA w = a, hd : cmdD w = d at hrow
  cases hrow
  case hFinal hhigh hfits =>
    subst ha hd
    have hmask : ∀ a : Byte, a.extractLsb' 3 5 = 0#5 → a &&& 0xf8#8 = 0#8 := by decide
    rintro (hbit | hstray)
    · exact hbit (and_shortOperandMask w 0xf8#8 (hmask _ hhigh))
    · rw [hcount] at hfits
      exact Nat.not_lt.mpr hstray ((tailFits_iff _ _).mp hfits)
  all_goals exact absurd hop (by decide)

/-- H_FINAL adds its count to LEN modulo 256 (R97). -/
theorem len_add_count_eq_ofNat (len : Byte) (n : BitVec 3) :
    len + n.setWidth 8 = BitVec.ofNat 8 (len.toNat + n.toNat) := by
  rw [len_add_eq_ofNat, BitVec.toNat_setWidth_of_le (by decide)]

/-- The tail word has the number LEN in its top byte (R97). -/
theorem finalTail_eq (len : Byte) (d : Word) : finalTail len d = (BitVec.ofNat 64 len.toNat <<< 56) ||| d := by
  rw [finalTail, BitVec.ofNat_toNat]

/-- Settles O21: past its two checks H_FINAL leaves `hashFinal`, whose rounds are the round iterated. -/
theorem hFinalMakesTheDigest : Obligations.HFinalMakesTheDigest := by
  refine ⟨fun s n d => ⟨fun hd h => ?_, fun hd => ?_, fun hd h => ?_⟩, wordsFault_opHFinal⟩
  · exact ⟨_, _, _, _, len_add_count_eq_ofNat s.len n, finalTail_eq _ d, sipRounds_roundCount s.params _,
      sipRounds_eq_iterate 4 _, execHFinal_eq n d s ((tailFits_iff n d).mpr hd) h⟩
  · exact ⟨_, exec_hFinal_of_stray_bits s n d hd, faulted_takeError s _ .illegalCommand⟩
  · exact ⟨_, exec_hFinal_of_not_absorb s n d hd h, faulted_takeError s _ .protocol⟩

/-! ### HASH (R98, R99) -/

/-- Settles O22: HASH completes from every state and leaves `hashed`. -/
theorem hashSequenceComputesKhmDigest : Obligations.HashSequenceComputesKhmDigest := fun s m =>
  ⟨_, hashMessage_eq_hashed m s, rfl⟩

/-- Settles O23: a message of at most 7 bytes has no full block. -/
theorem shortMessageDigestIsMix64 : Obligations.ShortMessageDigestIsMix64 := by
  intro p m hm
  have hblocks : messageBlocks m = [] :=
    List.length_eq_zero_iff.mp (by rw [messageBlocks_length]; omega)
  rw [khmDigest, hblocks, List.foldl_nil, khmMix64]

end Sys2Proof.Machine
end

section
/-! The bit array under commands (41_bitset_port.md R124, 10_state.md R49 (f)): the canonical form decides the memory, B_SET in any
order, what keeps every bit, and O35, O36, O37, O39, O60. -/

namespace Sys2Proof.Machine

/-! ### The canonical form (log entry 4) -/

/-- The cells of a memory in canonical form are the bytes that read otherwise than an unlisted one. -/
theorem Memory.mem_cells_iff (m : Memory) (h : m.wf) (c : Host.Cell) :
    c ∈ m.cells ↔ m.read c.1 = c.2 ∧ c.2 ≠ m.unlisted c.1 := by
  constructor
  · exact fun hc => ⟨Memory.read_of_mem m h c hc, h.2 c hc⟩
  · rintro ⟨hread, hne⟩
    rcases listedByte_cases m.cells c.1 with ⟨c', hc', haddr, hlisted⟩ | ⟨-, hnone⟩
    · have hbyte : c'.2 = c.2 := (Memory.read_of_listed m _ _ hlisted).symm.trans hread
      rwa [Prod.ext haddr hbyte] at hc'
    · exact absurd (hread.symm.trans (Memory.read_of_not_listed m _ hnone)) hne

/-- Rising cells are all different. -/
theorem Memory.nodup_cells (m : Memory) (h : m.wf) : m.cells.Nodup :=
  h.1.imp fun hlt heq => absurd (congrArg Prod.fst heq) (Nat.ne_of_lt hlt)

/-- What an unlisted byte reads is decided by the two numbers. -/
theorem Memory.unlisted_congr {m m' : Memory} (hz : m.zeroed = m'.zeroed) (hl : m.loss = m'.loss) :
    m.unlisted = m'.unlisted := by
  funext a
  rw [Memory.unlisted, Memory.unlisted, hz, hl]

/-- Two memories in canonical form with the same numbers that read alike list the same cells in the same order. -/
theorem Memory.eq_of_read_eq (m m' : Memory) (h : m.wf) (h' : m'.wf) (hz : m.zeroed = m'.zeroed) (hl : m.loss = m'.loss)
    (hread : ∀ a : Nat, m.read a = m'.read a) : m = m' := by
  have hperm : m.cells.Perm m'.cells := by
    rw [List.perm_ext_iff_of_nodup (m.nodup_cells h) (m'.nodup_cells h')]
    intro c
    rw [m.mem_cells_iff h, m'.mem_cells_iff h', hread, Memory.unlisted_congr hz hl]
  have hcells : m.cells = m'.cells :=
    List.Perm.eq_of_pairwise (fun _ _ _ _ hlt hgt => absurd hlt (Nat.lt_asymm hgt)) h.1 h'.1 hperm
  cases m
  cases m'
  cases hcells
  cases hz
  cases hl
  rfl

/-- Settles O39: a canonical memory lists exactly the bytes that differ from an unlisted one, in rising order. -/
theorem canonicalMemoriesAreEqualData : Obligations.CanonicalMemoriesAreEqualData :=
  ⟨Memory.eq_of_read_eq, fun m a n v xs h =>
    ⟨Memory.wf_write m a v h, Memory.wf_clearBelow n m h, Memory.wf_setBits xs m h⟩⟩

/-! ### Bits and bytes -/

/-- Bit `8a + i` of the array is bit `i` of byte `a` (20_memory.md R52). -/
theorem arrayBit_eq_getLsbD_read (m : Memory) (a i : Nat) (hi : i < 8) : arrayBit m (8 * a + i) = (m.read a).getLsbD i := by
  rw [arrayBit, show (8 * a + i) / 8 = a by omega, show (8 * a + i) % 8 = i by omega]

/-- A byte reads alike when its eight bits do. -/
theorem read_eq_of_arrayBit_eq {m m' : Memory} {a : Nat}
    (h : ∀ i : Nat, i < 8 → arrayBit m (8 * a + i) = arrayBit m' (8 * a + i)) : m.read a = m'.read a :=
  byte_ext _ _ fun i hi => by rw [← arrayBit_eq_getLsbD_read m a i hi, h i hi, arrayBit_eq_getLsbD_read m' a i hi]

/-- A cleared array has no bit set (R117). -/
theorem arrayBit_clearBelow_of_lt (m : Memory) (n x : Nat) (h : x / 8 < n) :
    arrayBit (Memory.clearBelow n m) x = false := by
  rw [arrayBit, Memory.read_clearBelow, if_pos h, BitVec.getLsbD_zero]

/-! ### B_SET and B_TEST on the same lanes, and on others (R124 (b), (c)) -/

/-- A valid lane of `s` has the index `n`. -/
def State.HasLaneAt (s : State) (n : Nat) : Prop := ∃ j : Lane, s.laneValid j = true ∧ (s.idxAt j).toNat = n

/-- The bits of the array after B_SET (R115). -/
theorem arrayBit_setLanes (s : State) (n : Nat) :
    arrayBit s.setLanes.mem n = true ↔ arrayBit s.mem n = true ∨ s.HasLaneAt n :=
  setsExactly_setLanes s n

/-- After B_SET the same lanes test as 1 (R124 (c)). -/
theorem testedAll_setLanes (s : State) : s.setLanes.testedAll = true := by
  rw [testedAll_iff]
  intro j hj
  rw [laneBit_eq_arrayBit]
  exact (arrayBit_setLanes s _).mpr (.inr ⟨j, hj, rfl⟩)

/-- Setting the lanes' bits twice sets no other bit than once (R124 (b)). -/
theorem arrayBit_setLanes_setLanes (s : State) (n : Nat) :
    arrayBit s.setLanes.setLanes.mem n = arrayBit s.setLanes.mem n := by
  rw [Bool.eq_iff_iff]
  refine (arrayBit_setLanes s.setLanes n).trans (or_iff_left_of_imp fun hlane => ?_)
  exact (arrayBit_setLanes s n).mpr (.inr hlane)

/-- Settles O35: B_SET changes neither lanes nor filter, so the second one and the test meet the same lanes, whose bits are
set. -/
theorem bSetIsIdempotentAndTestsAsOne : Obligations.BSetIsIdempotentAndTestsAsOne := by
  intro s hc hl
  refine ⟨_, _, _, exec_bSet_of_lanesInRange s hc hl, exec_bSet_of_lanesInRange _ hc hl,
    exec_bTest_of_lanesInRange _ hc hl, fun a => ?_, testedAll_setLanes s⟩
  exact read_eq_of_arrayBit_eq fun i _ => arrayBit_setLanes_setLanes s (8 * a + i)

/-- Settles O36: either order sets the bits of the one lanes and of the other. -/
theorem bSetsCommute : Obligations.BSetsCommute := by
  intro s idx idx' mask mask' hc hl hl'
  refine ⟨_, _, _, _, exec_bSet_of_lanesInRange _ hc hl, exec_bSet_of_lanesInRange _ hc hl',
    exec_bSet_of_lanesInRange _ hc hl', exec_bSet_of_lanesInRange _ hc hl, fun a => ?_⟩
  refine read_eq_of_arrayBit_eq fun i _ => ?_
  rw [Bool.eq_iff_iff]
  refine (arrayBit_setLanes _ _).trans (Iff.trans ?_ (arrayBit_setLanes _ _).symm)
  refine (or_congr_left (arrayBit_setLanes { s with idx := idx, laneMask := mask } _)).trans ?_
  refine Iff.trans ?_ (or_congr_left (arrayBit_setLanes { s with idx := idx', laneMask := mask' } _)).symm
  exact or_right_comm

/-! ### What keeps the filter and its bits (10_state.md R49 (f)) -/

/-- `t` has the filter of `s`, and every bit of its array that is set in `s`. -/
structure KeepsFilter (s t : State) : Prop where
  params : t.params = s.params
  cfgValid : t.cfgValid = s.cfgValid
  exp : t.exp = s.exp
  k : t.k = s.k
  bits : ∀ n : Nat, arrayBit s.mem n = true → arrayBit t.mem n = true

theorem KeepsFilter.refl (s : State) : KeepsFilter s s := ⟨rfl, rfl, rfl, rfl, fun _ => id⟩

theorem KeepsFilter.trans {s t u : State} (h : KeepsFilter s t) (h' : KeepsFilter t u) : KeepsFilter s u :=
  ⟨h'.params.trans h.params, h'.cfgValid.trans h.cfgValid, h'.exp.trans h.exp, h'.k.trans h.k,
    fun n hn => h'.bits n (h.bits n hn)⟩

/-- A command that completes and is none of the clearing ones keeps the filter and its bits. -/
theorem Effect.keepsFilter {i : Instr} {s u : State} {d : Word} (h : Effect i s u d) (hi : mayClearBits i = false) :
    KeepsFilter s u := by
  cases h with
  | reset | cfg | bClear | mWr => cases hi
  | nop | csrRd | errClr | hInit | hAbsorb | hFinal | pGen | idxWr | idxClr | bTest | mRd | fHas =>
    exact ⟨rfl, rfl, rfl, rfl, fun _ => id⟩
  | bSet => exact ⟨rfl, rfl, rfl, rfl, fun n hn => (arrayBit_setLanes s n).mpr (.inl hn)⟩
  | fAdd => exact ⟨rfl, rfl, rfl, rfl, fun n hn => (arrayBit_setLanes s.genLanes n).mpr (.inl hn)⟩

/-- A command that is none of the clearing ones keeps the filter and its bits, also where it faults. -/
theorem keepsFilter_of_exec_command (i : Instr) (s t : State) (hp : i.isPseudo = false) (hi : mayClearBits i = false)
    (ht : exec i s = .next t) : KeepsFilter s t := by
  rcases exec_command i s hp with ⟨e, he⟩ | ⟨u, d, heffect, hu⟩ | ⟨hfault, -⟩
  · obtain rfl := Host.Outcome.next.inj (he.symm.trans ht)
    exact ⟨rfl, rfl, rfl, rfl, fun _ => id⟩
  · obtain rfl := Host.Outcome.next.inj (hu.symm.trans ht)
    exact (heffect.keepsFilter hi).trans ⟨rfl, rfl, rfl, rfl, fun _ => id⟩
  · cases hfault.symm.trans ht

/-- The hash of a message touches neither filter nor array (30_encoding.md R82). -/
theorem keepsFilter_hashed (s : State) (m : List Byte) : KeepsFilter s (s.hashed m) :=
  ⟨rfl, rfl, rfl, rfl, fun _ => id⟩

/-- An instruction that is none of the clearing ones keeps the filter and its bits: a pseudo-command among them is a hash, with
F_ADD or F_HAS behind it or nothing. -/
theorem keepsFilter_of_exec (i : Instr) (s t : State) (hi : mayClearBits i = false) (ht : exec i s = .next t) :
    KeepsFilter s t := by
  cases hp : i.isPseudo
  · exact keepsFilter_of_exec_command i s t hp hi ht
  cases i with
  | new | clear => cases hi
  | hash m =>
    obtain rfl := Host.Outcome.next.inj ((hashMessage_eq_hashed m s).symm.trans ht)
    exact keepsFilter_hashed s m
  | add m =>
    rw [exec_add] at ht
    exact (keepsFilter_hashed s m).trans (keepsFilter_of_exec_command .fAdd _ t rfl rfl ht)
  | has m =>
    rw [exec_has] at ht
    exact (keepsFilter_hashed s m).trans (keepsFilter_of_exec_command .fHas _ t rfl rfl ht)
  | _ => cases hp

/-- Settles O37: an instruction that is none of the clearing ones keeps every bit that is set. -/
theorem onlyClearingCommandsClearBits : Obligations.OnlyClearingCommandsClearBits := fun i s t n hi ht =>
  (keepsFilter_of_exec i s t hi ht).bits n

/-! ### What the port leaves of the other bits (R124 (a), (d), (e), (f)) -/

/-- A bit that B_SET changes is that of a valid lane's index (R124 (a)). -/
theorem hasLaneAt_of_arrayBit_ne (s : State) (n : Nat) (h : arrayBit s.setLanes.mem n ≠ arrayBit s.mem n) :
    s.HasLaneAt n := by
  by_contra hlane
  exact h (Bool.eq_iff_iff.mpr ((arrayBit_setLanes s n).trans (or_iff_left hlane)))

/-- A byte that B_SET changes holds the bit of a valid lane's index (R124 (a)). -/
theorem exists_lane_of_read_ne (s : State) (a : Nat) (h : s.setLanes.mem.read a ≠ s.mem.read a) :
    ∃ j : Lane, s.laneValid j = true ∧ a = byteOf (s.idxAt j) := by
  by_contra hnone
  refine h (read_eq_of_arrayBit_eq fun i hi => ?_)
  by_contra hbit
  obtain ⟨j, hj, hidx⟩ := hasLaneAt_of_arrayBit_ne s _ hbit
  exact hnone ⟨j, hj, by rw [byteOf_eq]; omega⟩

/-- After B_CLEAR no valid lane's bit is set (R124 (d)). -/
theorem testedAll_clearArray (s : State) (h : StateInv s) (hc : s.cfgValid = true)
    (hlane : ∃ j : Lane, s.laneValid j = true) : s.clearArray.testedAll = false := by
  obtain ⟨j, hj⟩ := hlane
  have hbyte := h.byteOf_lt hc _ ((lanesInRange_iff s).mp h.lanesInRange j hj)
  rw [byteOf_eq] at hbyte
  have hbit : s.clearArray.laneBit j = false :=
    (laneBit_eq_arrayBit s.clearArray j).trans (arrayBit_clearBelow_of_lt s.mem s.byteCount _ hbyte)
  rw [← Bool.not_eq_true, testedAll_iff]
  intro hall
  exact absurd (hall j hj) (by rw [hbit]; decide)

/-- B_CLEAR with a filter zeroes the array (R117). -/
theorem exec_bClear_of_configured (s : State) (hc : s.cfgValid = true) :
    exec .bClear s = .next (s.clearArray.respond ⟨0#8, 0#64⟩) := by
  rw [exec_bClear, withConfig_of_configured s opBClear _ hc, reply_eq]

/-- B_TEST and M_RD leave the memory as it is, whatever they answer (R124 (e), (f)). -/
theorem mem_of_exec_bTest_or_mRd (i : Instr) (s t : State) (addr : Word) (hi : i = .bTest ∨ i = .mRd addr)
    (ht : exec i s = .next t) : t.mem = s.mem := by
  have hp : i.isPseudo = false := by rcases hi with rfl | rfl <;> rfl
  rcases exec_command i s hp with ⟨e, he⟩ | ⟨u, d, heffect, hu⟩ | ⟨hfault, -⟩
  · obtain rfl := Host.Outcome.next.inj (he.symm.trans ht)
    rfl
  · obtain rfl := Host.Outcome.next.inj (hu.symm.trans ht)
    rcases hi with rfl | rfl <;> cases heffect <;> rfl
  · cases hfault.symm.trans ht

/-- Settles O60: B_SET sets the bits of the valid lanes and no other, the lanes in range are in the array that B_CLEAR zeroes,
and the reading commands leave the memory. -/
theorem bitArrayPortKeepsOtherBits : Obligations.BitArrayPortKeepsOtherBits := by
  refine ⟨fun s hc hl => ?_, fun s h hc hlane => ?_, fun s t addr n ht => ?_⟩
  · refine ⟨_, exec_bSet_of_lanesInRange s hc hl, fun n hn => (arrayBit_setLanes s n).mpr (.inl hn),
      ⟨s.validLanes.map fun j => (s.idxAt j).toNat, (List.length_map _).le, fun n hn => ?_⟩, exists_lane_of_read_ne s⟩
    obtain ⟨j, hj, rfl⟩ := hasLaneAt_of_arrayBit_ne s n hn
    exact ⟨List.mem_map.mpr ⟨j, (mem_validLanes s j).mpr hj, rfl⟩, j, hj, rfl⟩
  · have htest := testedAll_clearArray s h hc hlane
    have hdata : resultData (s.clearArray.respond ⟨0#8, 0#64⟩).testedAll = 0#64 := congrArg resultData htest
    refine ⟨_, _, exec_bClear_of_configured s hc, exec_bTest_of_lanesInRange _ hc h.lanesInRange, htest, ?_⟩
    rw [hdata]
    rfl
  · have hmem : t.mem = s.mem := ht.elim (mem_of_exec_bTest_or_mRd .bTest s t addr (.inl rfl))
      (mem_of_exec_bTest_or_mRd (.mRd addr) s t addr (.inr rfl))
    rw [hmem]

end Sys2Proof.Machine
end

section
/-! The filter's contract (43_filter_ops.md R142 to R144, 70_reset_and_hazards.md R196): what is added is found, a cleared filter
holds nothing, the array depends on the entries only, a dump is restored, and O47 to O50. -/

namespace Sys2Proof.Machine

/-! ### Runs -/

/-- A run of instructions that are none of the clearing ones keeps the filter and its bits. -/
theorem keepsFilter_of_runAll (is : List Instr) (s t : State) (his : ∀ i ∈ is, mayClearBits i = false)
    (ht : runAll is s = .next t) : KeepsFilter s t := by
  induction is generalizing s with
  | nil =>
    obtain rfl := Host.Outcome.next.inj ht
    exact .refl s
  | cons i is ih =>
    obtain ⟨u, hu, hrest⟩ := (andThen_eq_next _ _ t).mp ht
    exact (keepsFilter_of_exec i s u (his i List.mem_cons_self) hu).trans
      (ih u (fun i hi => his i (List.mem_cons_of_mem _ hi)) hrest)

/-! ### No false negatives (R144 (a)) -/

/-- The probes of a digest depend on the sizing only (42_probe_engine.md R128). -/
theorem isProbe_congr {s t : State} (hp : t.params = s.params) (he : t.exp = s.exp) (hk : t.k = s.k) (digest : Word)
    (n : Nat) : IsProbe t digest n ↔ IsProbe s digest n := by
  rw [IsProbe, IsProbe, hp, he, hk]

/-- A filter that is kept has the same probes. -/
theorem KeepsFilter.isProbe_iff {s t : State} (h : KeepsFilter s t) (digest : Word) (n : Nat) :
    IsProbe t digest n ↔ IsProbe s digest n :=
  isProbe_congr h.params h.exp h.k digest n

/-- HAS answers 1 where every probe of the message's digest is set, 0 elsewhere (R141). -/
theorem exec_has_answers (s : State) (m : List Byte) (hc : s.cfgValid = true) : ∃ t : State, exec (.has m) s = .next t ∧
    (t.result = true ↔ ∀ n : Nat, IsProbe s (khmDigest s.params m) n → arrayBit s.mem n = true) ∧
    t.rsps.head? = some ⟨0#8, if t.result then 1#64 else 0#64⟩ := by
  obtain ⟨t, ht, hresult, hstate⟩ := (hasTestsTheMessage s m).1 hc
  exact ⟨t, ht, hresult, by rw [hstate]; rfl⟩

/-- Settles O47: ADD sets every probe of the message's digest, and they stay set, so HAS finds them. -/
theorem noFalseNegatives : Obligations.NoFalseNegatives := by
  intro s t u m is hc ht his hu
  obtain ⟨t', ht', hsets, -⟩ := (addInsertsTheMessage s m).1 hc
  obtain rfl := Host.Outcome.next.inj (ht'.symm.trans ht)
  have hafter := keepsFilter_of_runAll is t' u his hu
  have hall := (keepsFilter_of_exec (.add m) s t' rfl ht).trans hafter
  obtain ⟨w, hw, hresult, hhead⟩ := exec_has_answers u m (hall.cfgValid.trans hc)
  have hfound : w.result = true := hresult.mpr fun n hn => by
    rw [hall.params, hall.isProbe_iff] at hn
    exact hafter.bits n ((hsets n).mpr (.inr hn))
  exact ⟨w, hw, hfound, by rw [hhead, hfound]; rfl⟩

/-! ### A cleared filter (R142, R144 (c), (e)) -/

/-- With a legal sizing there is a probe, and it lies in the array (42_probe_engine.md R128). -/
theorem exists_isProbe_lt (s : State) (digest : Word) (hk : 1 ≤ s.k.toNat) (hmax : 1 ≤ s.params.kMax) :
    ∃ n : Nat, IsProbe s digest n ∧ n < 2 ^ s.exp.toNat :=
  ⟨_, ⟨0#6, hk, hmax, rfl⟩, Nat.mod_lt _ (Nat.two_pow_pos _)⟩

/-- Settles O48: the first probe of any digest lies in the array that CLEAR zeroes, and NEW zeroes the same bytes. -/
theorem clearedFilterHoldsNothing : Obligations.ClearedFilterHoldsNothing := by
  intro s m h hc
  have hlegal := (configLegal_iff s.params s.exp s.k).mpr (h.config hc)
  obtain ⟨hexp, -, hk, hkMax⟩ := h.config hc
  obtain ⟨u, hu, hresult, hhead⟩ := exec_has_answers (s.clearArray.respond ⟨0#8, 0#64⟩) m hc
  obtain ⟨n, hn, hlt⟩ := exists_isProbe_lt (s.clearArray.respond ⟨0#8, 0#64⟩) (khmDigest s.params m) hk
    (Nat.le_trans hk hkMax)
  have hbit : arrayBit (s.clearArray.respond ⟨0#8, 0#64⟩).mem n = false :=
    arrayBit_clearBelow_of_lt s.mem s.byteCount n (div_eight_lt_byteCount s hexp n hlt)
  have hnot : u.result = false := Bool.eq_false_iff.mpr fun htrue =>
    Bool.eq_false_iff.mp hbit (hresult.mp htrue n hn)
  exact ⟨_, u, _, (exec_clear_eq_exec_bClear s).trans (exec_bClear_of_configured s hc), hu, hnot,
    by rw [hhead, hnot]; rfl, exec_cfg_of_legal s s.exp s.k hlegal, rfl, rfl, rfl⟩

/-! ### Entries in any order (R144 (d)) -/

/-- Adding messages sets the probes of their digests and no other bit. -/
theorem arrayBit_of_runAll_adds (ms : List (List Byte)) (s t : State) (hc : s.cfgValid = true)
    (ht : runAll (ms.map .add) s = .next t) (n : Nat) :
    arrayBit t.mem n = true ↔ arrayBit s.mem n = true ∨ ∃ m ∈ ms, IsProbe s (khmDigest s.params m) n := by
  induction ms generalizing s with
  | nil =>
    obtain rfl := Host.Outcome.next.inj ht
    simp
  | cons m ms ih =>
    obtain ⟨u, hu, hrest⟩ := (andThen_eq_next _ _ t).mp ht
    have hkeeps := keepsFilter_of_exec (.add m) s u rfl hu
    obtain ⟨u', hu', hsets, -⟩ := (addInsertsTheMessage s m).1 hc
    obtain rfl := Host.Outcome.next.inj (hu'.symm.trans hu)
    rw [ih u' (hkeeps.cfgValid.trans hc) hrest, hsets n, or_assoc]
    simp only [hkeeps.params, hkeeps.isProbe_iff, List.mem_cons, exists_eq_or_imp]

/-- A new filter with messages added to it: below BITCOUNT exactly the probes of their digests are set, whatever stood in the
state before. -/
theorem arrayBit_of_runAll_new_adds (e : BitVec 6) (k : BitVec 7) (ms : List (List Byte)) (s t : State)
    (hlegal : configLegal s.params e k = true) (ht : runAll (.new e k :: ms.map .add) s = .next t) (n : Nat)
    (hn : n / 8 < 2 ^ e.toNat / 8) :
    arrayBit t.mem n = true ↔ ∃ m ∈ ms, IsProbe (s.configure e k) (khmDigest s.params m) n := by
  obtain ⟨u, hu, hrest⟩ := (andThen_eq_next _ _ t).mp ht
  rw [exec_new_eq_exec_cfg, exec_cfg_of_legal s e k hlegal] at hu
  obtain rfl := Host.Outcome.next.inj hu
  have hzero : arrayBit ((s.configure e k).respond ⟨0#8, 0#64⟩).mem n = false :=
    arrayBit_clearBelow_of_lt s.mem (2 ^ e.toNat / 8) n hn
  rw [arrayBit_of_runAll_adds ms _ t rfl hrest n, hzero]
  exact or_iff_right Bool.false_ne_true

/-- Settles O49: the bits set are the probes of the entries, which neither the order nor the state before changes. -/
theorem arrayDependsOnTheEntriesOnly : Obligations.ArrayDependsOnTheEntriesOnly := by
  intro s s' t t' e k ms ms' hparams he heMax hk hkMax hperm ht ht' a ha
  have hlegal := (configLegal_iff s.params e k).mpr ⟨he, heMax, hk, hkMax⟩
  refine read_eq_of_arrayBit_eq fun i hi => ?_
  have hbyte : (8 * a + i) / 8 < 2 ^ e.toNat / 8 := by omega
  rw [Bool.eq_iff_iff, arrayBit_of_runAll_new_adds e k ms s t hlegal ht _ hbyte,
    arrayBit_of_runAll_new_adds e k ms' s' t' (hparams ▸ hlegal) ht' _ hbyte]
  refine exists_congr fun m => ?_
  rw [hperm.mem_iff, ← hparams, isProbe_congr (s := s.configure e k) (t := s'.configure e k) hparams.symm rfl rfl]

/-! ### A dump (70_reset_and_hazards.md R196) -/

/-- M_WR of a byte of the array completes (41_bitset_port.md R122). -/
theorem exec_mWr_of_lt (s : State) (a : Nat) (v : Byte) (hc : s.cfgValid = true) (ha : a < s.byteCount) (h64 : a < 2 ^ 64) :
    exec (.mWr (BitVec.ofNat 64 a) v) s =
      .next (({ s with mem := s.mem.write a v } : State).respond ⟨0#8, 0#64⟩) := by
  have haddr : (BitVec.ofNat 64 a).toNat = a := by rw [BitVec.toNat_ofNat, Nat.mod_eq_of_lt h64]
  rw [exec_mWr, withByte_of_lt s _ _ _ hc (haddr.symm ▸ ha), haddr, reply_eq]

/-- Writing bytes of the array one after another: each reads as written, the others as before. -/
theorem runAll_mWrs (as : List Nat) (f : Nat → Byte) (s : State) (hc : s.cfgValid = true)
    (has : ∀ a ∈ as, a < s.byteCount ∧ a < 2 ^ 64) : ∃ t : State,
      runAll (as.map fun a => .mWr (BitVec.ofNat 64 a) (f a)) s = .next t ∧ t.cfgValid = true ∧ t.exp = s.exp ∧
      t.k = s.k ∧ ∀ b : Nat, t.mem.read b = if b ∈ as then f b else s.mem.read b := by
  induction as generalizing s with
  | nil => exact ⟨s, rfl, hc, rfl, rfl, fun b => (if_neg List.not_mem_nil).symm⟩
  | cons a as ih =>
    obtain ⟨ha, h64⟩ := has a List.mem_cons_self
    obtain ⟨t, ht, htc, hexp, hk, hread⟩ := ih (({ s with mem := s.mem.write a (f a) } : State).respond ⟨0#8, 0#64⟩) hc
      fun b hb => has b (List.mem_cons_of_mem a hb)
    refine ⟨t, ?_, htc, hexp, hk, fun b => ?_⟩
    · rw [List.map_cons, runAll, exec_mWr_of_lt s a (f a) hc ha h64, andThen_next, ht]
    · rw [hread b, State.respond_mem, Memory.read_write]
      by_cases hab : a = b
      · subst hab
        simp
      · simp [hab, Ne.symm hab]

/-- Every address of an array is a 64-bit word (10_state.md R44). -/
theorem lt_two_pow_64_of_lt_byteCount (e : BitVec 6) (a : Nat) (h : a < 2 ^ e.toNat / 8) : a < 2 ^ 64 :=
  Nat.lt_of_lt_of_le h (Nat.le_trans (Nat.div_le_self _ _) (Nat.pow_le_pow_right (by decide) (Nat.le_of_lt e.isLt)))

/-- Settles O50: CFG zeroes the array, and each M_WR puts one dumped byte back; the bytes that no M_WR writes were zero. -/
theorem dumpIsRestored : Obligations.DumpIsRestored := by
  intro s s' h hc hparams
  have hlegal : configLegal s'.params s.exp s.k = true := (configLegal_iff _ _ _).mpr (hparams ▸ h.config hc)
  obtain ⟨t, ht, htc, hexp, hk, hread⟩ := runAll_mWrs
    ((List.range (2 ^ s.exp.toNat / 8)).filter fun a => s.mem.read a ≠ 0#8) s.mem.read
    ((s'.configure s.exp s.k).respond ⟨0#8, 0#64⟩) rfl fun a ha => by
      have hlt := List.mem_range.mp (List.mem_filter.mp ha).1
      exact ⟨hlt, lt_two_pow_64_of_lt_byteCount s.exp a hlt⟩
  refine ⟨t, ?_, htc, hexp, hk, fun a ha => ?_⟩
  · rw [runAll, exec_cfg_of_legal s' s.exp s.k hlegal, andThen_next, ht]
  · have hzeroed : ((s'.configure s.exp s.k).respond ⟨0#8, 0#64⟩).mem.read a = 0#8 :=
      (Memory.read_clearBelow _ s'.mem a).trans (if_pos ha)
    rw [hread a, hzeroed]
    split
    · rfl
    · next hunwritten =>
      by_contra hne
      exact hunwritten (List.mem_filter.mpr ⟨List.mem_range.mpr ha, decide_eq_true (Ne.symm hne)⟩)

end Sys2Proof.Machine
end

section
/-! The host's sizing (45_host_sizing.md R166 to R172): where it fails, the sizes it gives, the spec's examples, and O56 to O59. -/

namespace Sys2Proof.Machine

/-! ### Where it fails (R169) -/

/-- Below the dispatch's bound of 1, a number outside (0,1) is one at or below zero. -/
theorem forall_ne_fin_iff_le_zero (rate : F64) (h : rate.lt 1) :
    (∀ x : ℝ, 0 < x → x < 1 → rate ≠ .fin x) ↔ rate.le 0 := by
  cases rate with
  | nan => exact absurd h (F64.not_lt_nan 1)
  | inf negative => exact ⟨fun _ => h, fun _ _ _ _ => nofun⟩
  | fin x =>
    constructor
    · intro hout
      by_contra hx
      exact hout x (not_le.mp hx) h rfl
    · rintro hx y hy - heq
      obtain rfl := F64.fin.inj heq
      exact absurd hx (not_le.mpr hy)

/-- Everything derived mode can answer: the failure for a number at or below zero, or the size of its formula's numbers. -/
theorem newFilter_of_lt_one (n rate : F64) (r : HostSize) (h : rate.lt 1) :
    NewFilter n rate r ↔ ((n.le 0 ∨ rate.le 0) ∧ r = .invalidConfiguration) ∨
      (¬ n.le 0 ∧ ∃ (x : ℝ) (rawBits probes : F64) (exp k : Nat), rate = .fin x ∧ 0 < x ∧ x < 1 ∧
        DerivedNumbers n x rawBits probes ∧ SizesTo rawBits exp ∧ CeilsTo probes k ∧ r = .sized exp k) := by
  rw [NewFilter, DerivedSize, forall_ne_fin_iff_le_zero rate h]
  simp only [h, true_and, not_true_eq_false, false_and, or_false]

/-- Everything explicit mode can answer: a size. -/
theorem newFilter_of_not_lt_one (numBits numProbes : F64) (r : HostSize) (h : ¬ numProbes.lt 1) :
    NewFilter numBits numProbes r ↔ ∃ exp k : Nat, SizesTo numBits exp ∧ ProbesGiven numProbes k ∧ r = .sized exp k := by
  simp only [NewFilter, h, false_and, not_false_eq_true, true_and, false_or, ExplicitSize]

/-- Derived mode gives no size for a number at or below zero. -/
theorem eq_invalidConfiguration_of_le_zero (n rate : F64) (r : HostSize) (h : rate.lt 1) (hle : n.le 0 ∨ rate.le 0)
    (hr : NewFilter n rate r) : r = .invalidConfiguration := by
  rcases (newFilter_of_lt_one n rate r h).mp hr with ⟨-, hinvalid⟩ | ⟨hn, x, -, -, -, -, rfl, h0, -⟩
  · exact hinvalid
  · exact absurd (hle.resolve_left hn) (not_le.mpr h0)

/-- Settles O59: derived mode fails for a number at or below zero and sizes otherwise; explicit mode always sizes. -/
theorem sizingFailsOutOfRange : Obligations.SizingFailsOutOfRange := by
  refine ⟨fun first second => ?_, eq_invalidConfiguration_of_le_zero, rfl⟩
  by_cases h : second.lt 1
  · rw [newFilter_of_lt_one first second _ h]
    constructor
    · rintro (⟨hle, -⟩ | ⟨-, x, raw, probes, exp, k, -, -, -, -, -, -, hsized⟩)
      · exact ⟨h, hle⟩
      · cases hsized
    · exact fun hle => .inl ⟨hle.2, rfl⟩
  · rw [newFilter_of_not_lt_one first second _ h]
    constructor
    · rintro ⟨exp, k, -, -, hsized⟩
      cases hsized
    · exact fun hlt => absurd hlt.1 h

/-! ### What it answers (R168, R170, R172) -/

/-- The entry point answers every pair of numbers. -/
theorem exists_newFilter (first second : F64) : ∃ r : HostSize, NewFilter first second r := by
  by_cases h : second.lt 1
  · by_cases hle : first.le 0 ∨ second.le 0
    · exact ⟨_, (newFilter_of_lt_one _ _ _ h).mpr (.inl ⟨hle, rfl⟩)⟩
    · obtain ⟨hn, hrate⟩ := not_or.mp hle
      rw [← forall_ne_fin_iff_le_zero second h] at hrate
      simp only [not_forall, ne_eq, not_not, exists_prop] at hrate
      obtain ⟨x, h0, h1, rfl⟩ := hrate
      obtain ⟨raw, probes, hnumbers⟩ := exists_derivedNumbers first x fun hzero => hn (hzero ▸ le_refl (0 : ℝ))
      obtain ⟨exp, hexp⟩ := exists_sizesTo raw
      obtain ⟨k, hk⟩ := exists_ceilsTo probes
      exact ⟨_, (newFilter_derived hn h0 h1 _).mpr ⟨raw, probes, exp, k, hnumbers, hexp, hk, rfl⟩⟩
  · obtain ⟨exp, hexp⟩ := exists_sizesTo first
    obtain ⟨k, hk⟩ := exists_probesGiven second
    exact ⟨_, (newFilter_of_not_lt_one _ _ _ h).mpr ⟨exp, k, hexp, hk, rfl⟩⟩

/-- Every size is at least 512 bits, and derived mode gives at least one probe. -/
theorem sized_bounds (first second : F64) (exp k : Nat) (h : NewFilter first second (.sized exp k)) :
    9 ≤ exp ∧ (second.lt 1 → 1 ≤ k) := by
  by_cases hlt : second.lt 1
  · rcases (newFilter_of_lt_one _ _ _ hlt).mp h with ⟨-, hinvalid⟩ | ⟨-, x, raw, probes, e, k', -, -, -, -, he, hk, hsized⟩
    · cases hinvalid
    · cases hsized
      exact ⟨he.nine_le, fun _ => hk.one_le⟩
  · obtain ⟨e, k', he, -, hsized⟩ := (newFilter_of_not_lt_one _ _ _ hlt).mp h
    cases hsized
    exact ⟨he.nine_le, fun hlt' => absurd hlt' hlt⟩

/-- A size in explicit mode covers the wanted bits and, above the floor, exceeds them by less than a factor of two. -/
theorem explicit_size_covers (bits : ℝ) (second : F64) (exp k : Nat) (hlt : ¬ second.lt 1)
    (h : NewFilter (.fin bits) second (.sized exp k)) : bits ≤ 2 ^ exp ∧ (exp = 9 ∨ (2 : ℝ) ^ exp < 2 * bits) := by
  obtain ⟨e, k', he, -, hsized⟩ := (newFilter_of_not_lt_one _ _ _ hlt).mp h
  cases hsized
  exact ⟨he.2.1, he.lt_two_mul⟩

/-- A whole probe count gives one answer in explicit mode. -/
theorem existsUnique_explicit (bits : ℝ) (m : Nat) (hm : 1 ≤ m) : ∃! r : HostSize, NewFilter (.fin bits) (.fin m) r := by
  obtain ⟨exp, he, -⟩ := existsUnique_roundsUpTo bits
  exact ⟨_, (newFilter_explicit hm he _).mpr rfl, fun r hr => (newFilter_explicit hm he r).mp hr⟩

/-- An entry count above zero and not too large gives finite numbers, within an error of the exact ones, or far below the floor
of 512 bits. -/
theorem exists_finite_numbers {n rate : ℝ} (hn : 0 < n) (hhi : n ≤ 2 ^ 1000) (hnf : IsBinary64 n) (hf : IsBinary64 rate)
    (h0 : 0 < rate) (h1 : rate < 1) : ∃ raw p : ℝ, DerivedNumbers (.fin n) rate (.fin raw) (.fin p) ∧
      ((2 : ℝ) ^ (-900 : ℤ) ≤ n →
        (-n * Real.log rate / Real.log 2 ^ 2 * (1 - 1 / 2 ^ 49) ≤ raw ∧
          raw ≤ -n * Real.log rate / Real.log 2 ^ 2 * (1 + 1 / 2 ^ 49)) ∧
        (-Real.log rate / Real.log 2 * (1 - 1 / 2 ^ 49) ≤ p ∧ p ≤ -Real.log rate / Real.log 2 * (1 + 1 / 2 ^ 49))) ∧
      (n < (2 : ℝ) ^ (-900 : ℤ) → raw ≤ 1) := by
  obtain ⟨rawBits, probes, hnumbers⟩ := exists_derivedNumbers (.fin n) rate (by simpa using hn.ne')
  by_cases hlo : (2 : ℝ) ^ (-900 : ℤ) ≤ n
  · obtain ⟨raw, p, rfl, rfl, hbounds⟩ := hnumbers.bounds hlo hhi hf h0 h1
    exact ⟨raw, p, hnumbers, fun _ => hbounds, fun hlt => absurd hlo (not_le.mpr hlt)⟩
  · obtain ⟨raw, p, rfl, rfl, hraw⟩ := hnumbers.of_tiny hn (not_le.mp hlo) hnf hf h0 h1
    exact ⟨raw, p, hnumbers, fun hle => absurd hle hlo, fun _ => hraw⟩

/-- A number under the floor is rounded up to the floor of 512 bits (R168). -/
theorem roundsUpTo_nine {bits : ℝ} (h : bits ≤ 2 ^ 9) : RoundsUpTo bits 9 := ⟨le_refl 9, h, fun _ h9 _ => h9⟩

/-- The formula's exact number for a tiny entry count is far under the floor of 512 bits. -/
theorem exact_bits_of_tiny {n rate : ℝ} (hn : 0 < n) (hlo : n < (2 : ℝ) ^ (-900 : ℤ)) (hf : IsBinary64 rate) (h0 : 0 < rate)
    (h1 : rate < 1) : -n * Real.log rate / Real.log 2 ^ 2 * (1 - 1 / 2 ^ 49) ≤ 2 ^ 9 := by
  obtain ⟨hL, hL'⟩ := log_rate_bounds hf h0 h1
  have hlog2 : 1 / 2 ≤ Real.log 2 := by linarith [Real.log_two_gt_d9]
  have hn10 : n ≤ 1 / 2 ^ 10 := hlo.le.trans (by
    calc (2 : ℝ) ^ (-900 : ℤ) ≤ 2 ^ (-10 : ℤ) := zpow_le_zpow_right₀ (by norm_num) (by norm_num)
      _ = 1 / 2 ^ 10 := by norm_num)
  have hsquare : 1 / 4 ≤ Real.log 2 ^ 2 := by nlinarith
  have hL0 : 0 ≤ -Real.log rate := le_trans (by norm_num) hL
  have hproduct : n * -Real.log rate ≤ 1 / 2 ^ 10 * 2 ^ 11 := mul_le_mul hn10 hL' hL0 (by norm_num)
  have hexact : -n * Real.log rate / Real.log 2 ^ 2 ≤ 8 := by
    rw [div_le_iff₀ (by linarith)]
    linarith
  have hnonneg : 0 ≤ -n * Real.log rate / Real.log 2 ^ 2 :=
    div_nonneg (by nlinarith) (sq_nonneg _)
  linarith [mul_le_of_le_one_right hnonneg (by norm_num : (1 : ℝ) - 1 / 2 ^ 49 ≤ 1)]

/-- The probes are the ceiling of the quotient, up to its error (R167, R172). -/
theorem ceil_bounds {L p : ℝ} (hL : 0 < L) (hp : L * (1 - 1 / 2 ^ 49) ≤ p ∧ p ≤ L * (1 + 1 / 2 ^ 49)) :
    L * (1 - 1 / 2 ^ 49) ≤ (max 1 ⌈p⌉₊ : Nat) ∧ ((max 1 ⌈p⌉₊ : Nat) : ℝ) < L * (1 + 1 / 2 ^ 49) + 1 := by
  have hp0 : 0 < p := lt_of_lt_of_le (mul_pos hL (by norm_num)) hp.1
  have hmax : max 1 ⌈p⌉₊ = ⌈p⌉₊ := max_eq_right (Nat.one_le_ceil_iff.mpr hp0)
  rw [hmax]
  exact ⟨hp.1.trans (Nat.le_ceil p), by linarith [Nat.ceil_lt_add_one hp0.le, hp.2]⟩

/-- Derived mode for an entry count that overflows nothing: one answer, within the error of the exact formula (R167). -/
theorem derived_answer (n rate : ℝ) (hnf : IsBinary64 n) (hf : IsBinary64 rate) (hhi : n ≤ 2 ^ 1000) (h1 : rate < 1)
    (hn : 0 < n) (h0 : 0 < rate) : ∃ exp k : Nat, (∀ r : HostSize, NewFilter (.fin n) (.fin rate) r ↔ r = .sized exp k) ∧
      -n * Real.log rate / Real.log 2 ^ 2 * (1 - 1 / 2 ^ 49) ≤ 2 ^ exp ∧
      (exp = 9 ∨ (2 : ℝ) ^ exp < 2 * (-n * Real.log rate / Real.log 2 ^ 2 * (1 + 1 / 2 ^ 49))) ∧
      ((2 : ℝ) ^ (-900 : ℤ) ≤ n → -Real.log rate / Real.log 2 * (1 - 1 / 2 ^ 49) ≤ k ∧
        (k : ℝ) < -Real.log rate / Real.log 2 * (1 + 1 / 2 ^ 49) + 1) := by
  obtain ⟨raw, p, hnumbers, hbounds, htiny⟩ := exists_finite_numbers hn hhi hnf hf h0 h1
  obtain ⟨exp, he, -⟩ := existsUnique_roundsUpTo raw
  refine ⟨exp, _, newFilter_of_numbers hn h0 h1 hnumbers he, ?_⟩
  by_cases hlo : (2 : ℝ) ^ (-900 : ℤ) ≤ n
  · obtain ⟨hraw, hp⟩ := hbounds hlo
    have hL : 0 < -Real.log rate / Real.log 2 :=
      div_pos (neg_pos.mpr (Real.log_neg h0 h1)) (Real.log_pos (by norm_num))
    exact ⟨hraw.1.trans he.2.1, he.lt_two_mul.imp_right fun hlt => by linarith [hraw.2], fun _ => ceil_bounds hL hp⟩
  · have hlt := not_le.mp hlo
    obtain rfl := (existsUnique_roundsUpTo raw).unique he (roundsUpTo_nine ((htiny hlt).trans (by norm_num)))
    exact ⟨exact_bits_of_tiny hn hlt hf h0 h1, .inl rfl, fun hle => absurd hle hlo⟩

/-- Settles O56: the answers of both modes, where derived mode fails for a number at or below zero and otherwise has the one
answer of its formula. -/
theorem sizingRoundsUpToAPowerOfTwo : Obligations.SizingRoundsUpToAPowerOfTwo := by
  refine ⟨fun first second => ⟨exists_newFilter first second, sized_bounds first second⟩, explicit_size_covers,
    existsUnique_explicit, fun n rate hnf hf hhi h1 => ?_⟩
  have hlt : (F64.fin rate).lt 1 := h1
  by_cases hpos : 0 < n ∧ 0 < rate
  · obtain ⟨exp, k, hiff, hbounds⟩ := derived_answer n rate hnf hf hhi h1 hpos.1 hpos.2
    refine ⟨⟨_, (hiff _).mpr rfl, fun r hr => (hiff r).mp hr⟩, fun exp' k' hsized => ⟨hpos.1, hpos.2, ?_⟩⟩
    cases (hiff _).mp hsized
    exact hbounds
  · have hle : (F64.fin n).le 0 ∨ (F64.fin rate).le 0 := by
      simpa only [F64.le_fin, not_and_or, not_lt] using hpos
    have hfails := eq_invalidConfiguration_of_le_zero (.fin n) (.fin rate)
    refine ⟨⟨_, (newFilter_of_lt_one _ _ _ hlt).mpr (.inl ⟨hle, rfl⟩), fun r hr => hfails r hlt hle hr⟩, ?_⟩
    intro exp k hsized
    cases hfails _ hlt hle hsized

end Sys2Proof.Machine
end

section
/-! The spec's sizing examples (45_host_sizing.md R171, 95_test_vectors.md section 7): bounds on logarithms to base 2 for most of
them, the exact roundings for the rates 0.5 and 0.25, and O57, O58. -/

namespace Sys2Proof.Machine

/-! ### Sizes from bounds on a logarithm to base 2 -/

/-- `-log2(x) ≥ p/q`, as a comparison of powers. -/
theorem le_neg_log_div_log_two {x : ℝ} (p q : Nat) (hx : 0 < x) (hq : 0 < q) (h : x ^ q * 2 ^ p ≤ 1) :
    (p : ℝ) / q ≤ -Real.log x / Real.log 2 := by
  have hlog2 : 0 < Real.log 2 := Real.log_pos (by norm_num)
  have hlog := Real.log_nonpos (by positivity) h
  rw [Real.log_mul (by positivity) (by positivity), Real.log_pow, Real.log_pow] at hlog
  rw [div_le_div_iff₀ (by exact_mod_cast hq) hlog2]
  linarith

/-- `-log2(x) ≤ p/q`, as a comparison of powers. -/
theorem neg_log_div_log_two_le {x : ℝ} (p q : Nat) (hx : 0 < x) (hq : 0 < q) (h : 1 ≤ x ^ q * 2 ^ p) :
    -Real.log x / Real.log 2 ≤ (p : ℝ) / q := by
  have hlog2 : 0 < Real.log 2 := Real.log_pos (by norm_num)
  have hlog := Real.log_nonneg h
  rw [Real.log_mul (by positivity) (by positivity), Real.log_pow, Real.log_pow] at hlog
  rw [div_le_div_iff₀ hlog2 (by exact_mod_cast hq)]
  linarith

/-- A number between two powers of two is rounded up to the upper one; the lower one may be the floor's (R168). -/
theorem roundsUpTo_of_lt {bits : ℝ} {exp : Nat} (h9 : 9 ≤ exp) (hlo : exp = 9 ∨ (2 : ℝ) ^ (exp - 1) < bits)
    (hhi : bits ≤ 2 ^ exp) : RoundsUpTo bits exp := by
  refine ⟨h9, hhi, fun e he hle => ?_⟩
  rcases hlo with rfl | hlo
  · exact he
  · by_contra hlt
    have hpow : (2 : ℝ) ^ e ≤ 2 ^ (exp - 1) := pow_le_pow_right₀ (by norm_num) (by omega)
    linarith

/-- A quotient just below `k` is rounded up to `k` probes (R167, R172). -/
theorem max_one_ceil_eq {p : ℝ} {k : Nat} (hk : 1 ≤ k) (hlo : k = 1 ∨ (k : ℝ) - 1 < p) (hhi : p ≤ k) :
    max 1 ⌈p⌉₊ = k := by
  refine le_antisymm (max_le hk (Nat.ceil_le.mpr hhi)) ?_
  rcases hlo with rfl | hlo
  · exact le_max_left 1 _
  · have hlt : k - 1 < ⌈p⌉₊ := Nat.lt_ceil.mpr (by rwa [Nat.cast_sub hk, Nat.cast_one])
    exact (Nat.le_of_pred_lt hlt).trans (le_max_right 1 _)

/-- Derived mode's answer where the rate's logarithm to base 2 lies between `-b` and `-a`, for bounds that leave more room than
the operations' error and the digits of ln(2) that are used. -/
theorem newFilter_of_log_bounds {n rate : ℝ} (a b : ℝ) (exp k : Nat) (hn : 1 ≤ n) (hhi : n ≤ 2 ^ 1000)
    (hf : IsBinary64 rate) (h0 : 0 < rate) (h1 : rate < 1) (hna : 0 ≤ a) (ha : a ≤ -Real.log rate / Real.log 2)
    (hb : -Real.log rate / Real.log 2 ≤ b) (hk1 : 1 ≤ k) (hk : k = 1 ∨ (k : ℝ) - 1 < a * 0.999) (hkb : b * 1.001 ≤ k)
    (h9 : 9 ≤ exp) (helo : exp = 9 ∨ (2 : ℝ) ^ (exp - 1) * 0.7 < n * (a * 0.999)) (hehi : n * (b * 1.001) ≤ 2 ^ exp * 0.69)
    (r : HostSize) : NewFilter (.fin n) (.fin rate) r ↔ r = .sized exp k := by
  have hn0 : 0 < n := by linarith
  obtain ⟨rawBits, probes, hnumbers⟩ := exists_derivedNumbers (.fin n) rate (by simpa using hn0.ne')
  have hlo : (2 : ℝ) ^ (-900 : ℤ) ≤ n := (zpow_le_one_of_nonpos₀ (by norm_num) (by norm_num)).trans hn
  obtain ⟨raw, p, rfl, rfl, ⟨hraw, hraw'⟩, hp, hp'⟩ := hnumbers.bounds hlo hhi hf h0 h1
  have hM : 0.69 < Real.log 2 := by linarith [Real.log_two_gt_d9]
  have hM' : Real.log 2 < 0.7 := by linarith [Real.log_two_lt_d9]
  have hM0 : 0 < Real.log 2 := by linarith
  have hexact : -n * Real.log rate / Real.log 2 ^ 2 = n * (-Real.log rate / Real.log 2) / Real.log 2 := by
    field_simp
  rw [hexact] at hraw hraw'
  generalize -Real.log rate / Real.log 2 = L at *
  have hL0 : 0 ≤ L := hna.trans ha
  have hpa : a * 0.999 ≤ p := (mul_le_mul ha (by norm_num) (by norm_num) hL0).trans hp
  have hpb : p ≤ b * 1.001 := hp'.trans (mul_le_mul hb (by norm_num) (by norm_num) (hL0.trans hb))
  have hrawa : n * (a * 0.999) / 0.7 ≤ raw := by
    refine le_trans ?_ hraw
    rw [div_mul_eq_mul_div, mul_assoc]
    exact div_le_div₀ (by positivity) (mul_le_mul_of_nonneg_left (mul_le_mul ha (by norm_num) (by norm_num) hL0) hn0.le)
      hM0 hM'.le
  have hrawb : raw ≤ n * (b * 1.001) / 0.69 := by
    refine hraw'.trans ?_
    rw [div_mul_eq_mul_div, mul_assoc]
    exact div_le_div₀ (by nlinarith)
      (mul_le_mul_of_nonneg_left (mul_le_mul hb (by norm_num) (by norm_num) (hL0.trans hb)) hn0.le) (by norm_num) hM.le
  have hexp : RoundsUpTo raw exp := by
    refine roundsUpTo_of_lt h9 (helo.imp_right fun hlt => lt_of_lt_of_le ?_ hrawa) (hrawb.trans ?_)
    · rwa [lt_div_iff₀ (by norm_num)]
    · rwa [div_le_iff₀ (by norm_num)]
  have hceil : max 1 ⌈p⌉₊ = k := max_one_ceil_eq hk1 (hk.imp_right fun hlt => hlt.trans_le hpa) (hpb.trans hkb)
  rw [newFilter_of_numbers hn0 h0 h1 hnumbers hexp, hceil]

/-- A rate in the middle of the range, rounded to `f64`: a number of `f64` very near to it. -/
theorem rounded_rate_near {c : ℝ} {rate : F64} (hc : 1 / 1024 ≤ c) (hc' : c ≤ 1) (h : RoundsTo c rate) :
    ∃ x : ℝ, rate = .fin x ∧ IsBinary64 x ∧ c * 0.99999 ≤ x ∧ x ≤ c * 1.00001 := by
  have hc0 : 0 < c := lt_of_lt_of_le (by norm_num) hc
  have hwf := h.wf
  obtain ⟨z, ⟨hz, hz'⟩, rfl⟩ := h.factor_one (le_trans (by norm_num) hc) (hc'.trans (by norm_num))
  exact ⟨_, rfl, hwf, mul_le_mul_of_nonneg_left (le_trans (by norm_num) hz) hc0.le,
    mul_le_mul_of_nonneg_left (hz'.trans (by norm_num)) hc0.le⟩

/-- Derived mode's answer for a rounded rate `c`, from two comparisons of powers of `c` with powers of two. -/
theorem newFilter_of_rounded_rate {n c : ℝ} (p q p' q' exp k : Nat) (hn : 1 ≤ n) (hhi : n ≤ 2 ^ 100) (hc : 1 / 1024 ≤ c)
    (hc' : c * 1.00001 < 1) (hq : 0 < q) (hq' : 0 < q') (hup : (c * 1.00001) ^ q * 2 ^ p ≤ 1)
    (hdown : 1 ≤ (c * 0.99999) ^ q' * 2 ^ p') (hk1 : 1 ≤ k) (hk : k = 1 ∨ (k : ℝ) - 1 < (p : ℝ) / q * 0.999)
    (hkb : (p' : ℝ) / q' * 1.001 ≤ k) (h9 : 9 ≤ exp)
    (helo : exp = 9 ∨ (2 : ℝ) ^ (exp - 1) * 0.7 < n * ((p : ℝ) / q * 0.999))
    (hehi : n * ((p' : ℝ) / q' * 1.001) ≤ 2 ^ exp * 0.69) (rate : F64) (r : HostSize) (h : RoundsTo c rate) :
    NewFilter (.fin n) rate r ↔ r = .sized exp k := by
  have hc0 : 0 < c := lt_of_lt_of_le (by norm_num) hc
  have hmax : n ≤ 2 ^ 1000 := hhi.trans (pow_le_pow_right₀ (by norm_num) (by norm_num))
  obtain ⟨x, rfl, hf, hxlo, hxhi⟩ := rounded_rate_near hc (by linarith) h
  have h0 : 0 < x := lt_of_lt_of_le (by positivity) hxlo
  have hlog : (p : ℝ) / q ≤ -Real.log x / Real.log 2 := le_neg_log_div_log_two p q h0 hq
    ((mul_le_mul_of_nonneg_right (pow_le_pow_left₀ h0.le hxhi q) (by positivity)).trans hup)
  have hlog' : -Real.log x / Real.log 2 ≤ (p' : ℝ) / q' := neg_log_div_log_two_le p' q' h0 hq'
    (hdown.trans (mul_le_mul_of_nonneg_right (pow_le_pow_left₀ (by positivity) hxlo q') (by positivity)))
  exact newFilter_of_log_bounds _ _ exp k hn hmax hf h0 (hxhi.trans_lt hc') (by positivity) hlog hlog' hk1 hk hkb h9 helo hehi r

/-- Settles O57: `-log2(0.01)` lies between 6.5 and 6.75, so the bits lie between `2^19` and `2^20` and the probes are 7. -/
theorem sizingOfTheRecurringExample : Obligations.SizingOfTheRecurringExample := by
  refine ⟨fun rate r => ?_, by decide, by decide⟩
  exact newFilter_of_rounded_rate 13 2 27 4 20 7 (by norm_num) (by norm_num) (by norm_num) (by norm_num) (by decide)
    (by decide) (by norm_num) (by norm_num) (by decide) (.inr (by norm_num)) (by norm_num) (by decide)
    (.inr (by norm_num)) (by norm_num) rate r

/-! ### The rates 0.5 and 0.25, where the quotient is a whole number -/

/-- The formula's numbers for one entry at the rate 0.5: the quotient rounds to exactly 1. -/
theorem derivedNumbers_one_half : DerivedNumbers (.fin 1) (1 / 2)
    (.fin ((6497320848556798 : ℤ) * (2 : ℝ) ^ (-52 : ℤ))) (.fin 1) := by
  refine ⟨_, _, _, .fin ((6243314768165359 : ℤ) * (2 : ℝ) ^ (-53 : ℤ)), _,
    .fin ((9007199254740992 : ℤ) * (2 : ℝ) ^ (-53 : ℤ)), logsTo_half, logsTo_two, rfl, ?product, square_log_two, ?bits,
    ?scaled, ?quotient⟩
  case product =>
    rw [multipliesTo_fin, neg_mul_neg, one_mul]
    exact roundsTo_self ⟨_, -53, by norm_num, by norm_num, by norm_num, rfl⟩
  case bits =>
    refine ⟨by norm_num, roundsTo_of_near _ _ ⟨by norm_num, ?_, .inl ?_⟩ ?_ ?_⟩ <;> norm_num [abs_lt]
  case scaled =>
    refine roundsTo_of_near _ _ ⟨by norm_num, ?_, .inl ?_⟩ ?_ ?_ <;> norm_num [abs_lt]
  case quotient =>
    rw [dividesTo_fin, show ((9007199254740992 : ℤ) * (2 : ℝ) ^ (-53 : ℤ)) / 1 = 1 by norm_num]
    exact ⟨one_ne_zero, roundsTo_self ⟨1, 0, by norm_num, by norm_num, by norm_num, by norm_num⟩⟩

/-- The formula's numbers for a hundred entries at the rate 0.25: the quotient rounds to exactly 2. -/
theorem derivedNumbers_hundred_quarter : DerivedNumbers (.fin 100) (1 / 4)
    (.fin ((5076031912934999 : ℤ) * (2 : ℝ) ^ (-44 : ℤ))) (.fin 2) := by
  refine ⟨_, _, _, .fin ((4877589662629187 : ℤ) * (2 : ℝ) ^ (-45 : ℤ)), _,
    .fin ((7036874417766400 : ℤ) * (2 : ℝ) ^ (-45 : ℤ)), logsTo_quarter, logsTo_two, rfl, ?product, square_log_two, ?bits,
    ?scaled, ?quotient⟩
  case product =>
    rw [multipliesTo_fin, neg_mul_neg]
    refine roundsTo_of_near _ _ ⟨by norm_num, ?_, .inl ?_⟩ ?_ ?_ <;> norm_num [abs_lt]
  case bits =>
    refine ⟨by norm_num, roundsTo_of_near _ _ ⟨by norm_num, ?_, .inl ?_⟩ ?_ ?_⟩ <;> norm_num [abs_lt]
  case scaled =>
    refine roundsTo_of_near _ _ ⟨by norm_num, ?_, .inl ?_⟩ ?_ ?_ <;> norm_num [abs_lt]
  case quotient =>
    rw [dividesTo_fin, show ((7036874417766400 : ℤ) * (2 : ℝ) ^ (-45 : ℤ)) / 100 = 2 by norm_num]
    exact ⟨by norm_num, roundsTo_self ⟨2, 0, by norm_num, by norm_num, by norm_num, by norm_num⟩⟩

/-- One entry at the rate 0.5. -/
theorem newFilter_one_half (rate : F64) (r : HostSize) (h : RoundsTo 0.5 rate) :
    NewFilter (.fin 1) rate r ↔ r = .sized 9 1 := by
  have hself : RoundsTo 0.5 (.fin (1 / 2)) := by
    rw [show (0.5 : ℝ) = 1 / 2 by norm_num]
    exact roundsTo_self ⟨1, -1, by norm_num, by norm_num, by norm_num, by norm_num⟩
  obtain rfl := h.unique hself
  have hbits := roundsUpTo_nine (bits := (6497320848556798 : ℤ) * (2 : ℝ) ^ (-52 : ℤ)) (by norm_num)
  rw [newFilter_of_numbers (by norm_num) (by norm_num) (by norm_num) derivedNumbers_one_half hbits, Nat.ceil_one, max_self]

/-- A hundred entries at the rate 0.25. -/
theorem newFilter_hundred_quarter (rate : F64) (r : HostSize) (h : RoundsTo 0.25 rate) :
    NewFilter (.fin 100) rate r ↔ r = .sized 9 2 := by
  have hself : RoundsTo 0.25 (.fin (1 / 4)) := by
    rw [show (0.25 : ℝ) = 1 / 4 by norm_num]
    exact roundsTo_self ⟨1, -2, by norm_num, by norm_num, by norm_num, by norm_num⟩
  obtain rfl := h.unique hself
  have hbits := roundsUpTo_nine (bits := (5076031912934999 : ℤ) * (2 : ℝ) ^ (-44 : ℤ)) (by norm_num)
  rw [newFilter_of_numbers (by norm_num) (by norm_num) (by norm_num) derivedNumbers_hundred_quarter hbits, Nat.ceil_ofNat]
  rfl

/-! ### Explicit mode (R170) -/

/-- Explicit mode's answer for whole numbers, between two powers of two. -/
theorem newFilter_explicit_of_lt (bits m exp : Nat) (hm : 1 ≤ m) (h9 : 9 ≤ exp) (hlo : exp = 9 ∨ 2 ^ (exp - 1) < bits)
    (hhi : bits ≤ 2 ^ exp) (r : HostSize) : NewFilter (.fin bits) (.fin m) r ↔ r = .sized exp m :=
  newFilter_explicit hm (roundsUpTo_of_lt h9 (hlo.imp_right fun hlt => by exact_mod_cast hlt) (by exact_mod_cast hhi)) r

/-- Settles O58: `-log2(0.01)` lies between 6.5 and 6.75, `-log2(0.001)` between 9.5 and 9.975, `-log2(0.999)` below 0.5; the
rates 0.5 and 0.25 are rounded step by step; the explicit pairs lie between powers of two. -/
theorem sizingOfTheWorkedExamples : Obligations.SizingOfTheWorkedExamples := by
  refine ⟨?hundredth, ?thousandth, newFilter_one_half, ?nearOne, newFilter_hundred_quarter, fun r => ⟨?_, ?_, ?_⟩⟩
  case hundredth =>
    exact newFilter_of_rounded_rate 13 2 27 4 14 7 (by norm_num) (by norm_num) (by norm_num) (by norm_num) (by decide)
      (by decide) (by norm_num) (by norm_num) (by decide) (.inr (by norm_num)) (by norm_num) (by decide)
      (.inr (by norm_num)) (by norm_num)
  case thousandth =>
    have hdown : (1 : ℝ) ≤ (0.001 * 0.99999) ^ 40 * 2 ^ 399 := by
      rw [show 399 = 200 + 199 from rfl, pow_add]
      norm_num
    exact newFilter_of_rounded_rate 19 2 399 40 24 10 (by norm_num) (by norm_num) (by norm_num) (by norm_num) (by decide)
      (by decide) (by norm_num) hdown (by decide) (.inr (by norm_num)) (by norm_num) (by decide)
      (.inr (by norm_num)) (by norm_num)
  case nearOne =>
    exact newFilter_of_rounded_rate 0 1 1 2 9 1 (by norm_num) (by norm_num) (by norm_num) (by norm_num) (by decide)
      (by decide) (by norm_num) (by norm_num) (by decide) (.inl rfl) (by norm_num) (by decide) (.inl rfl) (by norm_num)
  · exact_mod_cast newFilter_explicit_of_lt 65536 7 16 (by decide) (by decide) (.inr (by decide)) (by decide) r
  · exact_mod_cast newFilter_explicit_of_lt 1000 3 10 (by decide) (by decide) (.inr (by decide)) (by decide) r
  · exact_mod_cast newFilter_explicit_of_lt 100 1 9 (by decide) (by decide) (.inl rfl) (by decide) r

end Sys2Proof.Machine
end
